-- ==== Sys2Proof/Word.lean ====
section
/-! DEFINITION. The word types of the core: a byte, a register word of XLEN = 32 bits, a 16-byte block. -/

namespace Sys2Proof

/-- A byte is 8 bits (00_scope.md R9). -/
abbrev Byte := BitVec 8

/-- An operand register, a pointer, a length and an XTS address are XLEN = 32 bits (00_scope.md R6). -/
abbrev Word := BitVec 32

/-- A block, a key and a tag are 16 bytes (00_scope.md R6 `BLOCK`, `KEY_BYTES`, `TAG_BYTES`).
Byte 0 of the byte string holds bits 127 to 120, so `toNat` is the spec's `int_be`
(DESIGN CHOICE, log 22, safe: the sixteen bytes and the 128 bits are the same data). -/
abbrev Block := BitVec 128

end Sys2Proof
end

