-- ==== Sys2Proof/Machine/Bytes.lean ====
section
/-! DEFINITION. Byte strings, integers and blocks (00_scope.md R9, R10), and the two doublings in GF(2^128)
(41_cmac.md R141, 43_xts.md R181). -/

namespace Sys2Proof.Machine

/-- `LE_n(v)`: `v mod 2^(8n)` least significant byte first (R10). -/
def leBytes : Nat → Nat → List Byte
  | 0, _ => []
  | n + 1, v => BitVec.ofNat 8 v :: leBytes n (v / 256)

/-- `BE_n(v)`: most significant byte first (R10). -/
def beBytes (n v : Nat) : List Byte := (leBytes n v).reverse

/-- `int_le(S)`: `S[0]` is the least significant byte (R10). -/
def intLE : List Byte → Nat
  | [] => 0
  | b :: bs => b.toNat + 256 * intLE bs

/-- `int_be(S)`: `S[0]` is the most significant byte (R10). -/
def intBE (bs : List Byte) : Nat := intLE bs.reverse

/-- `0x00^n` (R9). -/
def zeroBytes (n : Nat) : List Byte := List.replicate n 0

/-- The block whose sixteen bytes are the given ones (R9). -/
def blockOfBytes (bs : List Byte) : Block := BitVec.ofNat 128 (intBE bs)

/-- The sixteen bytes of a block in memory order (R9, 20_memory.md R51). -/
def bytesOfBlock (x : Block) : List Byte := beBytes 16 x.toNat

/-- `RB`, the reduction constant (00_scope.md R6). -/
def rb : Block := 0x87

/-- `dbl_be`: the block read big-endian, shifted left by one, 0x87 XOR-ed into byte 15 on a carry out (R141). -/
def dblBE (x : Block) : Block :=
  let v := x <<< 1
  if x.msb then v ^^^ rb else v

/-- `dbl_le`: the block read little-endian, shifted left by one, 0x87 XOR-ed into byte 0 on a carry out (R181). It is
written from its own convention, not through `dblBE`: the two are never unified. -/
def dblLE (x : Block) : Block :=
  let n : Block := BitVec.ofNat 128 (intLE (bytesOfBlock x))
  let v := n <<< 1
  let w := if n.msb then v ^^^ rb else v
  blockOfBytes (leBytes 16 w.toNat)

/-- The padded last block: the data bytes, `0x80`, zeros (41_cmac.md R144 `P`). -/
def padBlock (r : List Byte) : Block := blockOfBytes (r ++ 0x80 :: zeroBytes (15 - r.length))

/-- The tweak seed input: the data-unit number as 8 bytes little-endian, then 8 zero bytes (43_xts.md R183). -/
def seedInput (unit : Nat) : Block := blockOfBytes (leBytes 8 (unit % 2 ^ 64) ++ zeroBytes 8)

/-- A buffer with the bytes `bs` stored from offset `off` on. -/
def bufStore (buf : List Byte) (off : Nat) (bs : List Byte) : List Byte :=
  buf.take off ++ bs ++ buf.drop (off + bs.length)

end Sys2Proof.Machine
end

