-- ==== Sys2Proof/Config.lean ====
section
/-! DEFINITION. What is fixed for the machine (00_scope.md R6) and the free values: constants with no body,
of which nothing can be proved but what their types say. -/

namespace Sys2Proof

/-- The two kinds of memory access (20_memory.md R58). -/
inductive AccessKind where
  | read
  | write
deriving DecidableEq, Repr

/-- One access of the core, the arguments of the spec's `MemAdmit(addr, n, kind)` (20_memory.md R58). -/
structure Access where
  addr : Nat
  len  : Nat
  kind : AccessKind
deriving DecidableEq, Repr

/-- The open parameters that the procedures take: the block cipher `E`, `D` and the 4-byte context constant
of the data authentication key, its first byte most significant (00_scope.md R6, R7). -/
structure Params where
  enc       : Block → Block → Block
  dec       : Block → Block → Block
  daContext : BitVec 32

namespace Config

/-- `BLOCK` (R6). -/
abbrev block : Nat := 16

/-- `NBC`, the number of block cipher context slots (R6; the spec's decision D9, log 20). -/
abbrev nbc : Nat := 4

/-- `NXC`, the number of XTS context slots (R6; the spec's decision D9, log 20). -/
abbrev nxc : Nat := 2

/-- `2^XLEN`, the number of byte addresses (R6; D11, log 20). -/
abbrev space : Nat := 2 ^ 32

/-- `KDF_MIN` (R6). -/
abbrev kdfMin : Nat := 16

/-- `KDF_MAX` (R6). -/
abbrev kdfMax : Nat := 4096

/-- `KDF_BUF_CAP` (R6; D13, log 20). -/
abbrev kdfBufCap : Nat := 256

/-- The size in bytes of the hidden buffer `DKEY` (10_state.md R31). -/
abbrev dkeyBytes : Nat := 32

/-- `DU`, the XTS data-unit size (R6; D14, log 20). -/
abbrev du : Nat := 1024

/-- `DA_LABEL`: the 27 ASCII bytes of `MCrypto Data Authentication`, no terminator (44_data_auth.md R200; D15, log 20). -/
def daLabel : List Byte :=
  [0x4d, 0x43, 0x72, 0x79, 0x70, 0x74, 0x6f, 0x20, 0x44, 0x61, 0x74, 0x61, 0x20] ++
  [0x41, 0x75, 0x74, 0x68, 0x65, 0x6e, 0x74, 0x69, 0x63, 0x61, 0x74, 0x69, 0x6f, 0x6e]

/-- The block cipher: for each key a permutation of the blocks. This is the whole of what R7 lets the model
assume (`D_inverts_E`): log 6. No body: an open parameter. -/
opaque cipher : Block → Equiv.Perm Block

/-- The device-unique key, an open parameter fixed for all time (10_state.md R30; log 7). -/
opaque devKey : Block

/-- `DA_CONTEXT`, the 4-byte constant whose value no source gives (R6, 91_not_in_source.md N5; log 8). -/
opaque daContext : BitVec 32

/-- The oracle `PrimFault`: does the `n`-th primitive call since reset fail? Used for the calls whose answer
the state's `primFaults` does not already fix (40_context_lifecycle.md R112; log 9). -/
opaque primFault : Nat → Bool

/-- The `n`-th draw of an unspecified output byte (60_exceptions.md R247, 93 U9; log 11). -/
opaque freeByte : Nat → Byte

/-- The accesses that the platform does not admit, the complement of `MemAdmit` (20_memory.md R58; log 10). -/
opaque denied : List Access

/-- The open parameters of this hardware, as the commands use them: `E`, `D` (40_context_lifecycle.md R111) and
`DA_CONTEXT`. -/
def params : Params where
  enc       := fun k x => cipher k x
  dec       := fun k y => (cipher k).symm y
  daContext := daContext

end Config
end Sys2Proof
end

