-- ==== Sys2Proof/Machine/State.lean ====
section
/-! DEFINITION. The state of the core as plain data (10_state.md), the five status codes' names, the reasons a
step can stop, and the state after reset. -/

namespace Sys2Proof.Machine

/-- The names of the operand registers (10_state.md R20). -/
inductive OpReg where
  | a0 | a1 | a2 | a3 | a4 | a5
deriving DecidableEq, Repr

/-- The six operand registers, each XLEN bits (10_state.md R20). -/
structure OperandRegs where
  a0 : Word
  a1 : Word
  a2 : Word
  a3 : Word
  a4 : Word
  a5 : Word
deriving DecidableEq, Repr

/-- The status codes, a "small closed enum" (60_exceptions.md R240). -/
inductive Status where
  | ok
  | failure
  | invalidArgs
  | ctxNotInitialized
  | invalidTag
deriving DecidableEq, Repr

/-- The two values of a context's "initialized" flag (10_state.md R25). -/
inductive CtxState where
  | uninit
  | ready
deriving DecidableEq, Repr

/-- Which key a context encrypts under (10_state.md R25). -/
inductive KeySel where
  | loaded
  | device
deriving DecidableEq, Repr

/-- A block cipher context (10_state.md R25). -/
structure BlockCtx where
  state : CtxState
  ksel  : KeySel
  key   : Block
deriving DecidableEq, Repr

/-- A cleaned or never initialised context: UNINIT, LOADED, 0^128 (10_state.md R26 (c), R35). -/
def BlockCtx.clear : BlockCtx := { state := .uninit, ksel := .loaded, key := 0 }

/-- An XTS context owns exactly two block cipher contexts (10_state.md R27). -/
structure XtsCtx where
  data  : BlockCtx
  tweak : BlockCtx
deriving DecidableEq, Repr

/-- Both inner contexts cleaned. -/
def XtsCtx.clear : XtsCtx := { data := .clear, tweak := .clear }

/-- The name of a place that holds a block cipher context: a slot, an inner context of an XTS slot, or one of the
two transient contexts (10_state.md R25, R27, R31). -/
inductive CtxLoc where
  | bc (i : Nat)
  | xcData (j : Nat)
  | xcTweak (j : Nat)
  | tbc0
  | tbc1
deriving DecidableEq, Repr

/-- The hidden state, used only inside a command (10_state.md R31; `K0` is 41_cmac.md R142's, wiped with the
subkeys by R145 and 60_exceptions.md R246). -/
structure Hidden where
  tbc0   : BlockCtx
  tbc1   : BlockCtx
  x      : Block
  k0     : Block
  k1     : Block
  k2     : Block
  kbuf   : List Byte
  dkey   : List Byte
  t      : Block
  tagBuf : Block
deriving DecidableEq, Repr

/-- The hidden state after reset: contexts UNINIT, every buffer zero (10_state.md R35). -/
def Hidden.clear : Hidden where
  tbc0   := .clear
  tbc1   := .clear
  x      := 0
  k0     := 0
  k1     := 0
  k2     := 0
  kbuf   := List.replicate Config.kdfBufCap 0
  dkey   := List.replicate Config.dkeyBytes 0
  t      := 0
  tagBuf := 0

/-- Memory in its canonical form (Memory.wf of Ops.lean): addresses strictly rising, no byte equal to what an
unlisted address reads as (10_state.md R33). -/
structure Memory where
  cells : List Host.Cell
deriving DecidableEq, Repr

/-- The registers that the host reaches (10_state.md R34). -/
inductive HostReg where
  | a (r : OpReg)
  | cmd
  | status
  | result
deriving DecidableEq, Repr

/-- One access of the host to the core or to memory, or a reset (60_exceptions.md R252, 70_reset_and_hazards.md R270).
`cmdReset w` is a CMD write of `w` during whose command a reset arrives (R271). -/
inductive HostAccess where
  | readReg (r : HostReg)
  | writeReg (r : HostReg) (v : Word)
  | readMem (addr : Word)
  | writeMem (addr : Word) (v : Byte)
  | reset
  | cmdReset (w : Word)
deriving DecidableEq, Repr

/-- Everything the spec gives the machine (10_state.md), and six fields of the model's own: `bus` (log 1), `busData`
(log 21), `primFaults` and `primCalls` (log 9), `draws` (log 11), `denied` (log 10). -/
structure State where
  /-- `A0` to `A5` (R20). -/
  regs : OperandRegs
  /-- `STATUS` (R22). -/
  status : Word
  /-- `RESULT` (R24). -/
  result : Word
  /-- `BC[0]` to `BC[NBC-1]` (R25). -/
  bc : Vector BlockCtx Config.nbc
  /-- `XC[0]` to `XC[NXC-1]` (R27). -/
  xc : Vector XtsCtx Config.nxc
  /-- `DEVKEY` (R30). -/
  devKey : Block
  /-- The state that exists only inside a command (R31). -/
  hidden : Hidden
  /-- The memory shared with the host (R33). -/
  mem : Memory
  /-- The model's own: the host accesses still to come, oldest first. -/
  bus : List HostAccess
  /-- The model's own: what the host's last read returned. -/
  busData : Word
  /-- The model's own: the answers of `PrimFault` already fixed for the next primitive calls, the next one first. -/
  primFaults : List Bool
  /-- The model's own: how many primitive calls were made since reset. -/
  primCalls : Nat
  /-- The model's own: how many unspecified bytes were drawn since reset. -/
  draws : Nat
  /-- The model's own: the accesses that the platform does not admit. -/
  denied : List Access
deriving DecidableEq, Repr

/-- A machine that stops with a fault: there is none. Every error that the spec defines is a status code, after which the
machine goes on (60_exceptions.md R240, R248), and every stop is a refusal (93_implementation_defined.md U1 to U5). Safe. -/
inductive Fault where
deriving DecidableEq, Repr

/-- A command to which the spec gives no meaning in this state. -/
inductive Refusal where
  /-- Raised by exec's arm of an instruction that has no meaning yet. Safe. -/
  | notModelled (mnemonic : String)
  /-- An operand range `[ptr, ptr+len)` passes `2^XLEN` (20_memory.md R58, R65; 93 U5: refuse). Raised by every command that
  reads or writes memory, after its argument checks and before its work. Safe (log 15). -/
  | accessPastTop
  /-- A memory access that the platform does not admit (20_memory.md R58, 93 U4: refuse). Raised at the access itself, in the
  order of the pseudocode, by every command that reads or writes memory. Safe (log 14). -/
  | accessNotAdmitted
  /-- XTS input and output ranges overlap but are not identical (20_memory.md R59, 93 U1: refuse). Raised by XTS_ENC,
  XTS_DEC, ME_ENC, ME_DEC. Safe (log 13). -/
  | partialOverlap
  /-- `address + size > 2^XLEN` in an XTS command (43_xts.md R184, 93 U3: refuse). Raised by XTS_ENC, XTS_DEC, ME_ENC,
  ME_DEC. Safe (log 13). -/
  | spanPastTop
  /-- An init command on a slot that is already READY (40_context_lifecycle.md R127, 93 U2: refuse). Raised by
  BC_INIT_KEY, BC_INIT_DEVKEY, XTS_INIT, DA_INIT, ME_INIT. Safe (log 12). -/
  | contextAlreadyReady
deriving DecidableEq, Repr

/-- The operand registers right after reset: the spec gives no value (10_state.md R35); the model names zero
(DESIGN CHOICE, log 3, unsafe). -/
def OperandRegs.zero : OperandRegs := { a0 := 0, a1 := 0, a2 := 0, a3 := 0, a4 := 0, a5 := 0 }

/-- The machine right after reset (10_state.md R35). `STATUS` and `RESULT` at zero are DESIGN CHOICE (log 4, unsafe). -/
def State.reset : State where
  regs       := .zero
  status     := 0
  result     := 0
  bc         := Vector.replicate Config.nbc .clear
  xc         := Vector.replicate Config.nxc .clear
  devKey     := Config.devKey
  hidden     := .clear
  mem        := { cells := [] }
  bus        := []
  busData    := 0
  primFaults := []
  primCalls  := 0
  draws      := 0
  denied     := Config.denied

end Sys2Proof.Machine
end

