-- ==== Sys2Proof/Machine/Ops.lean ====
section
/-! DEFINITION. The named operations over memory, registers and contexts; the six boundary calls of the Block
Cipher Primitive (40_context_lifecycle.md R113 to R118); and how every command is launched and ended
(30_encoding.md R86, 60_exceptions.md R246, R247), which stands in the place of taking an exception. -/

namespace Sys2Proof.Machine

/-! ## Memory -/

/-- What an address that is not listed reads as (DESIGN CHOICE, log 5, unsafe: the memory is the host's and the spec
gives it no content). -/
def unlistedByte : Byte := 0

/-- The byte at an address of a canonical list. -/
def cellsGet : List Host.Cell → Nat → Byte
  | [], _ => unlistedByte
  | (a, b) :: m, p => if p = a then b else cellsGet m p

/-- A canonical list with one byte stored. -/
def cellsSet : List Host.Cell → Nat → Byte → List Host.Cell
  | [], p, v => if v = unlistedByte then [] else [(p, v)]
  | (a, b) :: m, p, v =>
    if p < a then (if v = unlistedByte then (a, b) :: m else (p, v) :: (a, b) :: m)
    else if p = a then (if v = unlistedByte then m else (p, v) :: m)
    else (a, b) :: cellsSet m p v

/-- The canonical form from address `lo` on. -/
def cellsWf : Nat → List Host.Cell → Bool
  | _, [] => true
  | lo, (a, b) :: m => decide (lo ≤ a) && decide (a < Config.space) && decide (b ≠ unlistedByte) && cellsWf (a + 1) m

/-- Addresses strictly rising and inside the address space, no entry equal to what an unlisted address reads as. -/
def Memory.wf (m : Memory) : Bool := cellsWf 0 m.cells

/-- The byte at an address. -/
def Memory.get (m : Memory) (p : Nat) : Byte := cellsGet m.cells p

/-- Memory with the byte at an address replaced. -/
def Memory.set (m : Memory) (p : Nat) (v : Byte) : Memory := { cells := cellsSet m.cells p v }

/-- `MemRead(addr, n)` (20_memory.md R52). -/
def Memory.read (m : Memory) (addr n : Nat) : List Byte := (List.range n).map fun i => m.get (addr + i)

/-- `MemWrite(addr, n, v)` with `n = len(v)` (20_memory.md R53). -/
def Memory.write : Memory → Nat → List Byte → Memory
  | m, _, [] => m
  | m, addr, b :: bs => (m.set addr b).write (addr + 1) bs

/-! ## Operand registers -/

/-- `A[i]` (10_state.md R20). -/
def OperandRegs.get (r : OperandRegs) : OpReg → Word
  | .a0 => r.a0
  | .a1 => r.a1
  | .a2 => r.a2
  | .a3 => r.a3
  | .a4 => r.a4
  | .a5 => r.a5

/-- The host's write of an operand register (10_state.md R20). -/
def OperandRegs.set (r : OperandRegs) (n : OpReg) (v : Word) : OperandRegs :=
  match n with
  | .a0 => { r with a0 := v }
  | .a1 => { r with a1 := v }
  | .a2 => { r with a2 := v }
  | .a3 => { r with a3 := v }
  | .a4 => { r with a4 := v }
  | .a5 => { r with a5 := v }

/-! ## Contexts -/

/-- The block cipher context at a place; a slot that does not exist is a cleared one (never looked up: R119). -/
def State.ctxAt (s : State) : CtxLoc → BlockCtx
  | .bc i => (s.bc[i]?).getD .clear
  | .xcData j => ((s.xc[j]?).getD .clear).data
  | .xcTweak j => ((s.xc[j]?).getD .clear).tweak
  | .tbc0 => s.hidden.tbc0
  | .tbc1 => s.hidden.tbc1

/-- The state with the block cipher context at a place replaced. -/
def State.setCtx (s : State) (l : CtxLoc) (c : BlockCtx) : State :=
  match l with
  | .bc i => { s with bc := s.bc.setIfInBounds i c }
  | .xcData j => { s with xc := s.xc.setIfInBounds j { (s.xc[j]?).getD .clear with data := c } }
  | .xcTweak j => { s with xc := s.xc.setIfInBounds j { (s.xc[j]?).getD .clear with tweak := c } }
  | .tbc0 => { s with hidden := { s.hidden with tbc0 := c } }
  | .tbc1 => { s with hidden := { s.hidden with tbc1 := c } }

/-- `keyof(c)`: the loaded key, or `DEVKEY` (10_state.md R25). -/
def State.keyOf (s : State) (c : BlockCtx) : Block :=
  match c.ksel with
  | .loaded => c.key
  | .device => s.devKey

/-- `BC_Clean(c)` (R117). -/
def State.bcClean (l : CtxLoc) (s : State) : State := s.setCtx l .clear

/-! ## The procedures' frame: a state, and the reason when the procedure is left early -/

/-- Why a procedure is left before its end: a raised status (00_scope.md R11), or an access to which the spec gives no result,
for which the model refuses the command (20_memory.md R58). -/
inductive Halt where
  | raise (c : Status)
  | refuse (r : Refusal)
deriving DecidableEq, Repr

/-- A procedure of the pseudocode: it ends with a value, or is left early with its reason, and leaves a state either way. -/
abbrev Proc (α : Type) := EStateM Halt State α

/-- `raise c` (R11). -/
def raise {α : Type} (c : Status) : Proc α := fun s => .error (.raise c) s

/-- A change of the state that cannot fail. -/
def update (f : State → State) : Proc Unit := fun s => .ok () (f s)

/-- A change of the hidden state (10_state.md R31). -/
def updateHidden (f : Hidden → Hidden) : Proc Unit := update fun s => { s with hidden := f s.hidden }

/-- A value read from the state. -/
def look {α : Type} (f : State → α) : Proc α := fun s => .ok (f s) s

/-- "on every exit below": `f` runs when `p` ends, with a value or with a raised status (60_exceptions.md R246). -/
def onExit {α : Type} (f : State → State) (p : Proc α) : Proc α := fun s =>
  match p s with
  | .ok a s' => .ok a (f s')
  | .error c s' => .error c (f s')

/-- "on any raise below": `f` runs when `p` ends with a raised status. -/
def onRaise {α : Type} (f : State → State) (p : Proc α) : Proc α := fun s =>
  match p s with
  | .ok a s' => .ok a s'
  | .error c s' => .error c (f s')

/-- The platform admits the access (20_memory.md R58). An access of length zero touches no memory and is not asked about
(R52, R53). -/
def State.admitsAccess (s : State) (a : Access) : Bool := a.len == 0 || decide (a ∉ s.denied)

/-- The access is made only if the platform admits it; the command is refused where it is not (R58, 93 U4). -/
def ask (a : Access) : Proc Unit := fun s =>
  if s.admitsAccess a then .ok () s else .error (.refuse .accessNotAdmitted) s

/-- `MemRead` inside a procedure (R52). -/
def memRead (addr n : Nat) : Proc (List Byte) := do
  ask { addr := addr, len := n, kind := .read }
  look fun s => s.mem.read addr n

/-- `MemWrite` inside a procedure (R53). -/
def memWrite (addr : Nat) (bs : List Byte) : Proc Unit := do
  ask { addr := addr, len := bs.length, kind := .write }
  update fun s => { s with mem := s.mem.write addr bs }

/-! ## The Block Cipher Primitive -/

/-- What `PrimFault()` answers at the next primitive call: the answer the state holds for it or, where it holds
none, the free value of that call (R112, log 9). -/
def State.nextFault (s : State) : Bool :=
  match s.primFaults with
  | b :: _ => b
  | [] => Config.primFault s.primCalls

/-- The state after one draw of `PrimFault()`. -/
def State.drawFault (s : State) : State :=
  { s with primFaults := s.primFaults.tail, primCalls := s.primCalls + 1 }

/-- `BC_Enc(c, x)` (R113). -/
def bcEnc (P : Params) (l : CtxLoc) (x : Block) : Proc Block := fun s =>
  if (s.ctxAt l).state ≠ .ready then .error (.raise .ctxNotInitialized) s
  else if s.nextFault then .error (.raise .failure) s.drawFault
  else .ok (P.enc (s.keyOf (s.ctxAt l)) x) s.drawFault

/-- `BC_Dec(c, x)` (R114). -/
def bcDec (P : Params) (l : CtxLoc) (x : Block) : Proc Block := fun s =>
  if (s.ctxAt l).state ≠ .ready then .error (.raise .ctxNotInitialized) s
  else if s.nextFault then .error (.raise .failure) s.drawFault
  else .ok (P.dec (s.keyOf (s.ctxAt l)) x) s.drawFault

/-- `BC_Load(c, k)` (R115). Its precondition, the context is UNINIT, is tested where the command is launched (R127, log 12). -/
def bcLoad (l : CtxLoc) (k : Block) : Proc Unit := fun s =>
  if s.nextFault then .error (.raise .failure) (s.drawFault.bcClean l)
  else .ok () (s.drawFault.setCtx l { state := .ready, ksel := .loaded, key := k })

/-- `BC_LoadDev(c)` (R116). -/
def bcLoadDev (l : CtxLoc) : Proc Unit := fun s =>
  if s.nextFault then .error (.raise .failure) (s.drawFault.bcClean l)
  else .ok () (s.drawFault.setCtx l { state := .ready, ksel := .device, key := 0 })

/-! ## Ending a command -/

/-- The number of a status code (60_exceptions.md R240). -/
def Status.code : Status → Nat
  | .ok => 0
  | .failure => 1
  | .invalidArgs => 2
  | .ctxNotInitialized => 3
  | .invalidTag => 4

/-- The word that `STATUS` holds for a code: the code in bits 2:0, zero in bits 31:3 (10_state.md R22). -/
def Status.word (c : Status) : Word := BitVec.ofNat 32 c.code

/-- The last action of every command: `STATUS <- code` (60_exceptions.md R246). -/
def State.exit (s : State) (c : Status) : State := { s with status := c.word }

/-- After FAILURE every byte of the output range holds an unspecified value, a draw (60_exceptions.md R247, log 11).
The range is an address and a length; `none` for a command that writes no memory. -/
def State.scribble (out : Option (Nat × Nat)) (s : State) : State :=
  match out with
  | none => s
  | some (a, n) =>
    { s with mem   := s.mem.write a ((List.range n).map fun i => Config.freeByte (s.draws + i))
             draws := s.draws + n }

/-- The exit sequence (R246, R247). The pending "on every exit" actions have run inside the procedure. A command that met an
access with no result is refused, whatever it had done (20_memory.md R58). -/
def finish (out : Option (Nat × Nat)) (r : EStateM.Result Halt State Unit) : Host.Outcome State Fault Refusal :=
  match r with
  | .ok _ s => .next (s.exit .ok)
  | .error (.raise c) s => .next (if c = .failure then (s.scribble out).exit c else s.exit c)
  | .error (.refuse e) _ => .refused e

/-! ## Launching a command -/

/-- What the checks that come before a command's work decide. -/
inductive Gate where
  | go
  | raise (c : Status)
  | refuse (r : Refusal)
deriving DecidableEq, Repr

/-- The first check that does not let the command pass decides (60_exceptions.md R244). -/
def Gate.andThen (g h : Gate) : Gate :=
  match g with
  | .go => h
  | .raise c => .raise c
  | .refuse r => .refuse r

/-- An operand range, its address and its length, that passes `2^XLEN` is refused; an empty one touches nothing (20_memory.md
R52, R58, R65; 93 U5). -/
def topGate (ranges : List (Nat × Nat)) : Gate :=
  if ranges.any fun q => decide (q.2 ≠ 0 ∧ Config.space < q.1 + q.2) then .refuse .accessPastTop else .go

/-- A command: its checks, the end of its operand ranges (log 15), its work, its end (30_encoding.md R86). -/
def launch (gate : Gate) (ranges : List (Nat × Nat)) (out : Option (Nat × Nat)) (work : Proc Unit) (s : State) :
    Host.Outcome State Fault Refusal :=
  match gate.andThen (topGate ranges) with
  | .go => finish out (work s)
  | .raise c => .next (s.exit c)
  | .refuse r => .refused r

/-! ## Reset -/

/-- The reset event (70_reset_and_hazards.md R270): contexts UNINIT, hidden state zero, `DEVKEY` and memory unchanged;
the registers take the values of State.reset (log 3, log 4). The model's own fields are the outside world's and stay. -/
def State.resetEvent (s : State) : State :=
  { s with regs   := .zero
           status := 0
           result := 0
           bc     := Vector.replicate Config.nbc .clear
           xc     := Vector.replicate Config.nxc .clear
           hidden := .clear }

end Sys2Proof.Machine
end

