-- ==== Sys2Proof/Machine/Flags.lean ====
section
/-! DEFINITION. The flags of the core (10_state.md R32): the "initialized" flag of the contexts and bit 0 of RESULT.
The CODE field of STATUS is Status.word and State.exit of Ops.lean. -/

namespace Sys2Proof.Machine

/-- `BC_Ready(c)` (40_context_lifecycle.md R118). -/
def BlockCtx.isReady (c : BlockCtx) : Bool := decide (c.state = .ready)

/-- `BC[i]` is ready. -/
def State.bcReady (s : State) (i : Nat) : Bool := (s.ctxAt (.bc i)).isReady

/-- `XC[j]` is called ready when both inner contexts are READY (10_state.md R28). -/
def State.xcReady (s : State) (j : Nat) : Bool := (s.ctxAt (.xcData j)).isReady && (s.ctxAt (.xcTweak j)).isReady

/-- Some inner context of `XC[j]` is READY, so that an init command would load a ready context. -/
def State.xcTouched (s : State) (j : Nat) : Bool := (s.ctxAt (.xcData j)).isReady || (s.ctxAt (.xcTweak j)).isReady

/-- `RESULT[0] <- b`; bits 31:1 read as zero (10_state.md R24). -/
def State.setResult (s : State) (b : Bool) : State := { s with result := if b then 1 else 0 }

end Sys2Proof.Machine
end

