-- ==== Sys2Proof/Syntax.lean ====
section
/-! DEFINITION. The 21 commands (30_encoding.md R84), one constructor per row of the opcode table. `ctx` is the
context slot index of the command word; every other operand is an operand register's value at launch (R83) and so
no part of the instruction. -/

namespace Sys2Proof

/-- A command word as an instruction (30_encoding.md R80, R84). -/
inductive Instr where
  | bcInitKey (ctx : Nat)
  | bcInitDevkey (ctx : Nat)
  | bcCleanup (ctx : Nat)
  | bcIsInit (ctx : Nat)
  | xtsInit (ctx : Nat)
  | xtsCleanup (ctx : Nat)
  | xtsIsInit (ctx : Nat)
  | cmac (ctx : Nat)
  | cmacKey
  | cmacDevkey
  | kdfDerive
  | xtsEnc (ctx : Nat)
  | xtsDec (ctx : Nat)
  | daInit (ctx : Nat)
  | daCompute (ctx : Nat)
  | daVerify (ctx : Nat)
  | daComputeEasy
  | daVerifyEasy
  | meInit (ctx : Nat)
  | meEnc (ctx : Nat)
  | meDec (ctx : Nat)
deriving DecidableEq, Repr

/-- The slot index an instruction carries; `none` for the formats that take no context (30_encoding.md R82). -/
def Instr.ctx? : Instr → Option Nat
  | .bcInitKey c => some c
  | .bcInitDevkey c => some c
  | .bcCleanup c => some c
  | .bcIsInit c => some c
  | .xtsInit c => some c
  | .xtsCleanup c => some c
  | .xtsIsInit c => some c
  | .cmac c => some c
  | .cmacKey => none
  | .cmacDevkey => none
  | .kdfDerive => none
  | .xtsEnc c => some c
  | .xtsDec c => some c
  | .daInit c => some c
  | .daCompute c => some c
  | .daVerify c => some c
  | .daComputeEasy => none
  | .daVerifyEasy => none
  | .meInit c => some c
  | .meEnc c => some c
  | .meDec c => some c

end Sys2Proof
end

