-- ==== Sys2Proof/WellFormed.lean ====
section
/-! DEFINITION. Which terms of Instr a command word can hold: the slot index is the 8-bit unsigned field `CTX`
(30_encoding.md R80, R83). An index that names no slot is well-formed: it has a meaning, INVALID_ARGS (R81). -/

namespace Sys2Proof

/-- The slot index, where the instruction carries one, fits the 8-bit field `CTX`. -/
def Instr.ctxFits (i : Instr) : Bool :=
  match i.ctx? with
  | some c => decide (c < 256)
  | none => true

/-- The instruction has a command word. -/
abbrev Instr.WellFormed (i : Instr) : Prop := i.ctxFits = true

end Sys2Proof
end

