-- ==== Sys2Proof/Decode.lean ====
section
/-! DEFINITION. The command word: decoder, encoder, and the match and mask columns of the opcode table
(30_encoding.md R80 to R87). -/

namespace Sys2Proof

/-- Why a command word is illegal (30_encoding.md R85). All three have one effect; the names are the model's
(DESIGN CHOICE, log 26, safe: not observable). -/
inductive Illegal where
  | reservedNonzero
  | unassignedOp
  | ctxNotZero
deriving DecidableEq, Repr

/-- `OP`, bits 7:0 (R80). -/
def opField (w : Word) : Nat := w.toNat % 256

/-- `CTX`, bits 15:8, unsigned (R80). -/
def ctxField (w : Word) : Nat := w.toNat / 256 % 256

/-- `RSV`, bits 31:16, must be zero (R80). -/
def rsvField (w : Word) : Nat := w.toNat / 65536

/-- A command of a format that takes no context: `CTX` must be zero (R82, R85). -/
def noCtx (ctx : Nat) (i : Instr) : Except Illegal Instr :=
  if ctx = 0 then .ok i else .error .ctxNotZero

/-- The operation codes of R84. -/
def decodeOp (op ctx : Nat) : Except Illegal Instr :=
  match op with
  | 0x01 => .ok (.bcInitKey ctx)
  | 0x02 => .ok (.bcInitDevkey ctx)
  | 0x03 => .ok (.bcCleanup ctx)
  | 0x04 => .ok (.bcIsInit ctx)
  | 0x05 => .ok (.xtsInit ctx)
  | 0x06 => .ok (.xtsCleanup ctx)
  | 0x07 => .ok (.xtsIsInit ctx)
  | 0x10 => .ok (.cmac ctx)
  | 0x11 => noCtx ctx .cmacKey
  | 0x12 => noCtx ctx .cmacDevkey
  | 0x20 => noCtx ctx .kdfDerive
  | 0x30 => .ok (.xtsEnc ctx)
  | 0x31 => .ok (.xtsDec ctx)
  | 0x40 => .ok (.daInit ctx)
  | 0x41 => .ok (.daCompute ctx)
  | 0x42 => .ok (.daVerify ctx)
  | 0x43 => noCtx ctx .daComputeEasy
  | 0x44 => noCtx ctx .daVerifyEasy
  | 0x50 => .ok (.meInit ctx)
  | 0x51 => .ok (.meEnc ctx)
  | 0x52 => .ok (.meDec ctx)
  | _ => .error .unassignedOp

/-- The decoder, total on every 32-bit word (R84, R85, R87). -/
def decode (w : Word) : Except Illegal Instr :=
  if rsvField w = 0 then decodeOp (opField w) (ctxField w) else .error .reservedNonzero

/-- The instruction that an opcode-table word of `nbits` bits stands for; the bits above `nbits` are zero. The one
word of a command is the whole of it (R87), so a longer word is no command. -/
def decodeTableWord (nbits w : Nat) : Option Instr :=
  if w % 2 ^ nbits < 2 ^ 32 then
    match decode (BitVec.ofNat 32 (w % 2 ^ nbits)) with
    | .ok i => some i
    | .error _ => none
  else none

/-- The `match` column of R84: the operation code, every other fixed bit zero. -/
def Instr.rowMatch : Instr → Word
  | .bcInitKey _ => 0x00000001
  | .bcInitDevkey _ => 0x00000002
  | .bcCleanup _ => 0x00000003
  | .bcIsInit _ => 0x00000004
  | .xtsInit _ => 0x00000005
  | .xtsCleanup _ => 0x00000006
  | .xtsIsInit _ => 0x00000007
  | .cmac _ => 0x00000010
  | .cmacKey => 0x00000011
  | .cmacDevkey => 0x00000012
  | .kdfDerive => 0x00000020
  | .xtsEnc _ => 0x00000030
  | .xtsDec _ => 0x00000031
  | .daInit _ => 0x00000040
  | .daCompute _ => 0x00000041
  | .daVerify _ => 0x00000042
  | .daComputeEasy => 0x00000043
  | .daVerifyEasy => 0x00000044
  | .meInit _ => 0x00000050
  | .meEnc _ => 0x00000051
  | .meDec _ => 0x00000052

/-- The `mask` column of R84: rows with a context leave bits 15:8 free, the others require them zero. -/
def Instr.rowMask (i : Instr) : Word :=
  match i.ctx? with
  | some _ => 0xFFFF00FF
  | none => 0xFFFFFFFF

/-- The command word of a well-formed instruction: the row's `match` with the slot index in bits 15:8 (R80, R84). -/
def encode (i : Instr) : Word :=
  match i.ctx? with
  | some c => i.rowMatch ||| (BitVec.ofNat 8 c).setWidth 32 <<< 8
  | none => i.rowMatch

/-- The pseudo-instructions of R89, each the underlying lifecycle command. -/
def pseudoDaCleanup (c : Nat) : Instr := .bcCleanup c

/-- `DA_IS_INIT c` (R89). -/
def pseudoDaIsInit (c : Nat) : Instr := .bcIsInit c

/-- `ME_CLEANUP x` (R89). -/
def pseudoMeCleanup (x : Nat) : Instr := .xtsCleanup x

/-- `ME_IS_INIT x` (R89). -/
def pseudoMeIsInit (x : Nat) : Instr := .xtsIsInit x

end Sys2Proof
end

