-- ==== Sys2Proof/Machine/Operands.lean ====
section
/-! DEFINITION. The operand forms: the nine formats and the registers each reads (30_encoding.md R82), the memory
ranges of every command (20_memory.md R65), and the assembler line (30_encoding.md R88). -/

namespace Sys2Proof.Machine

/-- The nine formats (R82). -/
inductive Format where
  | ctx
  | ctxKey
  | ctxKey2
  | msg
  | ctxMsg
  | msgKey
  | kdf
  | ctxKdf
  | ctxXts
deriving DecidableEq, Repr

/-- The format column of 30_encoding.md R84. -/
def formatOf : Instr → Format
  | .bcInitKey _ => .ctxKey
  | .bcInitDevkey _ => .ctx
  | .bcCleanup _ => .ctx
  | .bcIsInit _ => .ctx
  | .xtsInit _ => .ctxKey2
  | .xtsCleanup _ => .ctx
  | .xtsIsInit _ => .ctx
  | .cmac _ => .ctxMsg
  | .cmacKey => .msgKey
  | .cmacDevkey => .msg
  | .kdfDerive => .kdf
  | .xtsEnc _ => .ctxXts
  | .xtsDec _ => .ctxXts
  | .daInit _ => .ctx
  | .daCompute _ => .ctxMsg
  | .daVerify _ => .ctxMsg
  | .daComputeEasy => .msg
  | .daVerifyEasy => .msg
  | .meInit _ => .ctxKdf
  | .meEnc _ => .ctxXts
  | .meDec _ => .ctxXts

/-- The operand registers a format reads, in register order; a register not listed is not read (R82). -/
def Format.reads : Format → List OpReg
  | .ctx => []
  | .ctxKey => [.a0]
  | .ctxKey2 => [.a0, .a1]
  | .msg => [.a0, .a1, .a2]
  | .ctxMsg => [.a0, .a1, .a2]
  | .msgKey => [.a0, .a1, .a2, .a3]
  | .kdf => [.a0, .a1, .a2, .a3, .a4, .a5]
  | .ctxKdf => [.a2, .a3, .a4, .a5]
  | .ctxXts => [.a0, .a1, .a2, .a3]

/-- A command's operand registers. -/
def operandRegs (i : Instr) : List OpReg := (formatOf i).reads

/-- `NULL`, the unset pointer (20_memory.md R57). -/
def isNull (p : Word) : Bool := p == 0

/-- A message, label or context pointer that is unset although its length is positive (20_memory.md R57). -/
def nullWithLength (p len : Word) : Bool := p == 0 && len != 0

/-- Read of `n` bytes from the pointer `p`. -/
def readAt (p : Word) (n : Nat) : Access := { addr := p.toNat, len := n, kind := .read }

/-- Write of `n` bytes to the pointer `p`. -/
def writeAt (p : Word) (n : Nat) : Access := { addr := p.toNat, len := n, kind := .write }

/-- The segments of a KDF output: bytes `16i` to at most `16i+15` of `key_len` (42_kdf.md R163). -/
def kdfSegments (out : Word) (keyLen : Nat) : List Access :=
  (List.range ((keyLen + 15) / 16)).map fun i =>
    { addr := out.toNat + 16 * i, len := min 16 (keyLen - 16 * i), kind := .write }

/-- The block accesses of an XTS span: each block is read, then its output written (43_xts.md R185). -/
def xtsAccesses (inp out : Word) (size : Nat) : List Access :=
  (List.range (size / 16)).flatMap fun i =>
    [{ addr := inp.toNat + 16 * i, len := 16, kind := .read }, { addr := out.toNat + 16 * i, len := 16, kind := .write }]

/-- The operand ranges that a command reads, each its address and its length: the "reads" column of 20_memory.md R65. -/
def inRanges (i : Instr) (r : OperandRegs) : List (Nat × Nat) :=
  match i with
  | .bcInitKey _ => [(r.a0.toNat, 16)]
  | .bcInitDevkey _ => []
  | .bcCleanup _ => []
  | .bcIsInit _ => []
  | .xtsInit _ => [(r.a0.toNat, 16), (r.a1.toNat, 16)]
  | .xtsCleanup _ => []
  | .xtsIsInit _ => []
  | .cmac _ => [(r.a0.toNat, r.a1.toNat)]
  | .cmacKey => [(r.a3.toNat, 16), (r.a0.toNat, r.a1.toNat)]
  | .cmacDevkey => [(r.a0.toNat, r.a1.toNat)]
  | .kdfDerive => [(r.a2.toNat, r.a3.toNat), (r.a4.toNat, r.a5.toNat)]
  | .xtsEnc _ => [(r.a0.toNat, r.a1.toNat)]
  | .xtsDec _ => [(r.a0.toNat, r.a1.toNat)]
  | .daInit _ => []
  | .daCompute _ => [(r.a0.toNat, r.a1.toNat)]
  | .daVerify _ => [(r.a0.toNat, r.a1.toNat), (r.a2.toNat, 16)]
  | .daComputeEasy => [(r.a0.toNat, r.a1.toNat)]
  | .daVerifyEasy => [(r.a0.toNat, r.a1.toNat), (r.a2.toNat, 16)]
  | .meInit _ => [(r.a2.toNat, r.a3.toNat), (r.a4.toNat, r.a5.toNat)]
  | .meEnc _ => [(r.a0.toNat, r.a1.toNat)]
  | .meDec _ => [(r.a0.toNat, r.a1.toNat)]

/-- The output range of a command, its address and its length: the "writes" column of 20_memory.md R65. -/
def outRange (i : Instr) (r : OperandRegs) : Option (Nat × Nat) :=
  match i with
  | .bcInitKey _ => none
  | .bcInitDevkey _ => none
  | .bcCleanup _ => none
  | .bcIsInit _ => none
  | .xtsInit _ => none
  | .xtsCleanup _ => none
  | .xtsIsInit _ => none
  | .cmac _ => some (r.a2.toNat, 16)
  | .cmacKey => some (r.a2.toNat, 16)
  | .cmacDevkey => some (r.a2.toNat, 16)
  | .kdfDerive => some (r.a0.toNat, r.a1.toNat)
  | .xtsEnc _ => some (r.a2.toNat, r.a1.toNat)
  | .xtsDec _ => some (r.a2.toNat, r.a1.toNat)
  | .daInit _ => none
  | .daCompute _ => some (r.a2.toNat, 16)
  | .daVerify _ => none
  | .daComputeEasy => some (r.a2.toNat, 16)
  | .daVerifyEasy => none
  | .meInit _ => none
  | .meEnc _ => some (r.a2.toNat, r.a1.toNat)
  | .meDec _ => some (r.a2.toNat, r.a1.toNat)

/-- Every operand range of a command (R65). -/
def operandRanges (i : Instr) (r : OperandRegs) : List (Nat × Nat) := inRanges i r ++ (outRange i r).toList

/-- The accesses that a command makes, in order, when nothing ends it early (20_memory.md R60, R65). Its work makes them one by
one; the list serves the statements. -/
def accessesOf (i : Instr) (r : OperandRegs) : List Access :=
  match i with
  | .bcInitKey _ => [readAt r.a0 16]
  | .bcInitDevkey _ => []
  | .bcCleanup _ => []
  | .bcIsInit _ => []
  | .xtsInit _ => [readAt r.a0 16, readAt r.a1 16]
  | .xtsCleanup _ => []
  | .xtsIsInit _ => []
  | .cmac _ => [readAt r.a0 r.a1.toNat, writeAt r.a2 16]
  | .cmacKey => [readAt r.a3 16, readAt r.a0 r.a1.toNat, writeAt r.a2 16]
  | .cmacDevkey => [readAt r.a0 r.a1.toNat, writeAt r.a2 16]
  | .kdfDerive => readAt r.a2 r.a3.toNat :: readAt r.a4 r.a5.toNat :: kdfSegments r.a0 r.a1.toNat
  | .xtsEnc _ => xtsAccesses r.a0 r.a2 r.a1.toNat
  | .xtsDec _ => xtsAccesses r.a0 r.a2 r.a1.toNat
  | .daInit _ => []
  | .daCompute _ => [readAt r.a0 r.a1.toNat, writeAt r.a2 16]
  | .daVerify _ => [readAt r.a0 r.a1.toNat, readAt r.a2 16]
  | .daComputeEasy => [readAt r.a0 r.a1.toNat, writeAt r.a2 16]
  | .daVerifyEasy => [readAt r.a0 r.a1.toNat, readAt r.a2 16]
  | .meInit _ => [readAt r.a2 r.a3.toNat, readAt r.a4 r.a5.toNat]
  | .meEnc _ => xtsAccesses r.a0 r.a2 r.a1.toNat
  | .meDec _ => xtsAccesses r.a0 r.a2 r.a1.toNat

/-- A command launched with the ranges of its row (R65, R86). -/
def run (i : Instr) (gate : Gate) (work : Proc Unit) (s : State) : Host.Outcome State Fault Refusal :=
  launch gate (operandRanges i s.regs) (outRange i s.regs) work s

/-- An assembler line (30_encoding.md R88): write each named operand register, then the command word. -/
def asmLine (i : Instr) (operands : List Word) : List HostAccess :=
  (List.zipWith (fun r v => .writeReg (.a r) v) (operandRegs i) operands) ++ [.writeReg .cmd (encode i)]

end Sys2Proof.Machine
end

