-- ==== Sys2Proof/Machine/Cmac.lean ====
section
/-! DEFINITION. The CMAC engine (41_cmac.md): the procedures `CMAC_Bytes`, `CMAC_Dev` and the commands CMAC, CMAC_KEY,
CMAC_DEVKEY. -/

namespace Sys2Proof.Machine

/-- `zeroize(K0); zeroize(K1); zeroize(K2)` (R145). -/
def State.wipeSubkeys (s : State) : State := { s with hidden := { s.hidden with k0 := 0, k1 := 0, k2 := 0 } }

/-- The chaining loop (R143): while more than 16 bytes remain, a block is XOR-ed into `X` and `X` encrypted. Answers
the bytes that remain. `fuel` is at least the number of rounds. -/
def cmacChain (P : Params) (c : CtxLoc) : Nat → List Byte → Proc (List Byte)
  | 0, m => pure m
  | fuel + 1, m =>
    if 16 < m.length then do
      let x ← look fun s => s.hidden.x
      let y ← bcEnc P c (x ^^^ blockOfBytes (m.take 16))
      updateHidden fun h => { h with x := y }
      cmacChain P c fuel (m.drop 16)
    else pure m

/-- The last block (R144): a full one takes `K1`, any other is padded and takes `K2`, computed only then (R142). -/
def cmacLast (r : List Byte) : Proc Unit :=
  if r.length = 16 then
    updateHidden fun h => { h with x := h.x ^^^ blockOfBytes r ^^^ h.k1 }
  else do
    updateHidden fun h => { h with k2 := dblBE h.k1 }
    updateHidden fun h => { h with x := h.x ^^^ padBlock r ^^^ h.k2 }

/-- `CMAC_Bytes(c, M)` (R145). -/
def cmacBytes (P : Params) (c : CtxLoc) (m : List Byte) : Proc Block :=
  onExit State.wipeSubkeys do
    let k0 ← bcEnc P c 0
    updateHidden fun h => { h with k0 := k0 }
    updateHidden fun h => { h with k1 := dblBE h.k0 }
    updateHidden fun h => { h with x := 0 }
    let r ← cmacChain P c m.length m
    cmacLast r
    let x ← look fun s => s.hidden.x
    bcEnc P c x

/-- `CMAC_Dev(M)` (R148). -/
def cmacDev (P : Params) (m : List Byte) : Proc Block :=
  onExit (State.bcClean .tbc0) do
    bcLoadDev .tbc0
    cmacBytes P .tbc0 m

/-- The checks of a command on a slot and a message, in the order of R146 (60_exceptions.md R244). -/
def ctxMsgGate (c : Nat) (s : State) : Gate :=
  if Config.nbc ≤ c || isNull s.regs.a2 then .raise .invalidArgs
  else if !s.bcReady c then .raise .ctxNotInitialized
  else if nullWithLength s.regs.a0 s.regs.a1 then .raise .invalidArgs
  else .go

/-- The checks of a command on a message without a slot (R148). -/
def msgGate (s : State) : Gate :=
  if isNull s.regs.a2 then .raise .invalidArgs
  else if nullWithLength s.regs.a0 s.regs.a1 then .raise .invalidArgs
  else .go

/-- The message is read, its tag under the context computed and written (R146). -/
def tagWork (P : Params) (c : CtxLoc) (r : OperandRegs) : Proc Unit := do
  let m ← memRead r.a0.toNat r.a1.toNat
  let tag ← cmacBytes P c m
  memWrite r.a2.toNat (bytesOfBlock tag)

/-- CMAC (R146) under any parameters. -/
def cmacWith (P : Params) (c : Nat) (s : State) : Host.Outcome State Fault Refusal :=
  run (.cmac c) (ctxMsgGate c s) (tagWork P (.bc c) s.regs) s

/-- CMAC (R146). -/
def execCmac (c : Nat) (s : State) : Host.Outcome State Fault Refusal := cmacWith Config.params c s

/-- The checks of CMAC_KEY (R147). -/
def cmacKeyGate (s : State) : Gate :=
  if isNull s.regs.a3 || isNull s.regs.a2 then .raise .invalidArgs
  else if nullWithLength s.regs.a0 s.regs.a1 then .raise .invalidArgs
  else .go

/-- The work of CMAC_KEY (R147); the copy `k` of the key is no state (log 27). -/
def cmacKeyWork (P : Params) (r : OperandRegs) : Proc Unit :=
  onExit (State.bcClean .tbc0) do
    let k ← memRead r.a3.toNat 16
    bcLoad .tbc0 (blockOfBytes k)
    tagWork P .tbc0 r

/-- CMAC_KEY (R147) under any parameters. -/
def cmacKeyWith (P : Params) (s : State) : Host.Outcome State Fault Refusal :=
  run .cmacKey (cmacKeyGate s) (cmacKeyWork P s.regs) s

/-- CMAC_KEY (R147). -/
def execCmacKey (s : State) : Host.Outcome State Fault Refusal := cmacKeyWith Config.params s

/-- The work of CMAC_DEVKEY (R148). -/
def cmacDevkeyWork (P : Params) (r : OperandRegs) : Proc Unit := do
  let m ← memRead r.a0.toNat r.a1.toNat
  let tag ← cmacDev P m
  memWrite r.a2.toNat (bytesOfBlock tag)

/-- CMAC_DEVKEY (R148) under any parameters. -/
def cmacDevkeyWith (P : Params) (s : State) : Host.Outcome State Fault Refusal :=
  run .cmacDevkey (msgGate s) (cmacDevkeyWork P s.regs) s

/-- CMAC_DEVKEY (R148). -/
def execCmacDevkey (s : State) : Host.Outcome State Fault Refusal := cmacDevkeyWith Config.params s

end Sys2Proof.Machine
end

