-- ==== Sys2Proof/Machine/Kdf.lean ====
section
/-! DEFINITION. The key derivation function (42_kdf.md): `KDF_Check`, the input buffer, `KDF_Bytes` and the command
KDF_DERIVE. -/

namespace Sys2Proof.Machine

/-- `KDF_Check` fails (R161); the sum is computed in naturals. -/
def kdfRejects (keyLen labelLen contextLen : Nat) : Bool :=
  decide (keyLen < Config.kdfMin) || decide (Config.kdfMax < keyLen) ||
    decide (Config.kdfBufCap < 1 + labelLen + 1 + contextLen + 4)

/-- The bytes of `KBUF` in use, before the first iteration (R162); the length field is little-endian (D12, log 20). -/
def kdfInput (keyLen : Nat) (label context : List Byte) : List Byte :=
  0x00 :: label ++ 0x00 :: context ++ leBytes 4 (keyLen * 8)

/-- `KBUF[0] <- (KBUF[0] + 1) mod 256` (R164). -/
def bumpCounter (buf : List Byte) : List Byte :=
  match buf with
  | [] => []
  | c :: rest => (c + 1) :: rest

/-- `zeroize(KBUF)` (R165). -/
def State.wipeKbuf (s : State) : State :=
  { s with hidden := { s.hidden with kbuf := zeroBytes Config.kdfBufCap } }

/-- The iteration of R163 from output offset `off` on: each segment is the tag of the whole input, and goes to `sink`
with its offset. `fuel` is at least the number of segments; `inLen` is `B`. -/
def kdfLoop (P : Params) (keyLen inLen : Nat) (sink : Nat → List Byte → Proc Unit) : Nat → Nat → Proc Unit
  | 0, _ => pure ()
  | fuel + 1, off =>
    if off < keyLen then do
      let buf ← look fun s => s.hidden.kbuf.take inLen
      let tag ← cmacDev P buf
      sink off ((bytesOfBlock tag).take (min 16 (keyLen - off)))
      updateHidden fun h => { h with kbuf := bumpCounter h.kbuf }
      kdfLoop P keyLen inLen sink fuel (off + 16)
    else pure ()

/-- The procedure of R165, its output handed to `sink` segment by segment. -/
def kdfRun (P : Params) (keyLen : Nat) (label context : List Byte) (sink : Nat → List Byte → Proc Unit) : Proc Unit :=
  if kdfRejects keyLen label.length context.length then raise .invalidArgs
  else onExit State.wipeKbuf do
    updateHidden fun h => { h with kbuf := bufStore (zeroBytes Config.kdfBufCap) 0 (kdfInput keyLen label context) }
    kdfLoop P keyLen (label.length + context.length + 6) sink ((keyLen + 15) / 16) 0

/-- `KDF_Bytes` with its result placed in `DKEY` (R165; 44_data_auth.md R200, 45_mem_encrypt.md R220). -/
def kdfToDkey (P : Params) (keyLen : Nat) (label context : List Byte) : Proc Unit :=
  kdfRun P keyLen label context fun off bs => updateHidden fun h => { h with dkey := bufStore h.dkey off bs }

/-- `zeroize(DKEY)` (10_state.md R31). -/
def State.wipeDkey (s : State) : State :=
  { s with hidden := { s.hidden with dkey := zeroBytes Config.dkeyBytes } }

/-- The checks of KDF_DERIVE (R166). -/
def kdfDeriveGate (s : State) : Gate :=
  if isNull s.regs.a0 then .raise .invalidArgs
  else if nullWithLength s.regs.a2 s.regs.a3 then .raise .invalidArgs
  else if nullWithLength s.regs.a4 s.regs.a5 then .raise .invalidArgs
  else if kdfRejects s.regs.a1.toNat s.regs.a3.toNat s.regs.a5.toNat then .raise .invalidArgs
  else .go

/-- The work of KDF_DERIVE (R166): each segment is stored as it is produced. -/
def kdfDeriveWork (P : Params) (r : OperandRegs) : Proc Unit := do
  let label ← memRead r.a2.toNat r.a3.toNat
  let context ← memRead r.a4.toNat r.a5.toNat
  kdfRun P r.a1.toNat label context fun off bs => memWrite (r.a0.toNat + off) bs

/-- KDF_DERIVE (R166) under any parameters. -/
def kdfDeriveWith (P : Params) (s : State) : Host.Outcome State Fault Refusal :=
  run .kdfDerive (kdfDeriveGate s) (kdfDeriveWork P s.regs) s

/-- KDF_DERIVE (R166). -/
def execKdfDerive (s : State) : Host.Outcome State Fault Refusal := kdfDeriveWith Config.params s

end Sys2Proof.Machine
end

