-- ==== Sys2Proof/Machine/Lifecycle.lean ====
section
/-! DEFINITION. The context lifecycle commands (40_context_lifecycle.md R119 to R127): BC_INIT_KEY, BC_INIT_DEVKEY,
BC_CLEANUP, BC_IS_INIT, XTS_INIT, XTS_CLEANUP, XTS_IS_INIT. -/

namespace Sys2Proof.Machine

/-- `bcslot(ctx)` (R119). -/
def bcSlotGate (c : Nat) : Gate := if Config.nbc ≤ c then .raise .invalidArgs else .go

/-- `xcslot(ctx)` (R119). -/
def xcSlotGate (j : Nat) : Gate := if Config.nxc ≤ j then .raise .invalidArgs else .go

/-- An init command on a slot that is READY is refused, after the argument checks (R127, 93 U2, log 12). -/
def bcFreshGate (c : Nat) (s : State) : Gate := if s.bcReady c then .refuse .contextAlreadyReady else .go

/-- The same for an XTS slot (R127, log 12). -/
def xcFreshGate (j : Nat) (s : State) : Gate := if s.xcTouched j then .refuse .contextAlreadyReady else .go

/-- The checks of BC_INIT_KEY (R120). -/
def bcInitKeyGate (c : Nat) (s : State) : Gate :=
  (bcSlotGate c).andThen <| (if isNull s.regs.a0 then .raise .invalidArgs else .go : Gate).andThen (bcFreshGate c s)

/-- The work of BC_INIT_KEY (R120). -/
def bcInitKeyWork (c : Nat) (r : OperandRegs) : Proc Unit := do
  let k ← memRead r.a0.toNat 16
  bcLoad (.bc c) (blockOfBytes k)

/-- BC_INIT_KEY (R120). -/
def execBcInitKey (c : Nat) (s : State) : Host.Outcome State Fault Refusal :=
  run (.bcInitKey c) (bcInitKeyGate c s) (bcInitKeyWork c s.regs) s

/-- BC_INIT_DEVKEY (R121). -/
def execBcInitDevkey (c : Nat) (s : State) : Host.Outcome State Fault Refusal :=
  run (.bcInitDevkey c) ((bcSlotGate c).andThen (bcFreshGate c s)) (bcLoadDev (.bc c)) s

/-- BC_CLEANUP (R122). -/
def execBcCleanup (c : Nat) (s : State) : Host.Outcome State Fault Refusal :=
  run (.bcCleanup c) (bcSlotGate c) (update (State.bcClean (.bc c))) s

/-- The work of BC_IS_INIT (R123): a bad index writes RESULT too. -/
def bcIsInitWork (c : Nat) : Proc Unit :=
  if Config.nbc ≤ c then do
    update fun s => s.setResult false
    raise .invalidArgs
  else update fun s => s.setResult (s.bcReady c)

/-- BC_IS_INIT (R123). -/
def execBcIsInit (c : Nat) (s : State) : Host.Outcome State Fault Refusal :=
  run (.bcIsInit c) .go (bcIsInitWork c) s

/-- Both inner contexts cleaned (R125). -/
def State.xcClean (j : Nat) (s : State) : State := (s.bcClean (.xcData j)).bcClean (.xcTweak j)

/-- `XTS_Load(s, k1, k2)` (R124): a raise leaves both inner contexts cleaned. -/
def xtsLoad (j : Nat) (k1 k2 : Block) : Proc Unit :=
  onRaise (State.xcClean j) do
    bcLoad (.xcData j) k1
    bcLoad (.xcTweak j) k2

/-- The checks of XTS_INIT (R124). -/
def xtsInitGate (j : Nat) (s : State) : Gate :=
  (xcSlotGate j).andThen <|
    (if isNull s.regs.a0 || isNull s.regs.a1 then .raise .invalidArgs else .go : Gate).andThen (xcFreshGate j s)

/-- The work of XTS_INIT (R124). -/
def xtsInitWork (j : Nat) (r : OperandRegs) : Proc Unit := do
  let k1 ← memRead r.a0.toNat 16
  let k2 ← memRead r.a1.toNat 16
  xtsLoad j (blockOfBytes k1) (blockOfBytes k2)

/-- XTS_INIT (R124). -/
def execXtsInit (j : Nat) (s : State) : Host.Outcome State Fault Refusal :=
  run (.xtsInit j) (xtsInitGate j s) (xtsInitWork j s.regs) s

/-- XTS_CLEANUP (R125). -/
def execXtsCleanup (j : Nat) (s : State) : Host.Outcome State Fault Refusal :=
  run (.xtsCleanup j) (xcSlotGate j) (update (State.xcClean j)) s

/-- The work of XTS_IS_INIT (R126). -/
def xtsIsInitWork (j : Nat) : Proc Unit :=
  if Config.nxc ≤ j then do
    update fun s => s.setResult false
    raise .invalidArgs
  else update fun s => s.setResult (s.xcReady j)

/-- XTS_IS_INIT (R126). -/
def execXtsIsInit (j : Nat) (s : State) : Host.Outcome State Fault Refusal :=
  run (.xtsIsInit j) .go (xtsIsInitWork j) s

end Sys2Proof.Machine
end

