-- ==== Sys2Proof/Machine/DataAuth.lean ====
section
/-! DEFINITION. The data authentication facade (44_data_auth.md): `DA_Load` and the commands DA_INIT, DA_COMPUTE,
DA_VERIFY, DA_COMPUTE_EASY, DA_VERIFY_EASY. -/

namespace Sys2Proof.Machine

/-- `DA_Load(c)` (R200). -/
def daLoad (P : Params) (c : CtxLoc) : Proc Unit :=
  onExit State.wipeDkey do
    kdfToDkey P 16 Config.daLabel (beBytes 4 P.daContext.toNat)
    let k ← look fun s => s.hidden.dkey.take 16
    bcLoad c (blockOfBytes k)

/-- DA_INIT (R201) under any parameters. -/
def daInitWith (P : Params) (c : Nat) (s : State) : Host.Outcome State Fault Refusal :=
  run (.daInit c) ((bcSlotGate c).andThen (bcFreshGate c s)) (daLoad P (.bc c)) s

/-- DA_INIT (R201). -/
def execDaInit (c : Nat) (s : State) : Host.Outcome State Fault Refusal := daInitWith Config.params c s

/-- DA_COMPUTE (R202) under any parameters: CMAC under another operation code. -/
def daComputeWith (P : Params) (c : Nat) (s : State) : Host.Outcome State Fault Refusal :=
  run (.daCompute c) (ctxMsgGate c s) (tagWork P (.bc c) s.regs) s

/-- DA_COMPUTE (R202). -/
def execDaCompute (c : Nat) (s : State) : Host.Outcome State Fault Refusal := daComputeWith Config.params c s

/-- The tag is recomputed into `TAGBUF` and compared, all 16 bytes, with the supplied one (R203, R206). -/
def verifyWork (P : Params) (c : CtxLoc) (r : OperandRegs) : Proc Unit := do
  let m ← memRead r.a0.toNat r.a1.toNat
  let tag ← cmacBytes P c m
  updateHidden fun h => { h with tagBuf := tag }
  let given ← memRead r.a2.toNat 16
  let own ← look fun s => s.hidden.tagBuf
  if bytesOfBlock own = given then pure () else raise .invalidTag

/-- DA_VERIFY (R203) under any parameters. -/
def daVerifyWith (P : Params) (c : Nat) (s : State) : Host.Outcome State Fault Refusal :=
  run (.daVerify c) (ctxMsgGate c s) (verifyWork P (.bc c) s.regs) s

/-- DA_VERIFY (R203). -/
def execDaVerify (c : Nat) (s : State) : Host.Outcome State Fault Refusal := daVerifyWith Config.params c s

/-- The work of DA_COMPUTE_EASY (R204). -/
def daComputeEasyWork (P : Params) (r : OperandRegs) : Proc Unit :=
  onExit (State.bcClean .tbc1) do
    daLoad P .tbc1
    tagWork P .tbc1 r

/-- DA_COMPUTE_EASY (R204) under any parameters. -/
def daComputeEasyWith (P : Params) (s : State) : Host.Outcome State Fault Refusal :=
  run .daComputeEasy (msgGate s) (daComputeEasyWork P s.regs) s

/-- DA_COMPUTE_EASY (R204). -/
def execDaComputeEasy (s : State) : Host.Outcome State Fault Refusal := daComputeEasyWith Config.params s

/-- The work of DA_VERIFY_EASY (R205). -/
def daVerifyEasyWork (P : Params) (r : OperandRegs) : Proc Unit :=
  onExit (State.bcClean .tbc1) do
    daLoad P .tbc1
    verifyWork P .tbc1 r

/-- DA_VERIFY_EASY (R205) under any parameters. -/
def daVerifyEasyWith (P : Params) (s : State) : Host.Outcome State Fault Refusal :=
  run .daVerifyEasy (msgGate s) (daVerifyEasyWork P s.regs) s

/-- DA_VERIFY_EASY (R205). -/
def execDaVerifyEasy (s : State) : Host.Outcome State Fault Refusal := daVerifyEasyWith Config.params s

end Sys2Proof.Machine
end

