-- ==== Sys2Proof/Machine/Xts.lean ====
section
/-! DEFINITION. The AES-XTS engine (43_xts.md): the tweak schedule, `XTS_Check`, `XTS_Run` and the commands XTS_ENC,
XTS_DEC. -/

namespace Sys2Proof.Machine

/-- The direction of an XTS run (R185). -/
inductive Direction where
  | enc
  | dec
deriving DecidableEq, Repr

/-- `x` doubled `n` times, little-endian convention (R183). -/
def dblLEn : Nat → Block → Block
  | 0, x => x
  | n + 1, x => dblLEn n (dblLE x)

/-- `Seed` of the unit of address `a`, advanced to the block of `a`, placed in `T` (R183, R185). -/
def xtsSeed (P : Params) (j a : Nat) : Proc Unit := do
  let t ← bcEnc P (.xcTweak j) (seedInput (a / Config.du))
  updateHidden fun h => { h with t := dblLEn (a % Config.du / 16) t }

/-- The cipher call on a data block: the only difference between the directions (R185). -/
def xtsCipher (P : Params) (j : Nat) (d : Direction) (x : Block) : Proc Block :=
  match d with
  | .enc => bcEnc P (.xcData j) x
  | .dec => bcDec P (.xcData j) x

/-- The tweak of block number `i` at address `a`: computed anew at the first block and at a data-unit boundary (R185). -/
def xtsTweak (P : Params) (j a i : Nat) : Proc Unit := if i = 0 ∨ a % Config.du = 0 then xtsSeed P j a else pure ()

/-- One block of the loop of R185, block number `i`. -/
def xtsBlock (P : Params) (j : Nat) (d : Direction) (address inp out i : Nat) : Proc Unit := do
  xtsTweak P j (address + 16 * i) i
  let x ← memRead (inp + 16 * i) 16
  let t ← look fun s => s.hidden.t
  let y ← xtsCipher P j d (blockOfBytes x ^^^ t)
  memWrite (out + 16 * i) (bytesOfBlock (y ^^^ t))
  updateHidden fun h => { h with t := dblLE h.t }

/-- The block loop (R185): `n` blocks from block number `i` on. -/
def xtsLoop (P : Params) (j : Nat) (d : Direction) (address inp out : Nat) : Nat → Nat → Proc Unit
  | 0, _ => pure ()
  | n + 1, i => do
    xtsBlock P j d address inp out i
    xtsLoop P j d address inp out n (i + 1)

/-- `XTS_Run`, then `zeroize(T)` (R185, R187). -/
def xtsWork (P : Params) (j : Nat) (d : Direction) (r : OperandRegs) : Proc Unit := do
  xtsLoop P j d r.a3.toNat r.a0.toNat r.a2.toNat (r.a1.toNat / 16) 0
  updateHidden fun h => { h with t := 0 }

/-- `XTS_Check` (R184). -/
def xtsCheck (j : Nat) (s : State) : Gate :=
  if Config.nxc ≤ j then .raise .invalidArgs
  else if isNull s.regs.a0 || isNull s.regs.a2 then .raise .invalidArgs
  else if s.regs.a1 == 0 then .raise .invalidArgs
  else if s.regs.a3.toNat % 16 != 0 || s.regs.a1.toNat % 16 != 0 then .raise .invalidArgs
  else if !s.xcReady j then .raise .ctxNotInitialized
  else .go

/-- Two ranges of `n` bytes overlap although they are not the same (20_memory.md R59). -/
def partlyOverlap (inp out n : Nat) : Bool :=
  decide (inp ≠ out) && decide (inp < out + n) && decide (out < inp + n)

/-- The two conditions that are outside the document: refusals, no statuses (R184, 93 U1, U3, log 13). -/
def xtsDomain (s : State) : Gate :=
  if Config.space < s.regs.a3.toNat + s.regs.a1.toNat then .refuse .spanPastTop
  else if partlyOverlap s.regs.a0.toNat s.regs.a2.toNat s.regs.a1.toNat then .refuse .partialOverlap
  else .go

/-- The checks of an XTS command. -/
def xtsGate (j : Nat) (s : State) : Gate := (xtsCheck j s).andThen (xtsDomain s)

/-- XTS_ENC (R187) under any parameters. -/
def xtsEncWith (P : Params) (j : Nat) (s : State) : Host.Outcome State Fault Refusal :=
  run (.xtsEnc j) (xtsGate j s) (xtsWork P j .enc s.regs) s

/-- XTS_ENC (R187). -/
def execXtsEnc (j : Nat) (s : State) : Host.Outcome State Fault Refusal := xtsEncWith Config.params j s

/-- XTS_DEC (R188) under any parameters. -/
def xtsDecWith (P : Params) (j : Nat) (s : State) : Host.Outcome State Fault Refusal :=
  run (.xtsDec j) (xtsGate j s) (xtsWork P j .dec s.regs) s

/-- XTS_DEC (R188). -/
def execXtsDec (j : Nat) (s : State) : Host.Outcome State Fault Refusal := xtsDecWith Config.params j s

end Sys2Proof.Machine
end

