-- ==== Sys2Proof/Machine/MemEncrypt.lean ====
section
/-! DEFINITION. The memory encryption facade (45_mem_encrypt.md): `ME_Load` and the commands ME_INIT, ME_ENC, ME_DEC. -/

namespace Sys2Proof.Machine

/-- `ME_Load(s, label, context)` (R220): `DKEY[0..15]` is the data key, `DKEY[16..31]` the tweak key. -/
def meLoad (P : Params) (j : Nat) (label context : List Byte) : Proc Unit :=
  onExit State.wipeDkey do
    kdfToDkey P 32 label context
    let k ← look fun s => s.hidden.dkey
    xtsLoad j (blockOfBytes (k.take 16)) (blockOfBytes ((k.drop 16).take 16))

/-- The checks of ME_INIT (R221). -/
def meInitGate (j : Nat) (s : State) : Gate :=
  (xcSlotGate j).andThen <|
    (if nullWithLength s.regs.a2 s.regs.a3 then .raise .invalidArgs
     else if nullWithLength s.regs.a4 s.regs.a5 then .raise .invalidArgs
     else if kdfRejects 32 s.regs.a3.toNat s.regs.a5.toNat then .raise .invalidArgs
     else .go : Gate).andThen (xcFreshGate j s)

/-- The work of ME_INIT (R221). -/
def meInitWork (P : Params) (j : Nat) (r : OperandRegs) : Proc Unit := do
  let label ← memRead r.a2.toNat r.a3.toNat
  let context ← memRead r.a4.toNat r.a5.toNat
  meLoad P j label context

/-- ME_INIT (R221) under any parameters. -/
def meInitWith (P : Params) (j : Nat) (s : State) : Host.Outcome State Fault Refusal :=
  run (.meInit j) (meInitGate j s) (meInitWork P j s.regs) s

/-- ME_INIT (R221). -/
def execMeInit (j : Nat) (s : State) : Host.Outcome State Fault Refusal := meInitWith Config.params j s

/-- ME_ENC (R222) under any parameters: XTS_ENC under another operation code. -/
def meEncWith (P : Params) (j : Nat) (s : State) : Host.Outcome State Fault Refusal :=
  run (.meEnc j) (xtsGate j s) (xtsWork P j .enc s.regs) s

/-- ME_ENC (R222). -/
def execMeEnc (j : Nat) (s : State) : Host.Outcome State Fault Refusal := meEncWith Config.params j s

/-- ME_DEC (R223) under any parameters: XTS_DEC under another operation code. -/
def meDecWith (P : Params) (j : Nat) (s : State) : Host.Outcome State Fault Refusal :=
  run (.meDec j) (xtsGate j s) (xtsWork P j .dec s.regs) s

/-- ME_DEC (R223). -/
def execMeDec (j : Nat) (s : State) : Host.Outcome State Fault Refusal := meDecWith Config.params j s

end Sys2Proof.Machine
end

