-- ==== Sys2Proof/Machine/Dispatch.lean ====
section
/-! DEFINITION. exec: one arm per command, each a direct call of its meaning. -/

namespace Sys2Proof.Machine

def exec (i : Instr) (s : State) : Host.Outcome State Fault Refusal :=
  match i with
  | .bcInitKey ctx => Sys2Proof.Machine.execBcInitKey ctx s
  | .bcInitDevkey ctx => Sys2Proof.Machine.execBcInitDevkey ctx s
  | .bcCleanup ctx => Sys2Proof.Machine.execBcCleanup ctx s
  | .bcIsInit ctx => Sys2Proof.Machine.execBcIsInit ctx s
  | .xtsInit ctx => Sys2Proof.Machine.execXtsInit ctx s
  | .xtsCleanup ctx => Sys2Proof.Machine.execXtsCleanup ctx s
  | .xtsIsInit ctx => Sys2Proof.Machine.execXtsIsInit ctx s
  | .cmac ctx => Sys2Proof.Machine.execCmac ctx s
  | .cmacKey => Sys2Proof.Machine.execCmacKey s
  | .cmacDevkey => Sys2Proof.Machine.execCmacDevkey s
  | .kdfDerive => Sys2Proof.Machine.execKdfDerive s
  | .xtsEnc ctx => Sys2Proof.Machine.execXtsEnc ctx s
  | .xtsDec ctx => Sys2Proof.Machine.execXtsDec ctx s
  | .daInit ctx => Sys2Proof.Machine.execDaInit ctx s
  | .daCompute ctx => Sys2Proof.Machine.execDaCompute ctx s
  | .daVerify ctx => Sys2Proof.Machine.execDaVerify ctx s
  | .daComputeEasy => Sys2Proof.Machine.execDaComputeEasy s
  | .daVerifyEasy => Sys2Proof.Machine.execDaVerifyEasy s
  | .meInit ctx => Sys2Proof.Machine.execMeInit ctx s
  | .meEnc ctx => Sys2Proof.Machine.execMeEnc ctx s
  | .meDec ctx => Sys2Proof.Machine.execMeDec ctx s

end Sys2Proof.Machine
end

