-- ==== Sys2Proof/Machine/Bus.lean ====
section
/-! DEFINITION. What one access of the host does (10_state.md R20 to R24, R34; 30_encoding.md R86; 60_exceptions.md
R252; 70_reset_and_hazards.md R270, R271). -/

namespace Sys2Proof.Machine

/-- What a host read of a register returns: `CMD` reads as zero (10_state.md R21, R34). -/
def State.hostRead (s : State) : HostReg → Word
  | .a r => s.regs.get r
  | .cmd => 0
  | .status => s.status
  | .result => s.result

/-- A write of `w` to `CMD` (30_encoding.md R86): the command runs to its end; an illegal word writes
`STATUS <- INVALID_ARGS` and nothing else (R85). -/
def launchWord (w : Word) (s : State) : Host.Outcome State Fault Refusal :=
  match decode w with
  | .ok i => exec i s
  | .error _ => .next (s.exit .invalidArgs)

/-- A host write of a register: the operand registers take it, `CMD` launches a command, `STATUS` and `RESULT` ignore
it (10_state.md R20 to R24). -/
def hostWrite (r : HostReg) (v : Word) (s : State) : Host.Outcome State Fault Refusal :=
  match r with
  | .a n => .next { s with regs := s.regs.set n v }
  | .cmd => launchWord v s
  | .status => .next s
  | .result => .next s

/-- The output range of a command that got past its checks: it ended with OK or FAILURE. -/
def touchedRange (i : Instr) (r : OperandRegs) (status : Word) : Option (Nat × Nat) :=
  if status = Status.ok.word ∨ status = Status.failure.word then outRange i r else none

/-- A reset that arrives while the command of `w` runs (70_reset_and_hazards.md R271, log 17): the command's output
range holds unspecified values, no status is left, and the rest is as after any reset. -/
def abortByReset (w : Word) (s : State) : Host.Outcome State Fault Refusal :=
  match decode w with
  | .error _ => .next s.resetEvent
  | .ok i =>
    match exec i s with
    | .next t => .next (t.scribble (touchedRange i s.regs t.status)).resetEvent
    | .fault f => .fault f
    | .refused r => .refused r

/-- One host access. -/
def hostAccess (h : HostAccess) (s : State) : Host.Outcome State Fault Refusal :=
  match h with
  | .readReg r => .next { s with busData := s.hostRead r }
  | .writeReg r v => hostWrite r v s
  | .readMem a => .next { s with busData := (s.mem.get a.toNat).setWidth 32 }
  | .writeMem a v => .next { s with mem := s.mem.set a.toNat v }
  | .reset => .next s.resetEvent
  | .cmdReset w => abortByReset w s

end Sys2Proof.Machine
end

