-- ==== Sys2Proof/Machine/Step.lean ====
section
/-! DEFINITION. One step of the machine: the host's next access, a command run to its end where that is a write of
`CMD`; with no access to come the core is idle and holds its state (60_exceptions.md R241, R253; log 1, log 2). -/

namespace Sys2Proof.Machine

/-- One step. -/
def step (s : State) : Host.Outcome State Fault Refusal :=
  match s.bus with
  | [] => .next s
  | h :: rest => hostAccess h { s with bus := rest }

/-- The state in which the host's next access is the write of the word to `CMD`: the core fetches no instructions, a
command comes from the host (10_state.md R23; log 1). -/
def State.withFetchWord (s : State) (nbits w : Nat) : State :=
  { s with bus := .writeReg .cmd (BitVec.ofNat 32 (w % 2 ^ nbits)) :: s.bus }

end Sys2Proof.Machine
end

