-- ==== Sys2Proof/Safety.lean ====
section
/-! DEFINITION. The terms in which claims are stated: the procedures of the spec as pure functions of the key and
the bytes, what a command needs to complete, the frames, and the invariant between commands. -/

namespace Sys2Proof

/-! ## The algorithms as functions -/

namespace Spec

open Machine

/-- The `i`-th 16 bytes of a byte string, as a block. -/
def blockAt (m : List Byte) (i : Nat) : Block := blockOfBytes ((m.drop (16 * i)).take 16)

/-- `K1` under the cipher `E` of one key (41_cmac.md R142). -/
def subkey1 (E : Block → Block) : Block := dblBE (E 0)

/-- `K2` (41_cmac.md R142). -/
def subkey2 (E : Block → Block) : Block := dblBE (subkey1 E)

/-- How many blocks are chained before the last one (41_cmac.md R143). -/
def chained (len : Nat) : Nat := (len - 1) / 16

/-- The accumulator after the first `n` blocks (41_cmac.md R143). -/
def accumulator (E : Block → Block) (m : List Byte) : Nat → Block
  | 0 => 0
  | n + 1 => E (accumulator E m n ^^^ blockAt m n)

/-- What the last block contributes: XOR-ed with `K1` when it is full, padded and XOR-ed with `K2` otherwise
(41_cmac.md R144). -/
def lastBlock (E : Block → Block) (r : List Byte) : Block :=
  if r.length = 16 then blockOfBytes r ^^^ subkey1 E else padBlock r ^^^ subkey2 E

/-- The tag of a message (41_cmac.md R140 to R145). -/
def cmacTag (E : Block → Block) (m : List Byte) : Block :=
  E (accumulator E m (chained m.length) ^^^ lastBlock E (m.drop (16 * chained m.length)))

/-- The KDF input of segment `i`: the counter byte is `i` (42_kdf.md R162 to R164). -/
def kdfMessage (keyLen : Nat) (label context : List Byte) (i : Nat) : List Byte :=
  BitVec.ofNat 8 i :: label ++ 0x00 :: context ++ leBytes 4 (keyLen * 8)

/-- The derived bytes (42_kdf.md R160 to R165); `E` is the cipher under the device-unique key. -/
def kdfBytes (E : Block → Block) (keyLen : Nat) (label context : List Byte) : List Byte :=
  ((List.range ((keyLen + 15) / 16)).flatMap fun i =>
    bytesOfBlock (cmacTag E (kdfMessage keyLen label context i))).take keyLen

/-- The tweak of the block at address `a` under the cipher `E2` of the tweak key (43_xts.md R183). -/
def tweak (E2 : Block → Block) (a : Nat) : Block :=
  dblLEn (a % Config.du / 16) (E2 (seedInput (a / Config.du)))

/-- The output of an XTS run: each block XOR-ed with its tweak before and after the cipher call `F` (43_xts.md R185). -/
def xtsBytes (F E2 : Block → Block) (address : Nat) (input : List Byte) : List Byte :=
  (List.range (input.length / 16)).flatMap fun i =>
    bytesOfBlock (F (blockAt input i ^^^ tweak E2 (address + 16 * i)) ^^^ tweak E2 (address + 16 * i))

end Spec

namespace Machine

/-! ## What a command needs to complete -/

/-- Every operand range of the command lies inside the address space; an empty one needs nothing (20_memory.md R52, R65). -/
def State.InSpace (s : State) (i : Instr) : Prop := ∀ q ∈ operandRanges i s.regs, q.2 = 0 ∨ q.1 + q.2 ≤ Config.space

/-- The platform admits every access of the list (20_memory.md R58); an access of length zero needs nothing (R52). -/
def State.AdmitsAll (s : State) (l : List Access) : Prop := ∀ a ∈ l, a.len = 0 ∨ a ∉ s.denied

/-- Every access of the command lies inside the address space and the platform admits it (20_memory.md R58). -/
def State.Admits (s : State) (i : Instr) : Prop := s.InSpace i ∧ s.AdmitsAll (accessesOf i s.regs)

/-- None of the next `n` primitive calls fails: the state already holds their answers (40_context_lifecycle.md R112). -/
def State.NoFault (s : State) (n : Nat) : Prop := s.primFaults.take n = List.replicate n false

/-- The number of primitive calls of a CMAC computation on `len` bytes (41_cmac.md R145, 70_reset_and_hazards.md R282). -/
def cmacCalls (len : Nat) : Nat := 1 + max 1 ((len + 15) / 16)

/-- The number of primitive calls of a derivation: per segment one load and a CMAC over the input (R282). -/
def kdfCalls (keyLen labelLen contextLen : Nat) : Nat :=
  (keyLen + 15) / 16 * (1 + cmacCalls (labelLen + contextLen + 6))

/-- `n` consecutive units of `DU` bytes that blocks from `address` on touch; seeds encrypted by an XTS run (R282). -/
def unitsTouched (address size : Nat) : Nat := (address + size - 1) / Config.du - address / Config.du + 1

/-- The number of primitive calls of a command when nothing fails (70_reset_and_hazards.md R282). -/
def callsOf (i : Instr) (r : OperandRegs) : Nat :=
  match i with
  | .bcInitKey _ => 1
  | .bcInitDevkey _ => 1
  | .bcCleanup _ => 0
  | .bcIsInit _ => 0
  | .xtsInit _ => 2
  | .xtsCleanup _ => 0
  | .xtsIsInit _ => 0
  | .cmac _ => cmacCalls r.a1.toNat
  | .cmacKey => 1 + cmacCalls r.a1.toNat
  | .cmacDevkey => 1 + cmacCalls r.a1.toNat
  | .kdfDerive => kdfCalls r.a1.toNat r.a3.toNat r.a5.toNat
  | .xtsEnc _ => unitsTouched r.a3.toNat r.a1.toNat + r.a1.toNat / 16
  | .xtsDec _ => unitsTouched r.a3.toNat r.a1.toNat + r.a1.toNat / 16
  | .daInit _ => kdfCalls 16 27 4 + 1
  | .daCompute _ => cmacCalls r.a1.toNat
  | .daVerify _ => cmacCalls r.a1.toNat
  | .daComputeEasy => kdfCalls 16 27 4 + 1 + cmacCalls r.a1.toNat
  | .daVerifyEasy => kdfCalls 16 27 4 + 1 + cmacCalls r.a1.toNat
  | .meInit _ => kdfCalls 32 r.a3.toNat r.a5.toNat + 2
  | .meEnc _ => unitsTouched r.a3.toNat r.a1.toNat + r.a1.toNat / 16
  | .meDec _ => unitsTouched r.a3.toNat r.a1.toNat + r.a1.toNat / 16

/-- The message operand of a command, as memory holds it: `MemRead(A0, A1)`. -/
def State.message (s : State) : List Byte := s.mem.read s.regs.a0.toNat s.regs.a1.toNat

/-- `MemRead(A2, A3)`. -/
def State.label (s : State) : List Byte := s.mem.read s.regs.a2.toNat s.regs.a3.toNat

/-- `MemRead(A4, A5)`. -/
def State.context (s : State) : List Byte := s.mem.read s.regs.a4.toNat s.regs.a5.toNat

/-- `E` under the key of the context at a place (40_context_lifecycle.md R111). -/
def State.encUnder (s : State) (l : CtxLoc) : Block → Block := Config.params.enc (s.keyOf (s.ctxAt l))

/-- `D` under the key of the context at a place. -/
def State.decUnder (s : State) (l : CtxLoc) : Block → Block := Config.params.dec (s.keyOf (s.ctxAt l))

/-- `E` under the device-unique key. -/
def State.encDev (s : State) : Block → Block := Config.params.enc s.devKey

/-- The data authentication key of the device (44_data_auth.md R200). -/
def State.daKey (s : State) : Block :=
  blockOfBytes (Spec.kdfBytes s.encDev 16 Config.daLabel (beBytes 4 Config.params.daContext.toNat))

/-- The span does not pass `2^XLEN`, and the buffers are the same or disjoint (93 U3, U1; 20_memory.md R59). -/
def State.XtsDefined (s : State) : Prop :=
  s.regs.a3.toNat + s.regs.a1.toNat ≤ Config.space ∧
  (s.regs.a0 = s.regs.a2 ∨ s.regs.a0.toNat + s.regs.a1.toNat ≤ s.regs.a2.toNat ∨
    s.regs.a2.toNat + s.regs.a1.toNat ≤ s.regs.a0.toNat)

/-- The argument checks of the XTS commands pass (43_xts.md R184), the span and the buffers among them. -/
def State.XtsArgs (s : State) : Prop :=
  s.regs.a0 ≠ 0 ∧ s.regs.a2 ≠ 0 ∧ s.regs.a1 ≠ 0 ∧ s.regs.a3.toNat % 16 = 0 ∧ s.regs.a1.toNat % 16 = 0 ∧ s.XtsDefined

/-- A message operand is given: the pointer may be unset only if the length is 0 (20_memory.md R57). -/
def Given (p len : Word) : Prop := len = 0 ∨ p ≠ 0

/-- The argument and readiness checks of a command that calls the primitive pass (60_exceptions.md R244), and an init command's
slot is UNINIT (40_context_lifecycle.md R127). No command that makes no primitive call passes. -/
def State.Passes (s : State) (i : Instr) : Prop :=
  match i with
  | .bcInitKey c => c < Config.nbc ∧ s.regs.a0 ≠ 0 ∧ (s.ctxAt (.bc c)).state = .uninit
  | .bcInitDevkey c => c < Config.nbc ∧ (s.ctxAt (.bc c)).state = .uninit
  | .bcCleanup _ => False
  | .bcIsInit _ => False
  | .xtsInit j => j < Config.nxc ∧ s.regs.a0 ≠ 0 ∧ s.regs.a1 ≠ 0 ∧
      (s.ctxAt (.xcData j)).state = .uninit ∧ (s.ctxAt (.xcTweak j)).state = .uninit
  | .xtsCleanup _ => False
  | .xtsIsInit _ => False
  | .cmac c => c < Config.nbc ∧ s.regs.a2 ≠ 0 ∧ (s.ctxAt (.bc c)).state = .ready ∧ Given s.regs.a0 s.regs.a1
  | .cmacKey => s.regs.a3 ≠ 0 ∧ s.regs.a2 ≠ 0 ∧ Given s.regs.a0 s.regs.a1
  | .cmacDevkey => s.regs.a2 ≠ 0 ∧ Given s.regs.a0 s.regs.a1
  | .kdfDerive => s.regs.a0 ≠ 0 ∧ Given s.regs.a2 s.regs.a3 ∧ Given s.regs.a4 s.regs.a5 ∧
      16 ≤ s.regs.a1.toNat ∧ s.regs.a1.toNat ≤ 4096 ∧ s.regs.a3.toNat + s.regs.a5.toNat ≤ 250
  | .xtsEnc j => j < Config.nxc ∧ s.XtsArgs ∧ (s.ctxAt (.xcData j)).state = .ready ∧ (s.ctxAt (.xcTweak j)).state = .ready
  | .xtsDec j => j < Config.nxc ∧ s.XtsArgs ∧ (s.ctxAt (.xcData j)).state = .ready ∧ (s.ctxAt (.xcTweak j)).state = .ready
  | .daInit c => c < Config.nbc ∧ (s.ctxAt (.bc c)).state = .uninit
  | .daCompute c => c < Config.nbc ∧ s.regs.a2 ≠ 0 ∧ (s.ctxAt (.bc c)).state = .ready ∧ Given s.regs.a0 s.regs.a1
  | .daVerify c => c < Config.nbc ∧ s.regs.a2 ≠ 0 ∧ (s.ctxAt (.bc c)).state = .ready ∧ Given s.regs.a0 s.regs.a1
  | .daComputeEasy => s.regs.a2 ≠ 0 ∧ Given s.regs.a0 s.regs.a1
  | .daVerifyEasy => s.regs.a2 ≠ 0 ∧ Given s.regs.a0 s.regs.a1
  | .meInit j => j < Config.nxc ∧ Given s.regs.a2 s.regs.a3 ∧ Given s.regs.a4 s.regs.a5 ∧
      s.regs.a3.toNat + s.regs.a5.toNat ≤ 250 ∧
      (s.ctxAt (.xcData j)).state = .uninit ∧ (s.ctxAt (.xcTweak j)).state = .uninit
  | .meEnc j => j < Config.nxc ∧ s.XtsArgs ∧ (s.ctxAt (.xcData j)).state = .ready ∧ (s.ctxAt (.xcTweak j)).state = .ready
  | .meDec j => j < Config.nxc ∧ s.XtsArgs ∧ (s.ctxAt (.xcData j)).state = .ready ∧ (s.ctxAt (.xcTweak j)).state = .ready

/-- What a command does that can end it early: a memory access, which the platform may not admit (20_memory.md R58), or a
primitive call, which may fail (40_context_lifecycle.md R112). -/
inductive Event where
  | access (a : Access)
  | call
deriving DecidableEq, Repr

/-- A row of one access. -/
def asked (a : Access) : List Event := [.access a]

/-- `n` primitive calls in a row. -/
def calls (n : Nat) : List Event := List.replicate n .call

/-- The events of one block of an XTS run: a seed encryption where the tweak is computed anew, the read, the cipher call, the
write (43_xts.md R185). -/
def xtsBlockEvents (address inp out i : Nat) : List Event :=
  calls (if i = 0 ∨ (address + 16 * i) % Config.du = 0 then 1 else 0) ++ asked ⟨inp + 16 * i, 16, .read⟩ ++ calls 1 ++
    asked ⟨out + 16 * i, 16, .write⟩

/-- The events of an XTS run, block by block. -/
def xtsEvents (r : OperandRegs) : List Event :=
  (List.range (r.a1.toNat / 16)).flatMap fun i => xtsBlockEvents r.a3.toNat r.a0.toNat r.a2.toNat i

/-- The accesses and the primitive calls of a command, in the order in which its pseudocode makes them when nothing ends it
early (20_memory.md R60; the command rules of files 40 to 45). -/
def eventsOf (i : Instr) (r : OperandRegs) : List Event :=
  match i with
  | .bcInitKey _ => asked (readAt r.a0 16) ++ calls 1
  | .bcInitDevkey _ => calls 1
  | .bcCleanup _ => []
  | .bcIsInit _ => []
  | .xtsInit _ => asked (readAt r.a0 16) ++ asked (readAt r.a1 16) ++ calls 2
  | .xtsCleanup _ => []
  | .xtsIsInit _ => []
  | .cmac _ => asked (readAt r.a0 r.a1.toNat) ++ calls (cmacCalls r.a1.toNat) ++ asked (writeAt r.a2 16)
  | .cmacKey => asked (readAt r.a3 16) ++ calls 1 ++ asked (readAt r.a0 r.a1.toNat) ++ calls (cmacCalls r.a1.toNat) ++
      asked (writeAt r.a2 16)
  | .cmacDevkey => asked (readAt r.a0 r.a1.toNat) ++ calls (1 + cmacCalls r.a1.toNat) ++ asked (writeAt r.a2 16)
  | .kdfDerive => asked (readAt r.a2 r.a3.toNat) ++ asked (readAt r.a4 r.a5.toNat) ++
      (kdfSegments r.a0 r.a1.toNat).flatMap fun a => calls (1 + cmacCalls (r.a3.toNat + r.a5.toNat + 6)) ++ asked a
  | .xtsEnc _ => xtsEvents r
  | .xtsDec _ => xtsEvents r
  | .daInit _ => calls (kdfCalls 16 27 4 + 1)
  | .daCompute _ => asked (readAt r.a0 r.a1.toNat) ++ calls (cmacCalls r.a1.toNat) ++ asked (writeAt r.a2 16)
  | .daVerify _ => asked (readAt r.a0 r.a1.toNat) ++ calls (cmacCalls r.a1.toNat) ++ asked (readAt r.a2 16)
  | .daComputeEasy => calls (kdfCalls 16 27 4 + 1) ++ asked (readAt r.a0 r.a1.toNat) ++ calls (cmacCalls r.a1.toNat) ++
      asked (writeAt r.a2 16)
  | .daVerifyEasy => calls (kdfCalls 16 27 4 + 1) ++ asked (readAt r.a0 r.a1.toNat) ++ calls (cmacCalls r.a1.toNat) ++
      asked (readAt r.a2 16)
  | .meInit _ => asked (readAt r.a2 r.a3.toNat) ++ asked (readAt r.a4 r.a5.toNat) ++ calls (kdfCalls 32 r.a3.toNat r.a5.toNat + 2)
  | .meEnc _ => xtsEvents r
  | .meDec _ => xtsEvents r

/-- How a row of events comes out: all happened, a call failed, or an access was not admitted. The first two carry the answers
of `PrimFault` left over and the number of calls made. -/
inductive Verdict where
  | ended (faults : List Bool) (made : Nat)
  | failed (faults : List Bool) (made : Nat)
  | refused
deriving DecidableEq, Repr

/-- The answer of `PrimFault` to the call with number `made` (R112, log 9). -/
def faultAnswer (faults : List Bool) (made : Nat) : Bool :=
  match faults with
  | b :: _ => b
  | [] => Config.primFault made

/-- The first event of the row that ends it decides (60_exceptions.md R244, 20_memory.md R58). -/
def verdict (denied : List Access) : List Event → List Bool → Nat → Verdict
  | [], f, n => .ended f n
  | .access a :: l, f, n => if a.len ≠ 0 ∧ a ∈ denied then .refused else verdict denied l f n
  | .call :: l, f, n => if faultAnswer f n = true then .failed f.tail (n + 1) else verdict denied l f.tail (n + 1)

/-! ## Frames -/

/-- What no command changes: the operand registers, `DEVKEY`, the host's queue and data, the platform's admission. -/
def SameOutside (s t : State) : Prop :=
  t.regs = s.regs ∧ t.devKey = s.devKey ∧ t.bus = s.bus ∧ t.busData = s.busData ∧ t.denied = s.denied

/-- Every context slot is unchanged. -/
def SameSlots (s t : State) : Prop := t.bc = s.bc ∧ t.xc = s.xc

/-- Every byte outside the `n` bytes at `a` reads as before. -/
def SameBut (s t : State) (a n : Nat) : Prop := ∀ p, p < a ∨ a + n ≤ p → t.mem.get p = s.mem.get p

/-- The frame of a command that writes block cipher slots only (and STATUS, hidden state). -/
def OnlyBc (s t : State) : Prop := t.xc = s.xc ∧ t.mem = s.mem ∧ t.result = s.result ∧ SameOutside s t

/-- The frame of a command that writes XTS slots only (and STATUS, hidden state). -/
def OnlyXc (s t : State) : Prop := t.bc = s.bc ∧ t.mem = s.mem ∧ t.result = s.result ∧ SameOutside s t

/-- The frame of a command that writes the `n` bytes at `a` only (and STATUS, hidden state). -/
def OnlyMem (s t : State) (a n : Nat) : Prop := SameBut s t a n ∧ SameSlots s t ∧ t.result = s.result ∧ SameOutside s t

/-- The frame of a command that writes STATUS only (and hidden state). -/
def OnlyStatus (s t : State) : Prop := t.mem = s.mem ∧ SameSlots s t ∧ t.result = s.result ∧ SameOutside s t

/-- The hidden state a CMAC computation leaves: an accumulator, the subkeys wiped (41_cmac.md R145). -/
def Hidden.afterCmac (h : Hidden) (x : Block) : Hidden := { h with x := x, k0 := 0, k1 := 0, k2 := 0 }

/-- The hidden state of a CMAC under a transient context in `TBC0`: cleaned too (41_cmac.md R147, R148). -/
def Hidden.afterTransient (h : Hidden) (x : Block) : Hidden := { h.afterCmac x with tbc0 := .clear }

/-- The hidden state a derivation leaves: `KBUF` wiped too (42_kdf.md R165). -/
def Hidden.afterKdf (h : Hidden) (x : Block) : Hidden :=
  { h.afterTransient x with kbuf := zeroBytes Config.kdfBufCap }

/-- The hidden state of a derivation into `DKEY`: wiped too (44_data_auth.md R200, 45_mem_encrypt.md R220). -/
def Hidden.afterDerive (h : Hidden) (x : Block) : Hidden := { h.afterKdf x with dkey := zeroBytes Config.dkeyBytes }

/-- The hidden state of the stateless facade commands: `TBC1` cleaned too (44_data_auth.md R204, R205). -/
def Hidden.afterEasy (h : Hidden) (x : Block) : Hidden := { h.afterDerive x with tbc1 := .clear }

/-- Transient contexts are UNINIT and every buffer that must be zeroized is zero (10_state.md R31). -/
def Hidden.Quiet (h : Hidden) : Prop :=
  h.tbc0 = .clear ∧ h.tbc1 = .clear ∧ h.k0 = 0 ∧ h.k1 = 0 ∧ h.k2 = 0 ∧
  h.kbuf = zeroBytes Config.kdfBufCap ∧ h.dkey = zeroBytes Config.dkeyBytes

/-- A context as the commands leave one: cleaned, or ready with a loaded key, or ready under the device key with a zero
key field (10_state.md R26, 40_context_lifecycle.md R115 to R117). -/
def BlockCtx.Legal (c : BlockCtx) : Prop :=
  c = .clear ∨ (c.state = .ready ∧ (c.ksel = .loaded ∨ c.key = 0))

/-! ## The invariant between commands -/

/-- The memory is canonical; no transient state survives (10_state.md R31); the contexts are legal and the two inner
contexts of an XTS slot agree (R26, R28); `STATUS` holds a code of the closed enum (R22); `RESULT` is a bit (R24). -/
def State.Inv (s : State) : Prop :=
  s.mem.wf = true ∧ s.hidden.Quiet ∧
  (∀ c ∈ s.bc.toList, c.Legal) ∧ (∀ c ∈ s.xc.toList, c.data.Legal ∧ c.tweak.Legal ∧ c.data.state = c.tweak.state) ∧
  s.status.toNat ≤ 4 ∧ s.result.toNat ≤ 1

/-- The inner contexts and slots that an init command loads (40_context_lifecycle.md R127; none for another command). -/
def initTargets : Instr → List CtxLoc
  | .bcInitKey c => [.bc c]
  | .bcInitDevkey c => [.bc c]
  | .bcCleanup _ => []
  | .bcIsInit _ => []
  | .xtsInit j => [.xcData j, .xcTweak j]
  | .xtsCleanup _ => []
  | .xtsIsInit _ => []
  | .cmac _ => []
  | .cmacKey => []
  | .cmacDevkey => []
  | .kdfDerive => []
  | .xtsEnc _ => []
  | .xtsDec _ => []
  | .daInit c => [.bc c]
  | .daCompute _ => []
  | .daVerify _ => []
  | .daComputeEasy => []
  | .daVerifyEasy => []
  | .meInit j => [.xcData j, .xcTweak j]
  | .meEnc _ => []
  | .meDec _ => []

/-- The four commands of format CTX_XTS, which need a span and buffers that the document defines (43_xts.md R184). -/
def isXts (i : Instr) : Bool := formatOf i == .ctxXts

/-- The two commands that write RESULT (10_state.md R24). -/
def isIsInit : Instr → Bool
  | .bcIsInit _ => true
  | .xtsIsInit _ => true
  | _ => false

/-- A number of steps, one after the other; a stop ends them. -/
def runSteps : Nat → State → Host.Outcome State Fault Refusal
  | 0, s => .next s
  | n + 1, s =>
    match step s with
    | .next t => runSteps n t
    | .fault f => .fault f
    | .refused r => .refused r

/-- The codes a command can end with (60_exceptions.md R242). -/
def mayEndWith : Instr → List Status
  | .bcInitKey _ => [.ok, .failure, .invalidArgs]
  | .bcInitDevkey _ => [.ok, .failure, .invalidArgs]
  | .bcCleanup _ => [.ok, .invalidArgs]
  | .bcIsInit _ => [.ok, .invalidArgs]
  | .xtsInit _ => [.ok, .failure, .invalidArgs]
  | .xtsCleanup _ => [.ok, .invalidArgs]
  | .xtsIsInit _ => [.ok, .invalidArgs]
  | .cmac _ => [.ok, .failure, .invalidArgs, .ctxNotInitialized]
  | .cmacKey => [.ok, .failure, .invalidArgs]
  | .cmacDevkey => [.ok, .failure, .invalidArgs]
  | .kdfDerive => [.ok, .failure, .invalidArgs]
  | .xtsEnc _ => [.ok, .failure, .invalidArgs, .ctxNotInitialized]
  | .xtsDec _ => [.ok, .failure, .invalidArgs, .ctxNotInitialized]
  | .daInit _ => [.ok, .failure, .invalidArgs]
  | .daCompute _ => [.ok, .failure, .invalidArgs, .ctxNotInitialized]
  | .daVerify _ => [.ok, .failure, .invalidArgs, .ctxNotInitialized, .invalidTag]
  | .daComputeEasy => [.ok, .failure, .invalidArgs]
  | .daVerifyEasy => [.ok, .failure, .invalidArgs, .invalidTag]
  | .meInit _ => [.ok, .failure, .invalidArgs]
  | .meEnc _ => [.ok, .failure, .invalidArgs, .ctxNotInitialized]
  | .meDec _ => [.ok, .failure, .invalidArgs, .ctxNotInitialized]

/-- The outcome with a function applied to its next state. -/
def mapNext (f : State → State) : Host.Outcome State Fault Refusal → Host.Outcome State Fault Refusal
  | .next t => .next (f t)
  | .fault e => .fault e
  | .refused r => .refused r

end Machine
end Sys2Proof
end

