-- ==== Sys2Proof/Certificates/Slice0/Obligations.lean ====
section
/-! DEFINITION. The statements for the provers. Each docstring names the rule of the spec it formalises. -/

section Statements

open Sys2Proof Sys2Proof.Machine

/-! ## Encoding -/

/-- The decoder answers an instruction exactly when the word selects that instruction's row by mask and match, its slot
index standing in bits 15:8 (30_encoding.md R80, R84). -/
def Obligations.DecodeSelectsTheRow : Prop :=
  ∀ (w : Word) (i : Instr), decode w = .ok i ↔
    i.WellFormed ∧ w &&& i.rowMask = i.rowMatch ∧ ∀ c, i.ctx? = some c → c = ctxField w

/-- Decoding the encoding of a well-formed instruction gives it back, for all 21 commands and every slot index
(30_encoding.md R80, R84). -/
def Obligations.DecodeOfEncode : Prop := ∀ i : Instr, i.WellFormed → decode (encode i) = .ok i

/-- A word has one reading: what decodes encodes to the word it was decoded from, and is well-formed (R84, R87). -/
def Obligations.EncodeOfDecode : Prop := ∀ (w : Word) (i : Instr), decode w = .ok i → i.WellFormed ∧ encode i = w

/-- Words that the spec writes out, and the commands it says they are (30_encoding.md R88, 95_test_vectors.md F13). -/
def Obligations.SpecWordsDecode : Prop :=
  decode 0x00000001 = .ok (.bcInitKey 0) ∧ decode 0x00000202 = .ok (.bcInitDevkey 2) ∧
  decode 0x00000110 = .ok (.cmac 1) ∧ decode 0x00000011 = .ok .cmacKey ∧ decode 0x00000020 = .ok .kdfDerive ∧
  decode 0x00000230 = .ok (.xtsEnc 2) ∧ decode 0x00000142 = .ok (.daVerify 1) ∧ decode 0x00000050 = .ok (.meInit 0) ∧
  decode 0x00000000 = .error .unassignedOp ∧ decode 0x00010010 = .error .reservedNonzero ∧
  decode 0x00000111 = .error .ctxNotZero

/-! ## The machine around the commands -/

/-- After reset every context is UNINIT with a zero key, and every hidden buffer is zero; `DEVKEY` is the device's
(10_state.md R35; the values of the registers and of memory are the model's and are not stated here). -/
def Obligations.ResetLeavesEveryContextCleaned : Prop :=
  (∀ c, c < Config.nbc → State.reset.ctxAt (.bc c) = { state := .uninit, ksel := .loaded, key := 0 }) ∧
  (∀ j, j < Config.nxc → State.reset.ctxAt (.xcData j) = { state := .uninit, ksel := .loaded, key := 0 } ∧
    State.reset.ctxAt (.xcTweak j) = { state := .uninit, ksel := .loaded, key := 0 }) ∧
  State.reset.hidden.Quiet ∧ State.reset.hidden.x = 0 ∧ State.reset.hidden.t = 0 ∧ State.reset.hidden.tagBuf = 0 ∧
  State.reset.devKey = Config.devKey

/-- The reset event in any state: contexts UNINIT, hidden buffers zero, `DEVKEY` and memory as they were (10_state.md R35,
70_reset_and_hazards.md R270). -/
def Obligations.ResetEventCleansAndKeeps : Prop :=
  ∀ s : State, ∃ t, hostAccess .reset s = .next t ∧
    (∀ l, t.ctxAt l = { state := .uninit, ksel := .loaded, key := 0 }) ∧
    t.hidden.Quiet ∧ t.hidden.x = 0 ∧ t.hidden.t = 0 ∧ t.hidden.tagBuf = 0 ∧ t.devKey = s.devKey ∧ t.mem = s.mem

/-- A step whose host access is a write of CMD runs the decoded command on the state that the queue has left, and nothing
else; `withFetchWord` makes that access the next one (30_encoding.md R86, 10_state.md R21). The queue is the model's own
(log 1). -/
def Obligations.StepRunsTheDecodedCommand : Prop :=
  (∀ (s : State) (w : Word) (rest : List HostAccess) (i : Instr), s.bus = .writeReg .cmd w :: rest → decode w = .ok i →
    step s = exec i { s with bus := rest }) ∧
  (∀ (s : State) (w : Word) (i : Instr), decode w = .ok i → step (s.withFetchWord 32 w.toNat) = exec i s)

/-- A word that matches no row writes `STATUS <- INVALID_ARGS` and does nothing else (30_encoding.md R85). -/
def Obligations.IllegalWordOnlyWritesInvalidArgs : Prop :=
  ∀ (s : State) (w : Word) (rest : List HostAccess), s.bus = .writeReg .cmd w :: rest →
    (∀ i : Instr, w &&& i.rowMask ≠ i.rowMatch) →
    step s = .next { s with bus := rest, status := Status.invalidArgs.word }

/-- Who may read and write what (10_state.md R20, R21, R22, R24, R34): reads of the registers and of memory, ignored writes
of STATUS and RESULT, writes of operand registers and of memory. `busData`, what a read returned, is the model's own
(log 21). -/
def Obligations.HostAccessRights : Prop :=
  ∀ s : State,
    hostAccess (.readReg .cmd) s = .next { s with busData := 0 } ∧
    hostAccess (.readReg .status) s = .next { s with busData := s.status } ∧
    hostAccess (.readReg .result) s = .next { s with busData := s.result } ∧
    (∀ r, hostAccess (.readReg (.a r)) s = .next { s with busData := s.regs.get r }) ∧
    (∀ v, hostAccess (.writeReg .status v) s = .next s) ∧ (∀ v, hostAccess (.writeReg .result v) s = .next s) ∧
    (∀ r v, ∃ q : OperandRegs, hostAccess (.writeReg (.a r) v) s = .next { s with regs := q } ∧
      q.get r = v ∧ ∀ r', r' ≠ r → q.get r' = s.regs.get r') ∧
    (∀ a, ∃ v : Word, hostAccess (.readMem a) s = .next { s with busData := v } ∧ v.toNat = (s.mem.get a.toNat).toNat) ∧
    (s.mem.wf = true → ∀ a v, ∃ m : Memory, hostAccess (.writeMem a v) s = .next { s with mem := m } ∧
      m.get a.toNat = v ∧ ∀ p, p ≠ a.toNat → m.get p = s.mem.get p)

/-- An assembler line writes each named operand register and then launches its command: run step by step, it ends as the
command does on the state with those registers written (30_encoding.md R88). -/
def Obligations.AssemblerLineLaunchesItsCommand : Prop :=
  ∀ (i : Instr) (s : State) (v : OpReg → Word) (rest : List HostAccess), i.WellFormed →
    s.bus = asmLine i ((operandRegs i).map v) ++ rest →
    ∃ q : OperandRegs, (∀ r, q.get r = if r ∈ operandRegs i then v r else s.regs.get r) ∧
      runSteps ((operandRegs i).length + 1) s = exec i { s with regs := q, bus := rest }

/-! ## The lifecycle commands -/

/-- BC_INIT_KEY on a slot that is UNINIT (40_context_lifecycle.md R120, R115): the key bytes in memory are loaded, or the
slot is cleaned when the primitive fails. -/
def Obligations.BcInitKeyLoadsTheKey : Prop :=
  ∀ (c : Nat) (s : State), c < Config.nbc → s.regs.a0 ≠ 0 → s.Admits (.bcInitKey c) → (s.ctxAt (.bc c)).state = .uninit →
    ∃ t, exec (.bcInitKey c) s = .next t ∧
      (s.nextFault = false → t.status = Status.ok.word ∧
        t.ctxAt (.bc c) = { state := .ready, ksel := .loaded, key := blockOfBytes (s.mem.read s.regs.a0.toNat 16) }) ∧
      (s.nextFault = true → t.status = Status.failure.word ∧ t.ctxAt (.bc c) = .clear) ∧
      (∀ k, k ≠ c → t.ctxAt (.bc k) = s.ctxAt (.bc k)) ∧
      OnlyBc s t ∧ t.hidden = s.hidden ∧ t.primCalls = s.primCalls + 1

/-- BC_INIT_DEVKEY on a slot that is UNINIT (R121, R116): ready under the device-unique key, which is not copied. -/
def Obligations.BcInitDevkeySelectsTheDeviceKey : Prop :=
  ∀ (c : Nat) (s : State), c < Config.nbc → (s.ctxAt (.bc c)).state = .uninit →
    ∃ t, exec (.bcInitDevkey c) s = .next t ∧
      (s.nextFault = false → t.status = Status.ok.word ∧ t.ctxAt (.bc c) = { state := .ready, ksel := .device, key := 0 } ∧
        t.keyOf (t.ctxAt (.bc c)) = s.devKey) ∧
      (s.nextFault = true → t.status = Status.failure.word ∧ t.ctxAt (.bc c) = .clear) ∧
      (∀ k, k ≠ c → t.ctxAt (.bc k) = s.ctxAt (.bc k)) ∧
      OnlyBc s t ∧ t.hidden = s.hidden ∧ t.primCalls = s.primCalls + 1

/-- BC_CLEANUP in either state of the slot: cleaned, OK, no primitive call (R122, R117). -/
def Obligations.BcCleanupCleansTheSlot : Prop :=
  ∀ (c : Nat) (s : State), c < Config.nbc →
    ∃ t, exec (.bcCleanup c) s = .next t ∧ t.status = Status.ok.word ∧
      t.ctxAt (.bc c) = { state := .uninit, ksel := .loaded, key := 0 } ∧
      (∀ k, k ≠ c → t.ctxAt (.bc k) = s.ctxAt (.bc k)) ∧
      OnlyBc s t ∧ t.hidden = s.hidden ∧ t.primCalls = s.primCalls

/-- BC_IS_INIT, operation code 0x04 of format CTX: the state flag alone, in bit 0 of RESULT; an index that names no slot
answers 0 with INVALID_ARGS; nothing else changes (R123). -/
def Obligations.BcIsInitReportsTheFlag : Prop :=
  (∀ c, (Instr.bcIsInit c).rowMatch = 0x00000004 ∧ formatOf (.bcIsInit c) = .ctx) ∧
  (∀ (c : Nat) (s : State), c < Config.nbc →
    exec (.bcIsInit c) s = .next { s with
      result := if (s.ctxAt (.bc c)).state = .ready then 1 else 0, status := Status.ok.word }) ∧
  (∀ (c : Nat) (s : State), Config.nbc ≤ c →
    exec (.bcIsInit c) s = .next { s with result := 0, status := Status.invalidArgs.word })

/-- XTS_INIT on a slot that is UNINIT (R124): the two keys are loaded, or both inner contexts are UNINIT when either load
fails. -/
def Obligations.XtsInitLoadsBothKeysOrNeither : Prop :=
  ∀ (j : Nat) (s : State), j < Config.nxc → s.regs.a0 ≠ 0 → s.regs.a1 ≠ 0 → s.Admits (.xtsInit j) →
    (s.ctxAt (.xcData j)).state = .uninit → (s.ctxAt (.xcTweak j)).state = .uninit →
    ∃ t, exec (.xtsInit j) s = .next t ∧
      (s.nextFault = false → s.drawFault.nextFault = false → t.status = Status.ok.word ∧
        t.ctxAt (.xcData j) = { state := .ready, ksel := .loaded, key := blockOfBytes (s.mem.read s.regs.a0.toNat 16) } ∧
        t.ctxAt (.xcTweak j) = { state := .ready, ksel := .loaded, key := blockOfBytes (s.mem.read s.regs.a1.toNat 16) } ∧
        t.primCalls = s.primCalls + 2) ∧
      (s.nextFault = true ∨ s.drawFault.nextFault = true → t.status = Status.failure.word ∧
        t.ctxAt (.xcData j) = .clear ∧ t.ctxAt (.xcTweak j) = .clear) ∧
      (∀ k, k ≠ j → t.ctxAt (.xcData k) = s.ctxAt (.xcData k) ∧ t.ctxAt (.xcTweak k) = s.ctxAt (.xcTweak k)) ∧
      OnlyXc s t ∧ t.hidden = s.hidden

/-- XTS_CLEANUP, operation code 0x06 of format CTX, and ME_CLEANUP, which is the same command: both inner contexts cleaned,
OK, in any state of the slot (nothing moves when both were clean); a bad index gives INVALID_ARGS and changes nothing else
(R125). -/
def Obligations.XtsCleanupCleansBothContexts : Prop :=
  (∀ j, (Instr.xtsCleanup j).rowMatch = 0x00000006 ∧ formatOf (.xtsCleanup j) = .ctx ∧ pseudoMeCleanup j = .xtsCleanup j) ∧
  (∀ (j : Nat) (s : State), j < Config.nxc →
    ∃ t, exec (.xtsCleanup j) s = .next t ∧ t.status = Status.ok.word ∧
      t.ctxAt (.xcData j) = { state := .uninit, ksel := .loaded, key := 0 } ∧
      t.ctxAt (.xcTweak j) = { state := .uninit, ksel := .loaded, key := 0 } ∧
      (∀ k, k ≠ j → t.ctxAt (.xcData k) = s.ctxAt (.xcData k) ∧ t.ctxAt (.xcTweak k) = s.ctxAt (.xcTweak k)) ∧
      OnlyXc s t ∧ t.hidden = s.hidden ∧ t.primCalls = s.primCalls) ∧
  (∀ (j : Nat) (s : State), Config.nxc ≤ j → exec (.xtsCleanup j) s = .next (s.exit .invalidArgs))

/-- XTS_IS_INIT, operation code 0x07 of format CTX: 1 exactly when both inner contexts are READY; a bad index answers 0 with
INVALID_ARGS; nothing else changes (R126). -/
def Obligations.XtsIsInitReportsBothFlags : Prop :=
  (∀ j, (Instr.xtsIsInit j).rowMatch = 0x00000007 ∧ formatOf (.xtsIsInit j) = .ctx) ∧
  (∀ (j : Nat) (s : State), j < Config.nxc →
    exec (.xtsIsInit j) s = .next { s with
      result := if (s.ctxAt (.xcData j)).state = .ready ∧ (s.ctxAt (.xcTweak j)).state = .ready then 1 else 0
      status := Status.ok.word }) ∧
  (∀ (j : Nat) (s : State), Config.nxc ≤ j →
    exec (.xtsIsInit j) s = .next { s with result := 0, status := Status.invalidArgs.word })

/-- An init command on a slot that is READY is refused (R127, 93 U2). That the argument checks come first is the model's
reading (log 12). -/
def Obligations.InitOfAReadySlotIsRefused : Prop :=
  (∀ (c : Nat) (s : State), c < Config.nbc → (s.ctxAt (.bc c)).state = .ready →
    (s.regs.a0 ≠ 0 → exec (.bcInitKey c) s = .refused .contextAlreadyReady) ∧
    exec (.bcInitDevkey c) s = .refused .contextAlreadyReady ∧ exec (.daInit c) s = .refused .contextAlreadyReady) ∧
  (∀ (j : Nat) (s : State), j < Config.nxc →
    (s.ctxAt (.xcData j)).state = .ready ∨ (s.ctxAt (.xcTweak j)).state = .ready →
    (s.regs.a0 ≠ 0 → s.regs.a1 ≠ 0 → exec (.xtsInit j) s = .refused .contextAlreadyReady) ∧
    (Given s.regs.a2 s.regs.a3 → Given s.regs.a4 s.regs.a5 → s.regs.a3.toNat + s.regs.a5.toNat ≤ 250 →
      exec (.meInit j) s = .refused .contextAlreadyReady))

/-- Init and cleanup commands reject an index that names no slot, and a null key pointer, changing STATUS alone (R119, R120,
R121, R122, R124, R125; 44_data_auth.md R201, 45_mem_encrypt.md R221). That they do so on a READY slot too, before the refusal
of R127, is the model's reading (log 12). -/
def Obligations.LifecycleRejectsBadArguments : Prop :=
  (∀ (c : Nat) (s : State), Config.nbc ≤ c →
    exec (.bcInitKey c) s = .next (s.exit .invalidArgs) ∧ exec (.bcInitDevkey c) s = .next (s.exit .invalidArgs) ∧
    exec (.bcCleanup c) s = .next (s.exit .invalidArgs) ∧ exec (.daInit c) s = .next (s.exit .invalidArgs)) ∧
  (∀ (j : Nat) (s : State), Config.nxc ≤ j →
    exec (.xtsInit j) s = .next (s.exit .invalidArgs) ∧ exec (.xtsCleanup j) s = .next (s.exit .invalidArgs) ∧
    exec (.meInit j) s = .next (s.exit .invalidArgs)) ∧
  (∀ (c : Nat) (s : State), s.regs.a0 = 0 → exec (.bcInitKey c) s = .next (s.exit .invalidArgs)) ∧
  (∀ (j : Nat) (s : State), s.regs.a0 = 0 ∨ s.regs.a1 = 0 → exec (.xtsInit j) s = .next (s.exit .invalidArgs))

/-! ## CMAC -/

/-- `dbl_be`: the shift of the big-endian integer with 0x87 on a carry out of bit 7 of byte 0, and the same byte by byte; not
the function `dbl_le` (41_cmac.md R141). -/
def Obligations.DblBeDoublesBigEndian : Prop :=
  (∀ x : Block,
    bytesOfBlock (dblBE x) = beBytes 16 (Nat.xor (2 * intBE (bytesOfBlock x) % 2 ^ 128)
      (if 2 ^ 127 ≤ intBE (bytesOfBlock x) then 0x87 else 0)) ∧
    (∀ i, i ≤ 14 → (bytesOfBlock (dblBE x)).getD i 0 =
      (bytesOfBlock x).getD i 0 <<< 1 ||| (bytesOfBlock x).getD (i + 1) 0 >>> 7) ∧
    (bytesOfBlock (dblBE x)).getD 15 0 =
      (bytesOfBlock x).getD 15 0 <<< 1 ^^^ (if ((bytesOfBlock x).getD 0 0).msb then 0x87 else 0)) ∧
  dblBE ≠ dblLE

/-- `dbl_le`: the shift of the little-endian integer with 0x87 on a carry out of bit 7 of byte 15, the same byte by byte, the
mirror of `dbl_be` (the spec's own inference, "the identity `dbl_le(x) = reverse(dbl_be(reverse(x)))` holds") and not `dbl_be`
(43_xts.md R181). -/
def Obligations.DblLeDoublesLittleEndian : Prop :=
  (∀ x : Block,
    bytesOfBlock (dblLE x) = leBytes 16 (Nat.xor (2 * intLE (bytesOfBlock x) % 2 ^ 128)
      (if 2 ^ 127 ≤ intLE (bytesOfBlock x) then 0x87 else 0)) ∧
    (bytesOfBlock (dblLE x)).getD 0 0 =
      (bytesOfBlock x).getD 0 0 <<< 1 ^^^ (if ((bytesOfBlock x).getD 15 0).msb then 0x87 else 0) ∧
    (∀ i, 1 ≤ i → i ≤ 15 → (bytesOfBlock (dblLE x)).getD i 0 =
      (bytesOfBlock x).getD i 0 <<< 1 ||| (bytesOfBlock x).getD (i - 1) 0 >>> 7) ∧
    bytesOfBlock (dblLE x) = (bytesOfBlock (dblBE (blockOfBytes (bytesOfBlock x).reverse))).reverse) ∧
  dblLE 0x80000000000000000000000000000000 ≠ dblBE 0x80000000000000000000000000000000

/-- CMAC, and DA_COMPUTE, which is CMAC under another operation code: on a ready slot and with no primitive failure the tag
of the message is written and nothing else in memory (41_cmac.md R146, R140 to R145; 44_data_auth.md R202;
70_reset_and_hazards.md R282). -/
def Obligations.CmacWritesTheTag : Prop :=
  ∀ (c : Nat) (i : Instr) (s : State), i = .cmac c ∨ i = .daCompute c → c < Config.nbc → (s.ctxAt (.bc c)).state = .ready →
    s.regs.a2 ≠ 0 → Given s.regs.a0 s.regs.a1 → s.Admits i → s.NoFault (callsOf i s.regs) → s.mem.wf = true →
    ∃ t x, exec i s = .next t ∧ t.status = Status.ok.word ∧
      t.mem.read s.regs.a2.toNat 16 = bytesOfBlock (Spec.cmacTag (s.encUnder (.bc c)) s.message) ∧
      OnlyMem s t s.regs.a2.toNat 16 ∧ t.hidden = s.hidden.afterCmac x ∧ t.primCalls = s.primCalls + callsOf i s.regs

/-- The two subkey paths, in terms of the cipher alone: the empty message (whatever its pointer) gives `E(K2 xor 80 00 .. 00)`,
a message of 16 bytes gives `E(M xor K1)` (41_cmac.md R144, R149 (c), (d)). -/
def Obligations.CmacOfEmptyAndFullBlock : Prop :=
  ∀ (c : Nat) (s : State), c < Config.nbc → (s.ctxAt (.bc c)).state = .ready → s.regs.a2 ≠ 0 → s.Admits (.cmac c) →
    s.NoFault 2 → s.mem.wf = true →
    (s.regs.a1 = 0 → ∃ t, exec (.cmac c) s = .next t ∧
      blockOfBytes (t.mem.read s.regs.a2.toNat 16) = s.encUnder (.bc c)
        (dblBE (dblBE (s.encUnder (.bc c) 0)) ^^^ 0x80000000000000000000000000000000)) ∧
    (s.regs.a1 = 16 → s.regs.a0 ≠ 0 → ∃ t, exec (.cmac c) s = .next t ∧
      blockOfBytes (t.mem.read s.regs.a2.toNat 16) = s.encUnder (.bc c)
        (blockOfBytes (s.mem.read s.regs.a0.toNat 16) ^^^ dblBE (s.encUnder (.bc c) 0)))

/-- CMAC_KEY: the tag under the key in memory, with a transient context that is cleaned again; no slot changes (R147). -/
def Obligations.CmacKeyWritesTheTag : Prop :=
  ∀ s : State, s.regs.a3 ≠ 0 → s.regs.a2 ≠ 0 → Given s.regs.a0 s.regs.a1 → s.Admits .cmacKey →
    s.NoFault (callsOf .cmacKey s.regs) → s.mem.wf = true →
    ∃ t x, exec .cmacKey s = .next t ∧ t.status = Status.ok.word ∧
      t.mem.read s.regs.a2.toNat 16 = bytesOfBlock
        (Spec.cmacTag (Config.params.enc (blockOfBytes (s.mem.read s.regs.a3.toNat 16))) s.message) ∧
      OnlyMem s t s.regs.a2.toNat 16 ∧ t.hidden = s.hidden.afterTransient x ∧
      t.primCalls = s.primCalls + callsOf .cmacKey s.regs

/-- CMAC_DEVKEY: the tag under the device-unique key; no slot changes (R148). -/
def Obligations.CmacDevkeyWritesTheTag : Prop :=
  ∀ s : State, s.regs.a2 ≠ 0 → Given s.regs.a0 s.regs.a1 → s.Admits .cmacDevkey →
    s.NoFault (callsOf .cmacDevkey s.regs) → s.mem.wf = true →
    ∃ t x, exec .cmacDevkey s = .next t ∧ t.status = Status.ok.word ∧
      t.mem.read s.regs.a2.toNat 16 = bytesOfBlock (Spec.cmacTag s.encDev s.message) ∧
      OnlyMem s t s.regs.a2.toNat 16 ∧ t.hidden = s.hidden.afterTransient x ∧
      t.primCalls = s.primCalls + callsOf .cmacDevkey s.regs

/-- The checks of CMAC, DA_COMPUTE and DA_VERIFY in their order: slot index and tag pointer, then readiness, then the data
pointer; a check that fails changes STATUS alone (R146, 44_data_auth.md R202, R203, 60_exceptions.md R244). -/
def Obligations.CmacChecksInOrder : Prop :=
  ∀ (c : Nat) (i : Instr) (s : State), i = .cmac c ∨ i = .daCompute c ∨ i = .daVerify c →
    (Config.nbc ≤ c ∨ s.regs.a2 = 0 → exec i s = .next (s.exit .invalidArgs)) ∧
    (c < Config.nbc → s.regs.a2 ≠ 0 → (s.ctxAt (.bc c)).state = .uninit → exec i s = .next (s.exit .ctxNotInitialized)) ∧
    (c < Config.nbc → s.regs.a2 ≠ 0 → (s.ctxAt (.bc c)).state = .ready → s.regs.a0 = 0 → s.regs.a1 ≠ 0 →
      exec i s = .next (s.exit .invalidArgs))

/-- The commands with a transient context reject null pointers before anything else (R147, R148; 44_data_auth.md R204,
R205). -/
def Obligations.TransientCommandsRejectNullPointers : Prop :=
  ∀ (i : Instr) (s : State), i = .cmacKey ∨ i = .cmacDevkey ∨ i = .daComputeEasy ∨ i = .daVerifyEasy →
    s.regs.a2 = 0 ∨ (s.regs.a0 = 0 ∧ s.regs.a1 ≠ 0) ∨ (i = .cmacKey ∧ s.regs.a3 = 0) →
    exec i s = .next (s.exit .invalidArgs)

/-- After BC_INIT_DEVKEY, CMAC on the slot computes what CMAC_DEVKEY computes (40_context_lifecycle.md R121, the spec's own
inference "from rule R113, 41_cmac.md rules R146 and R148"). -/
def Obligations.DevkeySlotTagIsTheWrappersTag : Prop :=
  ∀ (c : Nat) (s : State), c < Config.nbc → (s.ctxAt (.bc c)).state = .uninit → s.regs.a2 ≠ 0 → Given s.regs.a0 s.regs.a1 →
    s.Admits .cmacDevkey → s.NoFault (callsOf .cmacDevkey s.regs) →
    ∃ t u v, exec (.bcInitDevkey c) s = .next t ∧ exec (.cmac c) t = .next u ∧ exec .cmacDevkey s = .next v ∧
      u.mem = v.mem ∧ u.status = v.status

/-! ## The key derivation function -/

/-- KDF_DERIVE: exactly `key_len` derived bytes are written, segment `i` the tag of the input with counter byte `i`
(42_kdf.md R160 to R166). -/
def Obligations.KdfDeriveWritesTheDerivedBytes : Prop :=
  ∀ s : State, s.regs.a0 ≠ 0 → Given s.regs.a2 s.regs.a3 → Given s.regs.a4 s.regs.a5 → 16 ≤ s.regs.a1.toNat →
    s.regs.a1.toNat ≤ 4096 → s.regs.a3.toNat + s.regs.a5.toNat ≤ 250 → s.Admits .kdfDerive →
    s.NoFault (callsOf .kdfDerive s.regs) → s.mem.wf = true →
    ∃ t x, exec .kdfDerive s = .next t ∧ t.status = Status.ok.word ∧
      t.mem.read s.regs.a0.toNat s.regs.a1.toNat = Spec.kdfBytes s.encDev s.regs.a1.toNat s.label s.context ∧
      OnlyMem s t s.regs.a0.toNat s.regs.a1.toNat ∧ t.hidden = s.hidden.afterKdf x ∧
      t.primCalls = s.primCalls + callsOf .kdfDerive s.regs

/-- `KDF_Check` fails exactly outside 16 to 4096 bytes or when label and context do not fit the buffer (R161); KDF_DERIVE
rejects that and null pointers before anything else, and ME_INIT the same of its label and context (R166,
45_mem_encrypt.md R221). That the capacity failure gives INVALID_ARGS is the spec's own inference ("[derived: §7 lists ...]"); that
ME_INIT says so on a READY slot too, before the refusal of R127, is the model's reading (log 12). -/
def Obligations.KdfCheckRejects : Prop :=
  (∀ keyLen labelLen contextLen, kdfRejects keyLen labelLen contextLen = true ↔
    keyLen < 16 ∨ 4096 < keyLen ∨ 256 < 1 + labelLen + 1 + contextLen + 4) ∧
  (∀ s : State, s.regs.a0 = 0 ∨ (s.regs.a2 = 0 ∧ s.regs.a3 ≠ 0) ∨ (s.regs.a4 = 0 ∧ s.regs.a5 ≠ 0) ∨
      s.regs.a1.toNat < 16 ∨ 4096 < s.regs.a1.toNat ∨ 256 < 1 + s.regs.a3.toNat + 1 + s.regs.a5.toNat + 4 →
    exec .kdfDerive s = .next (s.exit .invalidArgs)) ∧
  (∀ (j : Nat) (s : State), (s.regs.a2 = 0 ∧ s.regs.a3 ≠ 0) ∨ (s.regs.a4 = 0 ∧ s.regs.a5 ≠ 0) ∨
      256 < 1 + s.regs.a3.toNat + 1 + s.regs.a5.toNat + 4 →
    exec (.meInit j) s = .next (s.exit .invalidArgs))

/-! ## XTS -/

/-- XTS_ENC, and ME_ENC, which is XTS_ENC under another operation code: each block XOR-ed with its tweak before and after
the encryption under the data key; the tweak is a function of the tweak key and the block's address (43_xts.md R183, R185,
R187; 45_mem_encrypt.md R222; 70_reset_and_hazards.md R282). -/
def Obligations.XtsEncWritesTheCiphertext : Prop :=
  ∀ (j : Nat) (i : Instr) (s : State), i = .xtsEnc j ∨ i = .meEnc j → j < Config.nxc → s.XtsArgs →
    (s.ctxAt (.xcData j)).state = .ready → (s.ctxAt (.xcTweak j)).state = .ready → s.Admits i →
    s.NoFault (callsOf i s.regs) → s.mem.wf = true →
    ∃ t, exec i s = .next t ∧ t.status = Status.ok.word ∧
      t.mem.read s.regs.a2.toNat s.regs.a1.toNat = Spec.xtsBytes (s.encUnder (.xcData j)) (s.encUnder (.xcTweak j))
        s.regs.a3.toNat (s.mem.read s.regs.a0.toNat s.regs.a1.toNat) ∧
      OnlyMem s t s.regs.a2.toNat s.regs.a1.toNat ∧ t.hidden = { s.hidden with t := 0 } ∧
      t.primCalls = s.primCalls + callsOf i s.regs

/-- XTS_DEC, and ME_DEC: the same with the decryption of the data blocks; the tweak is encrypted in this direction too
(R182, R185, R188; 45_mem_encrypt.md R223). -/
def Obligations.XtsDecWritesThePlaintext : Prop :=
  ∀ (j : Nat) (i : Instr) (s : State), i = .xtsDec j ∨ i = .meDec j → j < Config.nxc → s.XtsArgs →
    (s.ctxAt (.xcData j)).state = .ready → (s.ctxAt (.xcTweak j)).state = .ready → s.Admits i →
    s.NoFault (callsOf i s.regs) → s.mem.wf = true →
    ∃ t, exec i s = .next t ∧ t.status = Status.ok.word ∧
      t.mem.read s.regs.a2.toNat s.regs.a1.toNat = Spec.xtsBytes (s.decUnder (.xcData j)) (s.encUnder (.xcTweak j))
        s.regs.a3.toNat (s.mem.read s.regs.a0.toNat s.regs.a1.toNat) ∧
      OnlyMem s t s.regs.a2.toNat s.regs.a1.toNat ∧ t.hidden = { s.hidden with t := 0 } ∧
      t.primCalls = s.primCalls + callsOf i s.regs

/-- `XTS_Check` in its order, and the two conditions outside the document: argument checks, readiness, then the refusals of a
span past the top and of a partial overlap (R184, 93 U3, U1; that the refusals come last is the model's reading, log 13). -/
def Obligations.XtsChecksInOrder : Prop :=
  ∀ (j : Nat) (i : Instr) (s : State), i = .xtsEnc j ∨ i = .xtsDec j ∨ i = .meEnc j ∨ i = .meDec j →
    (Config.nxc ≤ j ∨ s.regs.a0 = 0 ∨ s.regs.a2 = 0 ∨ s.regs.a1 = 0 ∨ s.regs.a3.toNat % 16 ≠ 0 ∨ s.regs.a1.toNat % 16 ≠ 0 →
      exec i s = .next (s.exit .invalidArgs)) ∧
    (j < Config.nxc → s.regs.a0 ≠ 0 → s.regs.a2 ≠ 0 → s.regs.a1 ≠ 0 → s.regs.a3.toNat % 16 = 0 → s.regs.a1.toNat % 16 = 0 →
      ((s.ctxAt (.xcData j)).state = .uninit ∨ (s.ctxAt (.xcTweak j)).state = .uninit →
        exec i s = .next (s.exit .ctxNotInitialized)) ∧
      ((s.ctxAt (.xcData j)).state = .ready → (s.ctxAt (.xcTweak j)).state = .ready →
        (2 ^ 32 < s.regs.a3.toNat + s.regs.a1.toNat → exec i s = .refused .spanPastTop) ∧
        (s.regs.a3.toNat + s.regs.a1.toNat ≤ 2 ^ 32 → s.regs.a0 ≠ s.regs.a2 →
          s.regs.a0.toNat < s.regs.a2.toNat + s.regs.a1.toNat → s.regs.a2.toNat < s.regs.a0.toNat + s.regs.a1.toNat →
          exec i s = .refused .partialOverlap)))

/-- Encrypting a span in one call or in two calls that cover the same addresses gives the same memory (R186, the spec's own
inference "from rule R183, the tweak depends on `a` only"). -/
def Obligations.XtsSpanSplitsAnywhere : Prop :=
  ∀ (j : Nat) (s : State) (n m : Word), j < Config.nxc → s.regs.a1.toNat = n.toNat + m.toNat → n ≠ 0 → m ≠ 0 →
    n.toNat % 16 = 0 → m.toNat % 16 = 0 → s.XtsArgs → (s.ctxAt (.xcData j)).state = .ready →
    (s.ctxAt (.xcTweak j)).state = .ready → s.Admits (.xtsEnc j) → s.NoFault (callsOf (.xtsEnc j) s.regs + 1) →
    ∃ t u v, exec (.xtsEnc j) s = .next t ∧ exec (.xtsEnc j) { s with regs := { s.regs with a1 := n } } = .next u ∧
      exec (.xtsEnc j) { u with regs := { s.regs with a0 := s.regs.a0 + n, a1 := m, a2 := s.regs.a2 + n, a3 := s.regs.a3 + n } } =
        .next v ∧ t.mem = v.mem

/-- The round trip: decrypting at the same address what an encryption wrote gives the plaintext back, in place or to another
buffer, through the engine's or the facade's commands (R189 (a), 45_mem_encrypt.md R224; `D` inverts `E`, 00_scope.md R7). -/
def Obligations.XtsRoundTrip : Prop :=
  ∀ (j : Nat) (e d : Instr) (s : State) (dst : Word), e = .xtsEnc j ∨ e = .meEnc j → d = .xtsDec j ∨ d = .meDec j →
    j < Config.nxc → s.XtsArgs → { s with regs := { s.regs with a0 := s.regs.a2, a2 := dst } }.XtsArgs →
    (s.ctxAt (.xcData j)).state = .ready → (s.ctxAt (.xcTweak j)).state = .ready → s.Admits e →
    { s with regs := { s.regs with a0 := s.regs.a2, a2 := dst } }.Admits d →
    s.NoFault (callsOf e s.regs + callsOf d s.regs) → s.mem.wf = true →
    ∃ t u, exec e s = .next t ∧ exec d { t with regs := { s.regs with a0 := s.regs.a2, a2 := dst } } = .next u ∧
      u.status = Status.ok.word ∧ u.mem.read dst.toNat s.regs.a1.toNat = s.mem.read s.regs.a0.toNat s.regs.a1.toNat

/-! ## The facades -/

/-- DA_INIT on a slot that is UNINIT: ready with the key derived from the device-unique key, the fixed label and context;
the derived key's buffer is wiped (44_data_auth.md R200, R201). -/
def Obligations.DaInitLoadsTheDerivedKey : Prop :=
  ∀ (c : Nat) (s : State), c < Config.nbc → (s.ctxAt (.bc c)).state = .uninit → s.NoFault (callsOf (.daInit c) s.regs) →
    ∃ t x, exec (.daInit c) s = .next t ∧ t.status = Status.ok.word ∧
      t.ctxAt (.bc c) = { state := .ready, ksel := .loaded, key := s.daKey } ∧
      (∀ k, k ≠ c → t.ctxAt (.bc k) = s.ctxAt (.bc k)) ∧
      OnlyBc s t ∧ t.hidden = s.hidden.afterDerive x ∧ t.primCalls = s.primCalls + callsOf (.daInit c) s.regs

/-- DA_VERIFY on a ready slot: OK exactly when the sixteen bytes at the tag pointer are the recomputed tag, INVALID_TAG
otherwise; STATUS is all it writes (R203, R206). -/
def Obligations.DaVerifyComparesTheTag : Prop :=
  ∀ (c : Nat) (s : State), c < Config.nbc → (s.ctxAt (.bc c)).state = .ready → s.regs.a2 ≠ 0 → Given s.regs.a0 s.regs.a1 →
    s.Admits (.daVerify c) → s.NoFault (callsOf (.daVerify c) s.regs) →
    ∃ t x, exec (.daVerify c) s = .next t ∧
      t.status = (if s.mem.read s.regs.a2.toNat 16 = bytesOfBlock (Spec.cmacTag (s.encUnder (.bc c)) s.message)
        then Status.ok.word else Status.invalidTag.word) ∧
      OnlyStatus s t ∧
      t.hidden = { s.hidden.afterCmac x with tagBuf := Spec.cmacTag (s.encUnder (.bc c)) s.message } ∧
      t.primCalls = s.primCalls + callsOf (.daVerify c) s.regs

/-- DA_COMPUTE_EASY: the tag under the derived key, with no slot used (R204). -/
def Obligations.DaComputeEasyWritesTheTag : Prop :=
  ∀ s : State, s.regs.a2 ≠ 0 → Given s.regs.a0 s.regs.a1 → s.Admits .daComputeEasy →
    s.NoFault (callsOf .daComputeEasy s.regs) → s.mem.wf = true →
    ∃ t x, exec .daComputeEasy s = .next t ∧ t.status = Status.ok.word ∧
      t.mem.read s.regs.a2.toNat 16 = bytesOfBlock (Spec.cmacTag (Config.params.enc s.daKey) s.message) ∧
      OnlyMem s t s.regs.a2.toNat 16 ∧ t.hidden = s.hidden.afterEasy x ∧
      t.primCalls = s.primCalls + callsOf .daComputeEasy s.regs

/-- DA_VERIFY_EASY: the comparison of DA_VERIFY under the derived key, with no slot used (R205, R206). -/
def Obligations.DaVerifyEasyComparesTheTag : Prop :=
  ∀ s : State, s.regs.a2 ≠ 0 → Given s.regs.a0 s.regs.a1 → s.Admits .daVerifyEasy →
    s.NoFault (callsOf .daVerifyEasy s.regs) →
    ∃ t x, exec .daVerifyEasy s = .next t ∧
      t.status = (if s.mem.read s.regs.a2.toNat 16 = bytesOfBlock (Spec.cmacTag (Config.params.enc s.daKey) s.message)
        then Status.ok.word else Status.invalidTag.word) ∧
      OnlyStatus s t ∧
      t.hidden = { s.hidden.afterEasy x with tagBuf := Spec.cmacTag (Config.params.enc s.daKey) s.message } ∧
      t.primCalls = s.primCalls + callsOf .daVerifyEasy s.regs

/-- ME_INIT on a slot that is UNINIT: one derivation of 32 bytes, the first 16 the data key, the second 16 the tweak key; the
derived bytes' buffer is wiped (45_mem_encrypt.md R220, R221). -/
def Obligations.MeInitLoadsTheDerivedKeys : Prop :=
  ∀ (j : Nat) (s : State), j < Config.nxc → Given s.regs.a2 s.regs.a3 → Given s.regs.a4 s.regs.a5 →
    s.regs.a3.toNat + s.regs.a5.toNat ≤ 250 → s.Admits (.meInit j) → (s.ctxAt (.xcData j)).state = .uninit →
    (s.ctxAt (.xcTweak j)).state = .uninit → s.NoFault (callsOf (.meInit j) s.regs) →
    ∃ t x, exec (.meInit j) s = .next t ∧ t.status = Status.ok.word ∧
      (t.ctxAt (.xcData j)).state = .ready ∧ (t.ctxAt (.xcTweak j)).state = .ready ∧
      t.keyOf (t.ctxAt (.xcData j)) = blockOfBytes ((Spec.kdfBytes s.encDev 32 s.label s.context).take 16) ∧
      t.keyOf (t.ctxAt (.xcTweak j)) = blockOfBytes ((Spec.kdfBytes s.encDev 32 s.label s.context).drop 16) ∧
      (t.ctxAt (.xcData j)).ksel = .loaded ∧ (t.ctxAt (.xcTweak j)).ksel = .loaded ∧
      (∀ k, k ≠ j → t.ctxAt (.xcData k) = s.ctxAt (.xcData k) ∧ t.ctxAt (.xcTweak k) = s.ctxAt (.xcTweak k)) ∧
      OnlyXc s t ∧ t.hidden = s.hidden.afterDerive x ∧ t.primCalls = s.primCalls + callsOf (.meInit j) s.regs

/-- The round trip of data authentication: DA_VERIFY accepts the tag that DA_COMPUTE has just written, the data unchanged
(the tag's range does not meet the data's) and no primitive call failing (44_data_auth.md R207, the spec's own inference from
R202, R203 and R149 (a)). -/
def Obligations.DaRoundTrip : Prop :=
  ∀ (c : Nat) (s : State), c < Config.nbc → (s.ctxAt (.bc c)).state = .ready → s.regs.a2 ≠ 0 → Given s.regs.a0 s.regs.a1 →
    s.Admits (.daCompute c) → s.Admits (.daVerify c) →
    s.regs.a0.toNat + s.regs.a1.toNat ≤ s.regs.a2.toNat ∨ s.regs.a2.toNat + 16 ≤ s.regs.a0.toNat ∨ s.regs.a1 = 0 →
    s.NoFault (callsOf (.daCompute c) s.regs + callsOf (.daVerify c) s.regs) → s.mem.wf = true →
    ∃ t u, exec (.daCompute c) s = .next t ∧ exec (.daVerify c) t = .next u ∧ u.status = Status.ok.word

/-- The stateless tag equals that of DA_INIT, DA_COMPUTE and BC_CLEANUP on a free slot, and that sequence leaves the slots as
they were (44_data_auth.md R204, the spec's own inference "same key by rule R200, same procedure"). -/
def Obligations.EasyTagIsTheSlotsTag : Prop :=
  ∀ (c : Nat) (s : State), c < Config.nbc → s.ctxAt (.bc c) = .clear → s.regs.a2 ≠ 0 → Given s.regs.a0 s.regs.a1 →
    s.Admits .daComputeEasy → s.NoFault (callsOf .daComputeEasy s.regs) →
    ∃ t u v w, exec (.daInit c) s = .next t ∧ exec (.daCompute c) t = .next u ∧ exec (.bcCleanup c) u = .next v ∧
      exec .daComputeEasy s = .next w ∧ v.mem = w.mem ∧ v.status = w.status ∧ SameSlots s v ∧ SameSlots s w

/-! ## Rules of the whole machine -/

/-- Every command answers a next state, whatever its operands and the failures of the primitive, unless its case is one that
the spec leaves open: an access that the platform does not admit or that passes the top, a ready slot initialised, an XTS
span past the top or a partial overlap (93 U1 to U5; 60_exceptions.md R241 "Every command ends"). That every primitive call
returns is the spec's own assumption on the primitive (93 U7, log 18). -/
def Obligations.EveryCommandAnswersOutsideTheOpenCases : Prop :=
  ∀ (i : Instr) (s : State), s.Admits i → (∀ l ∈ initTargets i, (s.ctxAt l).state = .uninit) →
    (isXts i = true → s.XtsDefined) → ∃ t, exec i s = .next t

/-- A command that stops does so for a reason of 93 that holds of its operands: U5, U4, U2, U3 or U1. Where the model tests
for them, and under which names, is its choice (logs 12 to 15). There is no fault. The other way round, an operand range past
the top is refused whenever the checks pass (20_memory.md R58, R65, 93 U5); the other four cases are those of
InitOfAReadySlotIsRefused, XtsChecksInOrder and AccessesAndCallsComeInOrder. -/
def Obligations.StopsAreTheOpenCases : Prop :=
  ∀ (i : Instr) (s : State),
    (∀ f, exec i s ≠ .fault f) ∧
    (∀ r, exec i s = .refused r →
      (r = .accessPastTop ∧ ∃ q ∈ operandRanges i s.regs, q.2 ≠ 0 ∧ 2 ^ 32 < q.1 + q.2) ∨
      (r = .accessNotAdmitted ∧ ∃ a ∈ accessesOf i s.regs, a.len ≠ 0 ∧ a ∈ s.denied) ∨
      (r = .contextAlreadyReady ∧ ∃ l ∈ initTargets i, (s.ctxAt l).state = .ready) ∨
      (r = .spanPastTop ∧ isXts i = true ∧ 2 ^ 32 < s.regs.a3.toNat + s.regs.a1.toNat) ∨
      (r = .partialOverlap ∧ isXts i = true ∧ s.regs.a0 ≠ s.regs.a2 ∧
        s.regs.a0.toNat < s.regs.a2.toNat + s.regs.a1.toNat ∧ s.regs.a2.toNat < s.regs.a0.toNat + s.regs.a1.toNat)) ∧
    (s.Passes i → (∃ q ∈ operandRanges i s.regs, q.2 ≠ 0 ∧ 2 ^ 32 < q.1 + q.2) → exec i s = .refused .accessPastTop)

/-- Which command can end with which code (60_exceptions.md R242, the spec's own inference "from the command rules of files 40
to 45"): no command ends with a code that its row does not have, and an illegal word ends with INVALID_ARGS alone. -/
def Obligations.CommandsEndWithTheirCodes : Prop :=
  (∀ (i : Instr) (s t : State), exec i s = .next t → ∃ c ∈ mayEndWith i, t.status = c.word) ∧
  (∀ (w : Word) (e : Illegal) (s t : State), decode w = .error e → launchWord w s = .next t →
    t.status = Status.invalidArgs.word)

/-- STATUS holds a code of the closed enum after every command, in bits 2:0 with the rest zero, and keeps it until the next
command ends: no other host access writes it, the host's write of it included, but a reset (10_state.md R22). -/
def Obligations.StatusHoldsACode : Prop :=
  (∀ (w : Word) (s t : State), launchWord w s = .next t → t.status.toNat ≤ 4) ∧
  (∀ (h : HostAccess) (s t : State), (∀ w, h ≠ .writeReg .cmd w ∧ h ≠ .cmdReset w) → h ≠ .reset →
    hostAccess h s = .next t → t.status = s.status)

/-- RESULT: the answer of the two `*_IS_INIT` commands, 1 or 0; no other command writes it, an illegal one included, and a host
write is ignored (10_state.md R24). -/
def Obligations.ResultIsWrittenByIsInitOnly : Prop :=
  (∀ (c : Nat) (s t : State), exec (.bcIsInit c) s = .next t →
    t.result = if c < Config.nbc ∧ (s.ctxAt (.bc c)).state = .ready then 1 else 0) ∧
  (∀ (j : Nat) (s t : State), exec (.xtsIsInit j) s = .next t →
    t.result = if j < Config.nxc ∧ (s.ctxAt (.xcData j)).state = .ready ∧ (s.ctxAt (.xcTweak j)).state = .ready then 1 else 0) ∧
  (∀ (w : Word) (s t : State), (∀ i, decode w = .ok i → isIsInit i = false) → launchWord w s = .next t → t.result = s.result) ∧
  (∀ (h : HostAccess) (s t : State), (∀ w, h ≠ .writeReg .cmd w ∧ h ≠ .cmdReset w) → h ≠ .reset →
    hostAccess h s = .next t → t.result = s.result) ∧
  (∀ (v : Word) (s : State), hostAccess (.writeReg .result v) s = .next s)

/-- No command writes an operand register or `DEVKEY` (10_state.md R20, R30, R34), nor what belongs to the outside world. -/
def Obligations.CommandsKeepOperandsAndDevkey : Prop :=
  ∀ (i : Instr) (s t : State), exec i s = .next t → SameOutside s t

/-- A command that ends with INVALID_ARGS or CTX_NOT_INITIALIZED has changed STATUS alone (60_exceptions.md R247); the two
`*_IS_INIT` commands also write RESULT. -/
def Obligations.RejectedCommandChangesStatusAlone : Prop :=
  ∀ (i : Instr) (s t : State), exec i s = .next t →
    t.status = Status.invalidArgs.word ∨ t.status = Status.ctxNotInitialized.word →
    (isIsInit i = false → t = { s with status := t.status }) ∧
    (isIsInit i = true → t = { s with status := t.status, result := 0 })

/-- The verify commands write no memory and no context, however they end (R247, 44_data_auth.md R203, R205). -/
def Obligations.VerifyCommandsWriteStatusAlone : Prop :=
  ∀ (c : Nat) (i : Instr) (s t : State), i = .daVerify c ∨ i = .daVerifyEasy → exec i s = .next t → OnlyStatus s t

/-- What FAILURE leaves: bytes outside the output range unchanged, an init command's target UNINIT, all other contexts and
RESULT unchanged (60_exceptions.md R247). -/
def Obligations.FailureLeavesTheRest : Prop :=
  ∀ (i : Instr) (s t : State), exec i s = .next t → t.status = Status.failure.word →
    (∀ p, (∀ a n, outRange i s.regs = some (a, n) → p < a ∨ a + n ≤ p) → t.mem.get p = s.mem.get p) ∧
    (∀ l ∈ initTargets i, (t.ctxAt l).state = .uninit) ∧
    (∀ c, .bc c ∉ initTargets i → t.ctxAt (.bc c) = s.ctxAt (.bc c)) ∧
    (∀ j, .xcData j ∉ initTargets i → t.ctxAt (.xcData j) = s.ctxAt (.xcData j) ∧ t.ctxAt (.xcTweak j) = s.ctxAt (.xcTweak j)) ∧
    t.result = s.result

/-- Every exit wipes: the transient contexts and the key buffers are clean after a command, however it ended, if they were
before it (10_state.md R31, 60_exceptions.md R246). -/
def Obligations.KeyBuffersAreWipedOnEveryExit : Prop :=
  ∀ (i : Instr) (s t : State), s.hidden.Quiet → exec i s = .next t → t.hidden.Quiet

/-- Between commands the two inner contexts of an XTS slot are both READY or both UNINIT: so after reset, and every step
keeps it: the spec's own inference (10_state.md R28 "[derived: from ... the only rules that write them]"). -/
def Obligations.XtsInnerContextsAgree : Prop :=
  (∀ j, (State.reset.ctxAt (.xcData j)).state = (State.reset.ctxAt (.xcTweak j)).state) ∧
  (∀ s t : State, (∀ j, (s.ctxAt (.xcData j)).state = (s.ctxAt (.xcTweak j)).state) → step s = .next t →
    ∀ j, (t.ctxAt (.xcData j)).state = (t.ctxAt (.xcTweak j)).state) ∧
  (∀ (s : State) (j : Nat), s.xcReady j = true ↔
    (s.ctxAt (.xcData j)).state = .ready ∧ (s.ctxAt (.xcTweak j)).state = .ready)

/-- The invariant between commands holds after reset (10_state.md R35; the values of STATUS, RESULT and memory there are the
model's, logs 4 and 5). -/
def Obligations.InvariantHoldsAtReset : Prop := State.reset.Inv

/-- Every step keeps the invariant: the memory's canonical form, no transient state, legal contexts, a code in STATUS and a
bit in RESULT (10_state.md R22, R24, R26, R28, R31). -/
def Obligations.StepKeepsTheInvariant : Prop := ∀ s t : State, s.Inv → step s = .next t → t.Inv

/-- A command's outcome does not depend on the operand registers that its format does not name (30_encoding.md R82, R83): with
those changed it does the same. -/
def Obligations.UnnamedRegistersAreNotRead : Prop :=
  ∀ (i : Instr) (s : State) (q : OperandRegs), (∀ r ∈ operandRegs i, q.get r = s.regs.get r) →
    exec i { s with regs := q } = mapNext (fun t => { t with regs := q }) (exec i s)

/-- No command's behaviour depends on STATUS or RESULT (10_state.md R32, 60_exceptions.md R248): with other values in them the
outcome is the same, RESULT keeping its value where the command does not write it. -/
def Obligations.StatusAndResultAreNotRead : Prop :=
  ∀ (i : Instr) (s : State) (a b : Word),
    exec i { s with status := a, result := b } =
      mapNext (fun t => { t with result := if isIsInit i = true then t.result else b }) (exec i s)

/-- The device-unique key is used only through a device context or a derivation (10_state.md R25, R30): the lifecycle commands
and CMAC_KEY do the same under any `DEVKEY`, and so do the commands on slots with a loaded key. -/
def Obligations.DevkeyIsUsedThroughKeyofOnly : Prop :=
  ∀ (i : Instr) (s : State) (k : Block),
    (match i with
      | .bcInitKey _ | .bcInitDevkey _ | .bcCleanup _ | .bcIsInit _ | .xtsInit _ | .xtsCleanup _ | .xtsIsInit _ | .cmacKey => True
      | .cmac c | .daCompute c | .daVerify c => (s.ctxAt (.bc c)).ksel = .loaded
      | .xtsEnc j | .xtsDec j | .meEnc j | .meDec j =>
        (s.ctxAt (.xcData j)).ksel = .loaded ∧ (s.ctxAt (.xcTweak j)).ksel = .loaded
      | .cmacDevkey | .kdfDerive | .daInit _ | .daComputeEasy | .daVerifyEasy | .meInit _ => False) →
    exec i { s with devKey := k } = mapNext (fun t => { t with devKey := k }) (exec i s)

/-- A reset that arrives while a command runs: every context UNINIT, no key material but `DEVKEY`,
memory outside the command's output range unchanged (70_reset_and_hazards.md R271). How the reset is brought in is the model's
choice (log 17). -/
def Obligations.ResetDuringACommandEndsIt : Prop :=
  ∀ (w : Word) (i : Instr) (s u : State), decode w = .ok i → exec i s = .next u →
    ∃ t, hostAccess (.cmdReset w) s = .next t ∧
      (∀ l, t.ctxAt l = { state := .uninit, ksel := .loaded, key := 0 }) ∧ t.hidden = .clear ∧ t.devKey = s.devKey ∧
      ∀ p, (∀ a n, outRange i s.regs = some (a, n) → p < a ∨ a + n ≤ p) → t.mem.get p = s.mem.get p

/-- Accesses and primitive calls come in the order of the pseudocode, and the first that goes wrong ends the command
(20_memory.md R58, R60; 40_context_lifecycle.md R112; 60_exceptions.md R244). For every command whose checks pass and whose
ranges lie inside the address space: the outcome is that of its row of accesses and calls: refused at an access that is not
admitted, FAILURE at a call that fails, else OK or, of a comparison, INVALID_TAG, after just the calls made. Hence, said
without the row: whichever of its calls is the first to fail, a command whose accesses are admitted ends with FAILURE; and any
one access that is not admitted refuses a command whose calls do not fail. A string is asked for as one access (log 14); that a
range past the top is refused before all this is the model's reading (log 15), so its absence is a premise. -/
def Obligations.AccessesAndCallsComeInOrder : Prop :=
  ∀ (i : Instr) (s : State), s.Passes i → s.InSpace i →
    (match verdict s.denied (eventsOf i s.regs) s.primFaults s.primCalls with
      | .ended f n => ∃ t, exec i s = .next t ∧ t.primFaults = f ∧ t.primCalls = n ∧
          (t.status = Status.ok.word ∨ (.invalidTag ∈ mayEndWith i ∧ t.status = Status.invalidTag.word))
      | .failed f n => ∃ t, exec i s = .next t ∧ t.primFaults = f ∧ t.primCalls = n ∧ t.status = Status.failure.word
      | .refused => exec i s = .refused .accessNotAdmitted) ∧
    (∀ n rest, n < callsOf i s.regs → s.AdmitsAll (accessesOf i s.regs) → s.primFaults = List.replicate n false ++ true :: rest →
      ∃ t, exec i s = .next t ∧ t.status = Status.failure.word ∧ t.primCalls = s.primCalls + n + 1) ∧
    (s.NoFault (callsOf i s.regs) → ¬ s.AdmitsAll (accessesOf i s.regs) → exec i s = .refused .accessNotAdmitted)

end Statements
end

