-- ==== Sys2Proof/Laws/Bytes.lean ====
section
/-! SUPPORT. The laws of byte strings and blocks: conversions are inverse to each other, and their lengths. -/

namespace Sys2Proof.Machine

@[simp] theorem length_leBytes (n v : Nat) : (leBytes n v).length = n := by
  induction n generalizing v with
  | zero => rfl
  | succ n ih => simp [leBytes, ih]

@[simp] theorem length_beBytes (n v : Nat) : (beBytes n v).length = n := by simp [beBytes]

@[simp] theorem length_bytesOfBlock (x : Block) : (bytesOfBlock x).length = 16 := by simp [bytesOfBlock]

@[simp] theorem length_zeroBytes (n : Nat) : (zeroBytes n).length = n := by simp [zeroBytes]

theorem intLE_lt (bs : List Byte) : intLE bs < 256 ^ bs.length := by
  induction bs with
  | nil => simp [intLE]
  | cons b bs ih =>
    simp only [intLE, List.length_cons, Nat.pow_succ]
    have := b.isLt
    omega

/-- `int_le(LE_n(v)) = v mod 2^(8n)`. -/
theorem intLE_leBytes (n v : Nat) : intLE (leBytes n v) = v % 256 ^ n := by
  induction n generalizing v with
  | zero => simp [leBytes, intLE, Nat.mod_one]
  | succ n ih =>
    rw [show (256 : Nat) ^ (n + 1) = 256 * 256 ^ n by ring, Nat.mod_mul, leBytes, intLE, ih]
    rfl

/-- `LE_n(int_le(S)) = S` for a string of length `n`. -/
theorem leBytes_intLE (bs : List Byte) : leBytes bs.length (intLE bs) = bs := by
  induction bs with
  | nil => rfl
  | cons b bs ih =>
    have hb := b.isLt
    simp only [List.length_cons, leBytes, intLE]
    have hdiv : (b.toNat + 256 * intLE bs) / 256 = intLE bs := by omega
    rw [hdiv, ih]
    congr 1
    apply BitVec.eq_of_toNat_eq
    simp only [BitVec.toNat_ofNat]
    omega

/-- A block is the block of its sixteen bytes. -/
@[simp] theorem blockOfBytes_bytesOfBlock (x : Block) : blockOfBytes (bytesOfBlock x) = x := by
  apply BitVec.eq_of_toNat_eq
  have h := intLE_leBytes 16 x.toNat
  simp only [blockOfBytes, bytesOfBlock, beBytes, intBE, List.reverse_reverse, h, BitVec.toNat_ofNat]
  have := x.isLt
  norm_num at this ⊢
  omega

/-- Sixteen bytes are the bytes of their block. -/
theorem bytesOfBlock_blockOfBytes {bs : List Byte} (h : bs.length = 16) : bytesOfBlock (blockOfBytes bs) = bs := by
  have hlt := intLE_lt bs.reverse
  rw [List.length_reverse, h] at hlt
  have hn : (blockOfBytes bs).toNat = intLE bs.reverse := by
    simp only [blockOfBytes, intBE, BitVec.toNat_ofNat]
    exact Nat.mod_eq_of_lt (by norm_num at hlt ⊢; omega)
  have := leBytes_intLE bs.reverse
  rw [List.length_reverse, h] at this
  simp [bytesOfBlock, beBytes, hn, this]

/-- Equal byte strings, equal blocks: a block comparison is a comparison of all sixteen bytes (44_data_auth.md R206). -/
theorem bytesOfBlock_inj {x y : Block} (h : bytesOfBlock x = bytesOfBlock y) : x = y := by
  rw [← blockOfBytes_bytesOfBlock x, h, blockOfBytes_bytesOfBlock]

@[simp] theorem length_bufStore {buf : List Byte} {off : Nat} {bs : List Byte} (h : off + bs.length ≤ buf.length) :
    (bufStore buf off bs).length = buf.length := by
  simp [bufStore]; omega

end Sys2Proof.Machine
end

