-- ==== Sys2Proof/Laws/State.lean ====
section
/-! SUPPORT. One lemma per field per update of State, and the laws of the context places. -/

namespace Sys2Proof.Machine

/-! ### exit -/

@[simp] theorem State.exit_regs (s : State) (c : Status) : (s.exit c).regs = s.regs := rfl
@[simp] theorem State.exit_status (s : State) (c : Status) : (s.exit c).status = c.word := rfl
@[simp] theorem State.exit_result (s : State) (c : Status) : (s.exit c).result = s.result := rfl
@[simp] theorem State.exit_bc (s : State) (c : Status) : (s.exit c).bc = s.bc := rfl
@[simp] theorem State.exit_xc (s : State) (c : Status) : (s.exit c).xc = s.xc := rfl
@[simp] theorem State.exit_devKey (s : State) (c : Status) : (s.exit c).devKey = s.devKey := rfl
@[simp] theorem State.exit_hidden (s : State) (c : Status) : (s.exit c).hidden = s.hidden := rfl
@[simp] theorem State.exit_mem (s : State) (c : Status) : (s.exit c).mem = s.mem := rfl
@[simp] theorem State.exit_bus (s : State) (c : Status) : (s.exit c).bus = s.bus := rfl
@[simp] theorem State.exit_busData (s : State) (c : Status) : (s.exit c).busData = s.busData := rfl
@[simp] theorem State.exit_primFaults (s : State) (c : Status) : (s.exit c).primFaults = s.primFaults := rfl
@[simp] theorem State.exit_primCalls (s : State) (c : Status) : (s.exit c).primCalls = s.primCalls := rfl
@[simp] theorem State.exit_draws (s : State) (c : Status) : (s.exit c).draws = s.draws := rfl
@[simp] theorem State.exit_denied (s : State) (c : Status) : (s.exit c).denied = s.denied := rfl

/-! ### drawFault -/

@[simp] theorem State.drawFault_regs (s : State) : s.drawFault.regs = s.regs := rfl
@[simp] theorem State.drawFault_status (s : State) : s.drawFault.status = s.status := rfl
@[simp] theorem State.drawFault_result (s : State) : s.drawFault.result = s.result := rfl
@[simp] theorem State.drawFault_bc (s : State) : s.drawFault.bc = s.bc := rfl
@[simp] theorem State.drawFault_xc (s : State) : s.drawFault.xc = s.xc := rfl
@[simp] theorem State.drawFault_devKey (s : State) : s.drawFault.devKey = s.devKey := rfl
@[simp] theorem State.drawFault_hidden (s : State) : s.drawFault.hidden = s.hidden := rfl
@[simp] theorem State.drawFault_mem (s : State) : s.drawFault.mem = s.mem := rfl
@[simp] theorem State.drawFault_bus (s : State) : s.drawFault.bus = s.bus := rfl
@[simp] theorem State.drawFault_busData (s : State) : s.drawFault.busData = s.busData := rfl
@[simp] theorem State.drawFault_primFaults (s : State) : s.drawFault.primFaults = s.primFaults.tail := rfl
@[simp] theorem State.drawFault_primCalls (s : State) : s.drawFault.primCalls = s.primCalls + 1 := rfl
@[simp] theorem State.drawFault_draws (s : State) : s.drawFault.draws = s.draws := rfl
@[simp] theorem State.drawFault_denied (s : State) : s.drawFault.denied = s.denied := rfl

/-! ### setResult -/

@[simp] theorem State.setResult_regs (s : State) (b : Bool) : (s.setResult b).regs = s.regs := rfl
@[simp] theorem State.setResult_status (s : State) (b : Bool) : (s.setResult b).status = s.status := rfl
@[simp] theorem State.setResult_result (s : State) (b : Bool) : (s.setResult b).result = if b then 1 else 0 := rfl
@[simp] theorem State.setResult_bc (s : State) (b : Bool) : (s.setResult b).bc = s.bc := rfl
@[simp] theorem State.setResult_xc (s : State) (b : Bool) : (s.setResult b).xc = s.xc := rfl
@[simp] theorem State.setResult_devKey (s : State) (b : Bool) : (s.setResult b).devKey = s.devKey := rfl
@[simp] theorem State.setResult_hidden (s : State) (b : Bool) : (s.setResult b).hidden = s.hidden := rfl
@[simp] theorem State.setResult_mem (s : State) (b : Bool) : (s.setResult b).mem = s.mem := rfl
@[simp] theorem State.setResult_bus (s : State) (b : Bool) : (s.setResult b).bus = s.bus := rfl
@[simp] theorem State.setResult_busData (s : State) (b : Bool) : (s.setResult b).busData = s.busData := rfl
@[simp] theorem State.setResult_primFaults (s : State) (b : Bool) : (s.setResult b).primFaults = s.primFaults := rfl
@[simp] theorem State.setResult_primCalls (s : State) (b : Bool) : (s.setResult b).primCalls = s.primCalls := rfl
@[simp] theorem State.setResult_draws (s : State) (b : Bool) : (s.setResult b).draws = s.draws := rfl
@[simp] theorem State.setResult_denied (s : State) (b : Bool) : (s.setResult b).denied = s.denied := rfl

/-! ### wipeSubkeys -/

@[simp] theorem State.wipeSubkeys_regs (s : State) : s.wipeSubkeys.regs = s.regs := rfl
@[simp] theorem State.wipeSubkeys_status (s : State) : s.wipeSubkeys.status = s.status := rfl
@[simp] theorem State.wipeSubkeys_result (s : State) : s.wipeSubkeys.result = s.result := rfl
@[simp] theorem State.wipeSubkeys_bc (s : State) : s.wipeSubkeys.bc = s.bc := rfl
@[simp] theorem State.wipeSubkeys_xc (s : State) : s.wipeSubkeys.xc = s.xc := rfl
@[simp] theorem State.wipeSubkeys_devKey (s : State) : s.wipeSubkeys.devKey = s.devKey := rfl
@[simp] theorem State.wipeSubkeys_hidden (s : State) : s.wipeSubkeys.hidden = { s.hidden with k0 := 0, k1 := 0, k2 := 0 } := rfl
@[simp] theorem State.wipeSubkeys_mem (s : State) : s.wipeSubkeys.mem = s.mem := rfl
@[simp] theorem State.wipeSubkeys_bus (s : State) : s.wipeSubkeys.bus = s.bus := rfl
@[simp] theorem State.wipeSubkeys_busData (s : State) : s.wipeSubkeys.busData = s.busData := rfl
@[simp] theorem State.wipeSubkeys_primFaults (s : State) : s.wipeSubkeys.primFaults = s.primFaults := rfl
@[simp] theorem State.wipeSubkeys_primCalls (s : State) : s.wipeSubkeys.primCalls = s.primCalls := rfl
@[simp] theorem State.wipeSubkeys_draws (s : State) : s.wipeSubkeys.draws = s.draws := rfl
@[simp] theorem State.wipeSubkeys_denied (s : State) : s.wipeSubkeys.denied = s.denied := rfl

/-! ### wipeKbuf -/

@[simp] theorem State.wipeKbuf_regs (s : State) : s.wipeKbuf.regs = s.regs := rfl
@[simp] theorem State.wipeKbuf_status (s : State) : s.wipeKbuf.status = s.status := rfl
@[simp] theorem State.wipeKbuf_result (s : State) : s.wipeKbuf.result = s.result := rfl
@[simp] theorem State.wipeKbuf_bc (s : State) : s.wipeKbuf.bc = s.bc := rfl
@[simp] theorem State.wipeKbuf_xc (s : State) : s.wipeKbuf.xc = s.xc := rfl
@[simp] theorem State.wipeKbuf_devKey (s : State) : s.wipeKbuf.devKey = s.devKey := rfl
@[simp] theorem State.wipeKbuf_hidden (s : State) : s.wipeKbuf.hidden = { s.hidden with kbuf := zeroBytes Config.kdfBufCap } := rfl
@[simp] theorem State.wipeKbuf_mem (s : State) : s.wipeKbuf.mem = s.mem := rfl
@[simp] theorem State.wipeKbuf_bus (s : State) : s.wipeKbuf.bus = s.bus := rfl
@[simp] theorem State.wipeKbuf_busData (s : State) : s.wipeKbuf.busData = s.busData := rfl
@[simp] theorem State.wipeKbuf_primFaults (s : State) : s.wipeKbuf.primFaults = s.primFaults := rfl
@[simp] theorem State.wipeKbuf_primCalls (s : State) : s.wipeKbuf.primCalls = s.primCalls := rfl
@[simp] theorem State.wipeKbuf_draws (s : State) : s.wipeKbuf.draws = s.draws := rfl
@[simp] theorem State.wipeKbuf_denied (s : State) : s.wipeKbuf.denied = s.denied := rfl

/-! ### wipeDkey -/

@[simp] theorem State.wipeDkey_regs (s : State) : s.wipeDkey.regs = s.regs := rfl
@[simp] theorem State.wipeDkey_status (s : State) : s.wipeDkey.status = s.status := rfl
@[simp] theorem State.wipeDkey_result (s : State) : s.wipeDkey.result = s.result := rfl
@[simp] theorem State.wipeDkey_bc (s : State) : s.wipeDkey.bc = s.bc := rfl
@[simp] theorem State.wipeDkey_xc (s : State) : s.wipeDkey.xc = s.xc := rfl
@[simp] theorem State.wipeDkey_devKey (s : State) : s.wipeDkey.devKey = s.devKey := rfl
@[simp] theorem State.wipeDkey_hidden (s : State) : s.wipeDkey.hidden = { s.hidden with dkey := zeroBytes Config.dkeyBytes } := rfl
@[simp] theorem State.wipeDkey_mem (s : State) : s.wipeDkey.mem = s.mem := rfl
@[simp] theorem State.wipeDkey_bus (s : State) : s.wipeDkey.bus = s.bus := rfl
@[simp] theorem State.wipeDkey_busData (s : State) : s.wipeDkey.busData = s.busData := rfl
@[simp] theorem State.wipeDkey_primFaults (s : State) : s.wipeDkey.primFaults = s.primFaults := rfl
@[simp] theorem State.wipeDkey_primCalls (s : State) : s.wipeDkey.primCalls = s.primCalls := rfl
@[simp] theorem State.wipeDkey_draws (s : State) : s.wipeDkey.draws = s.draws := rfl
@[simp] theorem State.wipeDkey_denied (s : State) : s.wipeDkey.denied = s.denied := rfl

/-! ### resetEvent -/

@[simp] theorem State.resetEvent_regs (s : State) : s.resetEvent.regs = .zero := rfl
@[simp] theorem State.resetEvent_status (s : State) : s.resetEvent.status = 0 := rfl
@[simp] theorem State.resetEvent_result (s : State) : s.resetEvent.result = 0 := rfl
@[simp] theorem State.resetEvent_bc (s : State) : s.resetEvent.bc = Vector.replicate Config.nbc .clear := rfl
@[simp] theorem State.resetEvent_xc (s : State) : s.resetEvent.xc = Vector.replicate Config.nxc .clear := rfl
@[simp] theorem State.resetEvent_devKey (s : State) : s.resetEvent.devKey = s.devKey := rfl
@[simp] theorem State.resetEvent_hidden (s : State) : s.resetEvent.hidden = .clear := rfl
@[simp] theorem State.resetEvent_mem (s : State) : s.resetEvent.mem = s.mem := rfl
@[simp] theorem State.resetEvent_bus (s : State) : s.resetEvent.bus = s.bus := rfl
@[simp] theorem State.resetEvent_busData (s : State) : s.resetEvent.busData = s.busData := rfl
@[simp] theorem State.resetEvent_primFaults (s : State) : s.resetEvent.primFaults = s.primFaults := rfl
@[simp] theorem State.resetEvent_primCalls (s : State) : s.resetEvent.primCalls = s.primCalls := rfl
@[simp] theorem State.resetEvent_draws (s : State) : s.resetEvent.draws = s.draws := rfl
@[simp] theorem State.resetEvent_denied (s : State) : s.resetEvent.denied = s.denied := rfl

/-! ### setCtx -/

@[simp] theorem State.setCtx_regs (s : State) (l : CtxLoc) (c : BlockCtx) : (s.setCtx l c).regs = s.regs := by
  cases l <;> rfl

@[simp] theorem State.setCtx_status (s : State) (l : CtxLoc) (c : BlockCtx) : (s.setCtx l c).status = s.status := by
  cases l <;> rfl

@[simp] theorem State.setCtx_result (s : State) (l : CtxLoc) (c : BlockCtx) : (s.setCtx l c).result = s.result := by
  cases l <;> rfl

@[simp] theorem State.setCtx_devKey (s : State) (l : CtxLoc) (c : BlockCtx) : (s.setCtx l c).devKey = s.devKey := by
  cases l <;> rfl

@[simp] theorem State.setCtx_mem (s : State) (l : CtxLoc) (c : BlockCtx) : (s.setCtx l c).mem = s.mem := by
  cases l <;> rfl

@[simp] theorem State.setCtx_bus (s : State) (l : CtxLoc) (c : BlockCtx) : (s.setCtx l c).bus = s.bus := by
  cases l <;> rfl

@[simp] theorem State.setCtx_busData (s : State) (l : CtxLoc) (c : BlockCtx) : (s.setCtx l c).busData = s.busData := by
  cases l <;> rfl

@[simp] theorem State.setCtx_primFaults (s : State) (l : CtxLoc) (c : BlockCtx) : (s.setCtx l c).primFaults = s.primFaults := by
  cases l <;> rfl

@[simp] theorem State.setCtx_primCalls (s : State) (l : CtxLoc) (c : BlockCtx) : (s.setCtx l c).primCalls = s.primCalls := by
  cases l <;> rfl

@[simp] theorem State.setCtx_draws (s : State) (l : CtxLoc) (c : BlockCtx) : (s.setCtx l c).draws = s.draws := by
  cases l <;> rfl

@[simp] theorem State.setCtx_denied (s : State) (l : CtxLoc) (c : BlockCtx) : (s.setCtx l c).denied = s.denied := by
  cases l <;> rfl

/-! ### scribble -/

@[simp] theorem State.scribble_regs (s : State) (o : Option (Nat × Nat)) : (s.scribble o).regs = s.regs := by
  cases o <;> rfl

@[simp] theorem State.scribble_status (s : State) (o : Option (Nat × Nat)) : (s.scribble o).status = s.status := by
  cases o <;> rfl

@[simp] theorem State.scribble_result (s : State) (o : Option (Nat × Nat)) : (s.scribble o).result = s.result := by
  cases o <;> rfl

@[simp] theorem State.scribble_bc (s : State) (o : Option (Nat × Nat)) : (s.scribble o).bc = s.bc := by
  cases o <;> rfl

@[simp] theorem State.scribble_xc (s : State) (o : Option (Nat × Nat)) : (s.scribble o).xc = s.xc := by
  cases o <;> rfl

@[simp] theorem State.scribble_devKey (s : State) (o : Option (Nat × Nat)) : (s.scribble o).devKey = s.devKey := by
  cases o <;> rfl

@[simp] theorem State.scribble_hidden (s : State) (o : Option (Nat × Nat)) : (s.scribble o).hidden = s.hidden := by
  cases o <;> rfl

@[simp] theorem State.scribble_bus (s : State) (o : Option (Nat × Nat)) : (s.scribble o).bus = s.bus := by
  cases o <;> rfl

@[simp] theorem State.scribble_busData (s : State) (o : Option (Nat × Nat)) : (s.scribble o).busData = s.busData := by
  cases o <;> rfl

@[simp] theorem State.scribble_primFaults (s : State) (o : Option (Nat × Nat)) : (s.scribble o).primFaults = s.primFaults := by
  cases o <;> rfl

@[simp] theorem State.scribble_primCalls (s : State) (o : Option (Nat × Nat)) : (s.scribble o).primCalls = s.primCalls := by
  cases o <;> rfl

@[simp] theorem State.scribble_denied (s : State) (o : Option (Nat × Nat)) : (s.scribble o).denied = s.denied := by
  cases o <;> rfl

theorem State.scribble_none (s : State) : s.scribble none = s := rfl

/-! ### The context places -/

/-- The place exists: its slot index is in range (40_context_lifecycle.md R119). -/
def CtxLoc.Exists : CtxLoc → Prop
  | .bc i => i < Config.nbc
  | .xcData j => j < Config.nxc
  | .xcTweak j => j < Config.nxc
  | .tbc0 => True
  | .tbc1 => True

/-- A place is decided by the slots and the transient contexts. -/
theorem State.ctxAt_congr {s t : State} (hb : t.bc = s.bc) (hx : t.xc = s.xc) (h0 : t.hidden.tbc0 = s.hidden.tbc0)
    (h1 : t.hidden.tbc1 = s.hidden.tbc1) (l : CtxLoc) : t.ctxAt l = s.ctxAt l := by
  cases l <;> simp [State.ctxAt, hb, hx, h0, h1]

@[simp] theorem State.ctxAt_drawFault (s : State) (l : CtxLoc) : s.drawFault.ctxAt l = s.ctxAt l := by cases l <;> rfl

@[simp] theorem State.ctxAt_exit (s : State) (c : Status) (l : CtxLoc) : (s.exit c).ctxAt l = s.ctxAt l := by
  cases l <;> rfl

/-- A place holds what was put there. -/
theorem State.ctxAt_setCtx_self (s : State) {l : CtxLoc} (h : l.Exists) (c : BlockCtx) : (s.setCtx l c).ctxAt l = c := by
  cases l <;> simp_all [State.ctxAt, State.setCtx, CtxLoc.Exists]

/-- Any other place is unchanged. -/
theorem State.ctxAt_setCtx_other (s : State) {l l' : CtxLoc} (h : l' ≠ l) (c : BlockCtx) :
    (s.setCtx l c).ctxAt l' = s.ctxAt l' := by
  cases l <;> cases l' <;>
    simp_all [State.ctxAt, State.setCtx, Vector.getElem?_setIfInBounds] <;> grind

/-- The key of a context depends on `DEVKEY` alone (10_state.md R25). -/
theorem State.keyOf_congr {s t : State} (h : t.devKey = s.devKey) (c : BlockCtx) : t.keyOf c = s.keyOf c := by
  simp [State.keyOf, h]

@[simp] theorem State.keyOf_loaded (s : State) (q : CtxState) (k : Block) : s.keyOf ⟨q, .loaded, k⟩ = k := rfl

@[simp] theorem State.keyOf_device (s : State) (q : CtxState) (k : Block) : s.keyOf ⟨q, .device, k⟩ = s.devKey := rfl

@[simp] theorem OperandRegs.get_set_self (r : OperandRegs) (n : OpReg) (v : Word) : (r.set n v).get n = v := by
  cases n <;> rfl

theorem OperandRegs.get_set_other (r : OperandRegs) {n m : OpReg} (h : m ≠ n) (v : Word) :
    (r.set n v).get m = r.get m := by
  cases n <;> cases m <;> first | rfl | exact absurd rfl h

end Sys2Proof.Machine
end

