-- ==== Sys2Proof/Laws/Proc.lean ====
section
/-! SUPPORT. What a procedure of the pseudocode can do: its equations, and `Meets`, a statement about both of its ends that
is taken apart along the pseudocode. -/

namespace Sys2Proof.Machine

/-- Started in `s`, `p` ends with a value that meets `Q`, or with a raised status that meets `E`, or is refused at an access
(which `Asks` of Laws/Asks.lean speaks of). -/
def Meets {α : Type} (p : Proc α) (s : State) (Q : α → State → Prop) (E : Status → State → Prop) : Prop :=
  match p s with
  | .ok a t => Q a t
  | .error (.raise c) t => E c t
  | .error (.refuse _) _ => True

variable {α β : Type} {s : State} {Q : α → State → Prop} {E : Status → State → Prop}

theorem Meets.of_ok {p : Proc α} {a : α} {t : State} (h : p s = .ok a t) (hq : Q a t) : Meets p s Q E := by
  simp only [Meets, h]; exact hq

theorem Meets.ok {p : Proc α} {a : α} {t : State} (h : Meets p s Q E) (hp : p s = .ok a t) : Q a t := by
  simpa only [Meets, hp] using h

theorem Meets.error {p : Proc α} {c : Status} {t : State} (h : Meets p s Q E) (hp : p s = .error (.raise c) t) : E c t := by
  simpa only [Meets, hp] using h

/-- A statement about both ends may be weakened at each. -/
theorem Meets.mono {p : Proc α} {Q' : α → State → Prop} {E' : Status → State → Prop} (h : Meets p s Q E)
    (hq : ∀ a t, Q a t → Q' a t) (he : ∀ c t, E c t → E' c t) : Meets p s Q' E' := by
  unfold Meets at *
  split at h
  · exact hq _ _ h
  · exact he _ _ h
  · trivial

/-- The rule of sequence. -/
theorem Meets.bind {p : Proc β} {f : β → Proc α} {R : β → State → Prop} (h : Meets p s R E)
    (hf : ∀ b t, R b t → Meets (f b) t Q E) : Meets (p >>= f) s Q E := by
  show match EStateM.bind p f s with
    | .ok a t => Q a t
    | .error (.raise c) t => E c t
    | .error (.refuse _) _ => True
  unfold EStateM.bind
  unfold Meets at h
  cases hp : p s with
  | ok b t => rw [hp] at h; exact hf b t h
  | error c t => rw [hp] at h; cases c <;> exact h

theorem pure_run (a : α) : (pure a : Proc α) s = .ok a s := rfl

theorem bind_run_ok {p : Proc β} {f : β → Proc α} {b : β} {t : State} (h : p s = .ok b t) : (p >>= f) s = f b t := by
  show EStateM.bind p f s = _
  simp only [EStateM.bind, h]

theorem bind_run_error {p : Proc β} {f : β → Proc α} {c : Halt} {t : State} (h : p s = .error c t) :
    (p >>= f) s = .error c t := by
  show EStateM.bind p f s = _
  simp only [EStateM.bind, h]

theorem onExit_run_ok {f : State → State} {p : Proc α} {a : α} {t : State} (h : p s = .ok a t) :
    onExit f p s = .ok a (f t) := by
  simp only [onExit, h]

theorem onExit_run_error {f : State → State} {p : Proc α} {c : Halt} {t : State} (h : p s = .error c t) :
    onExit f p s = .error c (f t) := by
  simp only [onExit, h]

theorem onRaise_run_ok {f : State → State} {p : Proc α} {a : α} {t : State} (h : p s = .ok a t) :
    onRaise f p s = .ok a t := by
  simp only [onRaise, h]

theorem onRaise_run_error {f : State → State} {p : Proc α} {c : Halt} {t : State} (h : p s = .error c t) :
    onRaise f p s = .error c (f t) := by
  simp only [onRaise, h]

theorem update_run (f : State → State) : update f s = .ok () (f s) := rfl

theorem updateHidden_run (f : Hidden → Hidden) : updateHidden f s = .ok () { s with hidden := f s.hidden } := rfl

theorem look_run (f : State → α) : look f s = .ok (f s) s := rfl

theorem State.admitsAccess_iff {a : Access} : s.admitsAccess a = true ↔ a.len = 0 ∨ a ∉ s.denied := by
  simp [State.admitsAccess]

/-- A read that the platform admits (20_memory.md R52). -/
theorem memRead_run {a n : Nat} (h : s.admitsAccess ⟨a, n, .read⟩ = true) : memRead a n s = .ok (s.mem.read a n) s := by
  have ha : ask ⟨a, n, .read⟩ s = .ok () s := by simp [ask, h]
  exact bind_run_ok ha

/-- A write that the platform admits (R53). -/
theorem memWrite_run {a : Nat} {bs : List Byte} (h : s.admitsAccess ⟨a, bs.length, .write⟩ = true) :
    memWrite a bs s = .ok () { s with mem := s.mem.write a bs } := by
  have ha : ask ⟨a, bs.length, .write⟩ s = .ok () s := by simp [ask, h]
  exact bind_run_ok ha

@[simp] theorem meets_pure (a : α) : Meets (pure a : Proc α) s Q E ↔ Q a s := Iff.rfl

@[simp] theorem meets_raise (c : Status) : Meets (raise c : Proc α) s Q E ↔ E c s := Iff.rfl

@[simp] theorem meets_bind (p : Proc β) (f : β → Proc α) :
    Meets (p >>= f) s Q E ↔ Meets p s (fun b t => Meets (f b) t Q E) E := by
  cases h : p s with
  | ok b t => simp only [Meets, bind_run_ok h, h]
  | error c t => cases c <;> simp only [Meets, bind_run_error h, h]

@[simp] theorem meets_onExit (f : State → State) (p : Proc α) :
    Meets (onExit f p) s Q E ↔ Meets p s (fun a t => Q a (f t)) (fun c t => E c (f t)) := by
  cases h : p s with
  | ok b t => simp only [Meets, onExit_run_ok h, h]
  | error c t => cases c <;> simp only [Meets, onExit_run_error h, h]

@[simp] theorem meets_onRaise (f : State → State) (p : Proc α) :
    Meets (onRaise f p) s Q E ↔ Meets p s Q (fun c t => E c (f t)) := by
  cases h : p s with
  | ok b t => simp only [Meets, onRaise_run_ok h, h]
  | error c t => cases c <;> simp only [Meets, onRaise_run_error h, h]

/-- The rule of "on every exit below". -/
theorem Meets.onExit {p : Proc α} {f : State → State} (h : Meets p s (fun a t => Q a (f t)) (fun c t => E c (f t))) :
    Meets (Machine.onExit f p) s Q E := (meets_onExit f p).mpr h

/-- The rule of "on any raise below". -/
theorem Meets.onRaise {p : Proc α} {f : State → State} (h : Meets p s Q (fun c t => E c (f t))) :
    Meets (Machine.onRaise f p) s Q E := (meets_onRaise f p).mpr h

@[simp] theorem meets_update {Q : Unit → State → Prop} (f : State → State) : Meets (update f) s Q E ↔ Q () (f s) := Iff.rfl

@[simp] theorem meets_updateHidden {Q : Unit → State → Prop} (f : Hidden → Hidden) :
    Meets (updateHidden f) s Q E ↔ Q () { s with hidden := f s.hidden } := Iff.rfl

@[simp] theorem meets_look (f : State → α) : Meets (look f) s Q E ↔ Q (f s) s := Iff.rfl

/-- Everything `MemRead` can do. -/
@[simp] theorem meets_memRead {Q : List Byte → State → Prop} (a n : Nat) :
    Meets (memRead a n) s Q E ↔ (s.admitsAccess ⟨a, n, .read⟩ = true → Q (s.mem.read a n) s) := by
  cases h : s.admitsAccess ⟨a, n, .read⟩ with
  | true => simp [Meets, memRead_run h]
  | false =>
    have ha : ask ⟨a, n, .read⟩ s = .error (.refuse .accessNotAdmitted) s := by simp [ask, h]
    have := bind_run_error (f := fun _ => look fun s => s.mem.read a n) ha
    simp [Meets, memRead, this]

/-- Everything `MemWrite` can do. -/
@[simp] theorem meets_memWrite {Q : Unit → State → Prop} (a : Nat) (bs : List Byte) :
    Meets (memWrite a bs) s Q E ↔
      (s.admitsAccess ⟨a, bs.length, .write⟩ = true → Q () { s with mem := s.mem.write a bs }) := by
  cases h : s.admitsAccess ⟨a, bs.length, .write⟩ with
  | true => simp [Meets, memWrite_run h]
  | false =>
    have ha : ask ⟨a, bs.length, .write⟩ s = .error (.refuse .accessNotAdmitted) s := by simp [ask, h]
    have := bind_run_error (f := fun _ => update fun s => { s with mem := s.mem.write a bs }) ha
    simp [Meets, memWrite, this]

/-- `MemRead` (20_memory.md R52). -/
theorem Meets.memRead {Q : List Byte → State → Prop} {a n : Nat} (h : Q (s.mem.read a n) s) :
    Meets (Machine.memRead a n) s Q E := (meets_memRead a n).mpr fun _ => h

/-- `MemWrite` (R53). -/
theorem Meets.memWrite {Q : Unit → State → Prop} {a : Nat} {bs : List Byte} (h : Q () { s with mem := s.mem.write a bs }) :
    Meets (Machine.memWrite a bs) s Q E := (meets_memWrite a bs).mpr fun _ => h

@[simp] theorem meets_ite (P : Prop) [Decidable P] (p q : Proc α) :
    Meets (if P then p else q) s Q E ↔ if P then Meets p s Q E else Meets q s Q E := by
  split <;> rfl

/-- Everything `BC_Enc` can do (R113). -/
theorem meets_bcEnc {P : Params} {l : CtxLoc} {x : Block} {Q : Block → State → Prop} :
    Meets (bcEnc P l x) s Q E ↔
      if (s.ctxAt l).state ≠ .ready then E .ctxNotInitialized s
      else if s.nextFault = true then E .failure s.drawFault
      else Q (P.enc (s.keyOf (s.ctxAt l)) x) s.drawFault := by
  unfold Meets bcEnc; split_ifs <;> rfl

/-- Everything `BC_Dec` can do (R114). -/
theorem meets_bcDec {P : Params} {l : CtxLoc} {x : Block} {Q : Block → State → Prop} :
    Meets (bcDec P l x) s Q E ↔
      if (s.ctxAt l).state ≠ .ready then E .ctxNotInitialized s
      else if s.nextFault = true then E .failure s.drawFault
      else Q (P.dec (s.keyOf (s.ctxAt l)) x) s.drawFault := by
  unfold Meets bcDec; split_ifs <;> rfl

/-- Everything `BC_Load` can do (R115). -/
theorem meets_bcLoad {l : CtxLoc} {k : Block} {Q : Unit → State → Prop} :
    Meets (bcLoad l k) s Q E ↔
      if s.nextFault = true then E .failure (s.drawFault.setCtx l .clear)
      else Q () (s.drawFault.setCtx l ⟨.ready, .loaded, k⟩) := by
  unfold Meets bcLoad; split_ifs <;> rfl

/-- Everything `BC_LoadDev` can do (R116). -/
theorem meets_bcLoadDev {l : CtxLoc} {Q : Unit → State → Prop} :
    Meets (bcLoadDev l) s Q E ↔
      if s.nextFault = true then E .failure (s.drawFault.setCtx l .clear)
      else Q () (s.drawFault.setCtx l ⟨.ready, .device, 0⟩) := by
  unfold Meets bcLoadDev; split_ifs <;> rfl

/-- `BC_Enc` on a ready context (R113). -/
theorem Meets.bcEnc {P : Params} {l : CtxLoc} {x : Block} {Q : Block → State → Prop} (hr : (s.ctxAt l).state = .ready)
    (he : s.nextFault = true → E .failure s.drawFault)
    (hq : s.nextFault = false → Q (P.enc (s.keyOf (s.ctxAt l)) x) s.drawFault) : Meets (Machine.bcEnc P l x) s Q E := by
  rw [meets_bcEnc, if_neg (by simp [hr])]
  split_ifs with h
  · exact he h
  · exact hq (by simpa using h)

/-- `BC_Dec` on a ready context (R114). -/
theorem Meets.bcDec {P : Params} {l : CtxLoc} {x : Block} {Q : Block → State → Prop} (hr : (s.ctxAt l).state = .ready)
    (he : s.nextFault = true → E .failure s.drawFault)
    (hq : s.nextFault = false → Q (P.dec (s.keyOf (s.ctxAt l)) x) s.drawFault) : Meets (Machine.bcDec P l x) s Q E := by
  rw [meets_bcDec, if_neg (by simp [hr])]
  split_ifs with h
  · exact he h
  · exact hq (by simpa using h)

/-- `BC_Load` (R115). -/
theorem Meets.bcLoad {l : CtxLoc} {k : Block} {Q : Unit → State → Prop}
    (he : s.nextFault = true → E .failure (s.drawFault.setCtx l .clear))
    (hq : s.nextFault = false → Q () (s.drawFault.setCtx l ⟨.ready, .loaded, k⟩)) : Meets (Machine.bcLoad l k) s Q E := by
  rw [meets_bcLoad]
  split_ifs with h
  · exact he h
  · exact hq (by simpa using h)

/-- `BC_LoadDev` (R116). -/
theorem Meets.bcLoadDev {l : CtxLoc} {Q : Unit → State → Prop}
    (he : s.nextFault = true → E .failure (s.drawFault.setCtx l .clear))
    (hq : s.nextFault = false → Q () (s.drawFault.setCtx l ⟨.ready, .device, 0⟩)) : Meets (Machine.bcLoadDev l) s Q E := by
  rw [meets_bcLoadDev]
  split_ifs with h
  · exact he h
  · exact hq (by simpa using h)

/-- `BC_Enc` on a ready context whose call does not fail (R113). -/
theorem bcEnc_ok (P : Params) {l : CtxLoc} (x : Block) (hr : (s.ctxAt l).state = .ready) (hf : s.nextFault = false) :
    bcEnc P l x s = .ok (P.enc (s.keyOf (s.ctxAt l)) x) s.drawFault := by
  simp [bcEnc, hr, hf]

/-- `BC_Dec` on a ready context whose call does not fail (R114). -/
theorem bcDec_ok (P : Params) {l : CtxLoc} (x : Block) (hr : (s.ctxAt l).state = .ready) (hf : s.nextFault = false) :
    bcDec P l x s = .ok (P.dec (s.keyOf (s.ctxAt l)) x) s.drawFault := by
  simp [bcDec, hr, hf]

/-- A `BC_Load` that does not fail (R115). -/
theorem bcLoad_ok (l : CtxLoc) (k : Block) (hf : s.nextFault = false) :
    bcLoad l k s = .ok () (s.drawFault.setCtx l ⟨.ready, .loaded, k⟩) := by
  simp [bcLoad, hf]

/-- A `BC_LoadDev` that does not fail (R116). -/
theorem bcLoadDev_ok (l : CtxLoc) (hf : s.nextFault = false) :
    bcLoadDev l s = .ok () (s.drawFault.setCtx l ⟨.ready, .device, 0⟩) := by
  simp [bcLoadDev, hf]

end Sys2Proof.Machine
end

