-- ==== Sys2Proof/Laws/Calls.lean ====
section
/-! SUPPORT. Primitive calls that do not fail: how `NoFault` is used up, one call after the other. Accesses that are admitted. -/

namespace Sys2Proof.Machine

/-- The state after `n` draws of `PrimFault()`. -/
def State.drawFaults (s : State) (n : Nat) : State :=
  { s with primFaults := s.primFaults.drop n, primCalls := s.primCalls + n }

theorem State.drawFaults_zero (s : State) : s.drawFaults 0 = s := rfl

theorem State.drawFault_eq (s : State) : s.drawFault = s.drawFaults 1 := by
  simp [State.drawFault, State.drawFaults]

theorem State.drawFaults_add (s : State) (n m : Nat) : (s.drawFaults n).drawFaults m = s.drawFaults (n + m) := by
  simp [State.drawFaults, Nat.add_assoc]

/-- The first of the calls does not fail. -/
theorem State.NoFault.head {s : State} {n : Nat} (h : s.NoFault n) (hn : 0 < n) : s.nextFault = false := by
  unfold State.NoFault at h
  unfold State.nextFault
  cases hp : s.primFaults with
  | nil => rw [hp] at h; cases n <;> simp at h hn
  | cons b bs =>
    rw [hp] at h
    cases n with
    | zero => omega
    | succ n => simpa using (List.cons.inj (by simpa [List.replicate_succ] using h)).1

/-- The calls after the first do not fail. -/
theorem State.NoFault.tail {s t : State} {n k : Nat} (h : s.NoFault n) (ht : t.primFaults = s.primFaults.drop k) {m : Nat}
    (hm : k + m ≤ n) : t.NoFault m := by
  unfold State.NoFault at *
  rw [ht]
  have : (s.primFaults.drop k).take m = ((s.primFaults.take n).drop k).take m := by
    rw [List.drop_take, List.take_take, Nat.min_eq_left (by omega)]
  rw [this, h, List.drop_replicate, List.take_replicate, Nat.min_eq_left (by omega)]

theorem State.NoFault.of_le {s : State} {n m : Nat} (h : s.NoFault n) (hm : m ≤ n) : s.NoFault m :=
  h.tail (k := 0) (by simp) (by omega)

theorem State.NoFault.congr {s t : State} {n : Nat} (h : s.NoFault n) (ht : t.primFaults = s.primFaults) : t.NoFault n :=
  h.tail (k := 0) (by simpa using ht) (by omega)

theorem State.AdmitsAll.congr {s t : State} {l : List Access} (h : s.AdmitsAll l) (hd : t.denied = s.denied) : t.AdmitsAll l := by
  unfold State.AdmitsAll at *
  rw [hd]
  exact h

/-- A read that the platform admits, in a state with the same admission (20_memory.md R52, R58). -/
theorem memRead_ok {s u : State} {l : List Access} (h : s.AdmitsAll l) {a n : Nat} (hm : ⟨a, n, .read⟩ ∈ l)
    (hd : u.denied = s.denied) : memRead a n u = .ok (u.mem.read a n) u :=
  memRead_run (State.admitsAccess_iff.mpr (hd ▸ h _ hm))

/-- A write that the platform admits, in a state with the same admission (R53, R58). -/
theorem memWrite_ok {s u : State} {l : List Access} (h : s.AdmitsAll l) {a n : Nat} {bs : List Byte} (hm : ⟨a, n, .write⟩ ∈ l)
    (hn : bs.length = n) (hd : u.denied = s.denied) : memWrite a bs u = .ok () { u with mem := u.mem.write a bs } := by
  subst hn
  exact memWrite_run (State.admitsAccess_iff.mpr (hd ▸ h _ hm))

end Sys2Proof.Machine
end

