-- ==== Sys2Proof/Laws/Cmac.lean ====
section
/-! SUPPORT. The CMAC procedures: what they compute when no primitive call fails, and everything they can do. -/

namespace Sys2Proof.Machine

open Spec

/-- The accumulator of the chaining loop started from `x` (41_cmac.md R143). -/
def accFrom (E : Block → Block) (x : Block) (m : List Byte) : Nat → Block
  | 0 => x
  | n + 1 => E (accFrom E x m n ^^^ blockAt m n)

theorem accumulator_eq (E : Block → Block) (m : List Byte) (n : Nat) : accumulator E m n = accFrom E 0 m n := by
  induction n with
  | zero => rfl
  | succ n ih => simp [accumulator, accFrom, ih]

theorem blockAt_drop (m : List Byte) (i : Nat) : blockAt (m.drop 16) i = blockAt m (i + 1) := by
  simp only [blockAt, List.drop_drop]; congr 3; omega

theorem accFrom_drop (E : Block → Block) (x : Block) (m : List Byte) (n : Nat) :
    accFrom E (E (x ^^^ blockAt m 0)) (m.drop 16) n = accFrom E x m (n + 1) := by
  induction n with
  | zero => rfl
  | succ n ih => simp only [accFrom] at ih ⊢; rw [ih, blockAt_drop]

/-- The state with the accumulator `X` replaced. -/
def State.withX (s : State) (x : Block) : State := { s with hidden := { s.hidden with x := x } }

@[simp] theorem State.ctxAt_withX (s : State) (x : Block) (l : CtxLoc) : (s.withX x).ctxAt l = s.ctxAt l := by
  cases l <;> rfl

@[simp] theorem State.ctxAt_drawFaults (s : State) (n : Nat) (l : CtxLoc) : (s.drawFaults n).ctxAt l = s.ctxAt l := by
  cases l <;> rfl

/-- The chaining loop when no call fails (R143). -/
theorem cmacChain_ok (P : Params) (c : CtxLoc) (fuel : Nat) (m : List Byte) (s : State) (hl : m.length ≤ 16 * fuel + 16)
    (hr : (s.ctxAt c).state = .ready) (hf : s.NoFault (chained m.length)) :
    cmacChain P c fuel m s = .ok (m.drop (16 * chained m.length))
      ((s.drawFaults (chained m.length)).withX
        (accFrom (P.enc (s.keyOf (s.ctxAt c))) s.hidden.x m (chained m.length))) := by
  induction fuel generalizing m s with
  | zero =>
    have hc : chained m.length = 0 := by unfold chained; omega
    simp only [hc, cmacChain, Nat.mul_zero, List.drop_zero]
    rfl
  | succ fuel ih =>
    unfold cmacChain
    by_cases hm : 16 < m.length
    · rw [if_pos hm]
      have hc : chained m.length = chained (m.drop 16).length + 1 := by
        simp only [chained, List.length_drop]; omega
      have hb0 : blockAt m 0 = blockOfBytes (m.take 16) := by simp [blockAt]
      rw [bind_run_ok (look_run _), bind_run_ok (bcEnc_ok P _ hr (hf.head (by omega))),
        bind_run_ok (updateHidden_run _)]
      have hkey : ∀ x : Block, State.keyOf ((s.drawFault).withX x) (((s.drawFault).withX x).ctxAt c) = s.keyOf (s.ctxAt c) := by
        intro x; simp [State.keyOf]; rfl
      have := ih (m.drop 16) ((s.drawFault).withX (P.enc (s.keyOf (s.ctxAt c)) (s.hidden.x ^^^ blockOfBytes (m.take 16))))
        (by simp only [List.length_drop]; omega) (by simpa using hr)
        (hf.tail (k := 1) (by simp [State.withX]) (by omega))
      rw [hkey] at this
      refine Eq.trans this ?_
      rw [hc]
      have e1 : ∀ n, (((s.drawFault).withX (P.enc (s.keyOf (s.ctxAt c)) (s.hidden.x ^^^ blockOfBytes (m.take 16)))).drawFaults n)
          = (s.drawFaults (n + 1)).withX (P.enc (s.keyOf (s.ctxAt c)) (s.hidden.x ^^^ blockOfBytes (m.take 16))) := by
        intro n
        simp [State.drawFault, State.drawFaults, State.withX, Nat.add_comm 1, Nat.add_assoc]
      rw [e1]
      have e2 := accFrom_drop (P.enc (s.keyOf (s.ctxAt c))) s.hidden.x m (chained (m.drop 16).length)
      rw [hb0] at e2
      simp only [State.withX] at e2 ⊢
      rw [e2]
      simp only [List.drop_drop]
      congr 2
      omega
    · have hc : chained m.length = 0 := by unfold chained; omega
      rw [if_neg hm]
      simp only [hc, Nat.mul_zero, List.drop_zero]
      rfl

/-- A state that differs from `s` only in the oracle's draws and the CMAC engine's buffers, the subkeys wiped. -/
def AfterCmac (s t : State) : Prop :=
  ∃ f n x, t = { s with primFaults := f, primCalls := n, hidden := { s.hidden with x := x, k0 := 0, k1 := 0, k2 := 0 } }

/-- A state that differs from `s` only in the oracle's draws and the CMAC engine's buffers. -/
def DuringCmac (s t : State) : Prop :=
  ∃ f n x k0 k1 k2, t = { s with primFaults := f, primCalls := n, hidden := { s.hidden with x := x, k0 := k0, k1 := k1, k2 := k2 } }

theorem DuringCmac.refl (s : State) : DuringCmac s s := ⟨_, _, _, _, _, _, rfl⟩

theorem DuringCmac.ctxAt {s t : State} (h : DuringCmac s t) (l : CtxLoc) : t.ctxAt l = s.ctxAt l := by
  obtain ⟨f, n, x, k0, k1, k2, rfl⟩ := h; cases l <;> rfl

theorem DuringCmac.trans {s t u : State} (h : DuringCmac s t) (h' : DuringCmac t u) : DuringCmac s u := by
  obtain ⟨f, n, x, k0, k1, k2, rfl⟩ := h
  obtain ⟨f, n, x, k0, k1, k2, rfl⟩ := h'
  exact ⟨_, _, _, _, _, _, rfl⟩

theorem DuringCmac.draw (s : State) : DuringCmac s s.drawFault := ⟨_, _, _, _, _, _, rfl⟩

theorem DuringCmac.wipe {s t : State} (h : DuringCmac s t) : AfterCmac s t.wipeSubkeys := by
  obtain ⟨f, n, x, k0, k1, k2, rfl⟩ := h
  exact ⟨_, _, _, rfl⟩

/-- `BC_Enc` inside the engine. -/
theorem bcEnc_during {P : Params} {c : CtxLoc} {s u : State} (hr : (s.ctxAt c).state = .ready) (hu : DuringCmac s u) (x : Block) :
    Meets (bcEnc P c x) u (fun _ t => DuringCmac s t) (fun e t => e = .failure ∧ DuringCmac s t) :=
  .bcEnc (by rw [hu.ctxAt]; exact hr) (fun _ => ⟨rfl, hu.trans (.draw u)⟩) (fun _ => hu.trans (.draw u))

/-- A change of the engine's own buffers. -/
theorem updateHidden_during {s u : State} {E : Status → State → Prop} (hu : DuringCmac s u) {f : Hidden → Hidden}
    (hf : ∃ x k0 k1 k2, f u.hidden = { u.hidden with x := x, k0 := k0, k1 := k1, k2 := k2 }) :
    Meets (updateHidden f) u (fun _ t => DuringCmac s t) E := by
  obtain ⟨x, k0, k1, k2, h⟩ := hf
  exact hu.trans ⟨u.primFaults, u.primCalls, x, k0, k1, k2, congrArg (fun g => { u with hidden := g }) h⟩

/-- Everything the chaining loop can do. -/
theorem cmacChain_meets (P : Params) (c : CtxLoc) (fuel : Nat) (m : List Byte) {s u : State}
    (hr : (s.ctxAt c).state = .ready) (hu : DuringCmac s u) :
    Meets (cmacChain P c fuel m) u (fun _ t => DuringCmac s t) (fun e t => e = .failure ∧ DuringCmac s t) := by
  induction fuel generalizing m u with
  | zero => exact hu
  | succ fuel ih =>
    unfold cmacChain
    split_ifs
    · refine Meets.bind (R := fun _ t => DuringCmac s t) hu fun x t ht => ?_
      refine Meets.bind (bcEnc_during hr ht _) fun y v hv => ?_
      exact Meets.bind (updateHidden_during hv ⟨_, _, _, _, rfl⟩) fun _ w hw => ih _ hw
    · exact hu

/-- Everything the last block can do. -/
theorem cmacLast_meets (r : List Byte) {s u : State} {E : Status → State → Prop} (hu : DuringCmac s u) :
    Meets (cmacLast r) u (fun _ t => DuringCmac s t) E := by
  unfold cmacLast
  split_ifs
  · exact updateHidden_during hu ⟨_, _, _, _, rfl⟩
  · exact Meets.bind (updateHidden_during hu ⟨_, _, _, _, rfl⟩) fun _ v hv => updateHidden_during hv ⟨_, _, _, _, rfl⟩

/-- Everything `CMAC_Bytes` can do on a ready context: it ends with a tag or raises FAILURE, and either way the subkeys
are wiped and nothing but its own buffers and the oracle has moved (R145). -/
theorem cmacBytes_meets (P : Params) (c : CtxLoc) (m : List Byte) {s : State} (hr : (s.ctxAt c).state = .ready) :
    Meets (cmacBytes P c m) s (fun _ t => AfterCmac s t) (fun e t => e = .failure ∧ AfterCmac s t) := by
  unfold cmacBytes
  refine Meets.onExit (Meets.mono (Q := fun _ t => DuringCmac s t) (E := fun e t => e = .failure ∧ DuringCmac s t) ?_
    (fun _ _ h => h.wipe) (fun _ _ h => ⟨h.1, h.2.wipe⟩))
  refine Meets.bind (bcEnc_during hr (.refl s) _) fun k0 t ht => ?_
  refine Meets.bind (updateHidden_during ht ⟨_, _, _, _, rfl⟩) fun _ t ht => ?_
  refine Meets.bind (updateHidden_during ht ⟨_, _, _, _, rfl⟩) fun _ t ht => ?_
  refine Meets.bind (updateHidden_during ht ⟨_, _, _, _, rfl⟩) fun _ t ht => ?_
  refine Meets.bind (cmacChain_meets P c _ _ hr ht) fun r t ht => ?_
  refine Meets.bind (cmacLast_meets r ht) fun _ t ht => ?_
  exact Meets.bind (R := fun _ t => DuringCmac s t) ht fun x t ht => bcEnc_during hr ht x

/-- `CMAC_Bytes` when no primitive call fails: the tag of R140 to R145 under the context's key. -/
theorem cmacBytes_ok (P : Params) (c : CtxLoc) (m : List Byte) {s : State} (hr : (s.ctxAt c).state = .ready)
    (hf : s.NoFault (cmacCalls m.length)) :
    ∃ x, cmacBytes P c m s = .ok (cmacTag (P.enc (s.keyOf (s.ctxAt c))) m)
      { s.drawFaults (cmacCalls m.length) with hidden := { s.hidden with x := x, k0 := 0, k1 := 0, k2 := 0 } } := by
  have hc : cmacCalls m.length = chained m.length + 2 := by unfold cmacCalls chained; omega
  rw [hc] at hf ⊢
  set key := s.keyOf (s.ctxAt c) with hkey
  set E := P.enc key with hE
  let s1 : State := { s.drawFault with hidden := { s.hidden with k0 := E 0, k1 := dblBE (E 0), x := 0 } }
  have hat1 : s1.ctxAt c = s.ctxAt c := State.ctxAt_congr (s := s) (t := s1) rfl rfl rfl rfl c
  have hr1 : (s1.ctxAt c).state = .ready := by rw [hat1]; exact hr
  have hk1 : s1.keyOf (s1.ctxAt c) = key := by rw [hat1]; rfl
  have hch := cmacChain_ok P c m.length m s1 (by omega) hr1 (hf.tail (k := 1) (by simp [s1]) (by omega))
  rw [hk1, ← hE] at hch
  set n := chained m.length with hn
  set r := m.drop (16 * n) with hrd
  let s2 : State := (s1.drawFaults n).withX (accFrom E s1.hidden.x m n)
  have hacc : accFrom E s1.hidden.x m n = accumulator E m n := (accumulator_eq E m n).symm
  have hlast : ∃ k2, cmacLast r s2 = .ok () { s2 with hidden := { s2.hidden with
      x := accumulator E m n ^^^ lastBlock E r, k2 := k2 } } := by
    unfold cmacLast lastBlock
    split_ifs with h16
    · refine ⟨s2.hidden.k2, ?_⟩
      rw [updateHidden_run, ← hacc]
      simp only [s2, s1, State.withX, State.drawFaults, subkey1, BitVec.xor_assoc]
    · refine ⟨dblBE (dblBE (E 0)), ?_⟩
      rw [bind_run_ok (updateHidden_run _), updateHidden_run, ← hacc]
      simp only [s2, s1, State.withX, State.drawFaults, subkey1, subkey2, BitVec.xor_assoc]
  obtain ⟨k2, hlast⟩ := hlast
  let s3 : State := { s2 with hidden := { s2.hidden with x := accumulator E m n ^^^ lastBlock E r, k2 := k2 } }
  have hat3 : s3.ctxAt c = s.ctxAt c := State.ctxAt_congr (s := s) (t := s3) rfl rfl rfl rfl c
  have hr3 : (s3.ctxAt c).state = .ready := by rw [hat3]; exact hr
  have hk3 : s3.keyOf (s3.ctxAt c) = key := by rw [hat3]; rfl
  have hf3 : s3.nextFault = false :=
    (hf.tail (t := s3) (k := n + 1) (m := 1)
      (by simp [s3, s2, s1, State.withX, State.drawFaults, Nat.add_comm]) (by omega)).head (by omega)
  refine ⟨accumulator E m n ^^^ lastBlock E r, ?_⟩
  unfold cmacBytes
  rw [onExit_run_ok (a := cmacTag E m) (t := s3.drawFault)]
  · simp only [s3, s2, s1, State.wipeSubkeys, State.drawFault, State.drawFaults, State.withX]
    congr 2
    · simp only [List.drop_drop, ← List.drop_one]; congr 1; omega
    · omega
  · rw [bind_run_ok (bcEnc_ok P _ hr (hf.head (by omega))), bind_run_ok (updateHidden_run _),
      bind_run_ok (updateHidden_run _), bind_run_ok (updateHidden_run _)]
    refine Eq.trans (bind_run_ok hch) ?_
    rw [bind_run_ok hlast, bind_run_ok (look_run _)]
    have := bcEnc_ok P (s := s3) (l := c) (accumulator E m n ^^^ lastBlock E r) hr3 hf3
    rw [hk3] at this
    exact this

/-- `CMAC_Dev` when no primitive call fails (R148). -/
theorem cmacDev_ok (P : Params) (m : List Byte) {s : State} (hf : s.NoFault (1 + cmacCalls m.length)) :
    ∃ x, cmacDev P m s = .ok (cmacTag (P.enc s.devKey) m)
      { s.drawFaults (1 + cmacCalls m.length) with
        hidden := { s.hidden with tbc0 := .clear, x := x, k0 := 0, k1 := 0, k2 := 0 } } := by
  let s1 : State := s.drawFault.setCtx .tbc0 ⟨.ready, .device, 0⟩
  have hf1 : s1.NoFault (cmacCalls m.length) := hf.tail (k := 1) (by simp [s1]) (by omega)
  obtain ⟨x, h⟩ := cmacBytes_ok P .tbc0 m (s := s1) rfl hf1
  refine ⟨x, ?_⟩
  unfold cmacDev
  have hb := (bind_run_ok (f := fun _ => cmacBytes P .tbc0 m) (bcLoadDev_ok (s := s) .tbc0 (hf.head (by omega)))).trans h
  rw [onExit_run_ok hb]
  simp [s1, State.bcClean, State.setCtx, State.drawFaults, State.drawFault, State.keyOf, State.ctxAt, Nat.add_assoc]
  omega

/-- The transient context of the CMAC wrappers is UNINIT and the subkeys are zero. -/
def Hidden.Calm (h : Hidden) : Prop := h.tbc0 = .clear ∧ h.k0 = 0 ∧ h.k1 = 0 ∧ h.k2 = 0

/-- A state that differs from `s` only in the oracle's draws, the CMAC engine's buffers and `TBC0`, calm again. -/
def AfterCmacDev (s t : State) : Prop :=
  ∃ f n x k0 k1 k2, t = { s with primFaults := f, primCalls := n, hidden := { s.hidden with tbc0 := .clear, x := x, k0 := k0, k1 := k1, k2 := k2 } } ∧
    (s.hidden.Calm → t.hidden.Calm)

/-- Everything `CMAC_Dev` can do. -/
theorem cmacDev_meets (P : Params) (m : List Byte) {s : State} :
    Meets (cmacDev P m) s (fun _ t => AfterCmacDev s t) (fun e t => e = .failure ∧ AfterCmacDev s t) := by
  unfold cmacDev
  refine Meets.onExit ?_
  refine Meets.bind (R := fun _ t => t = s.drawFault.setCtx .tbc0 ⟨.ready, .device, 0⟩)
    (Meets.bcLoadDev (fun _ => ⟨rfl, _, _, _, _, _, _, rfl, fun h => ⟨rfl, h.2⟩⟩) fun _ => rfl) ?_
  rintro _ u rfl
  have fin : ∀ t, AfterCmac (s.drawFault.setCtx .tbc0 ⟨.ready, .device, 0⟩) t → AfterCmacDev s (t.bcClean .tbc0) := by
    rintro t ⟨f, n, x, rfl⟩
    exact ⟨_, _, _, _, _, _, rfl, fun _ => ⟨rfl, rfl, rfl, rfl⟩⟩
  exact (cmacBytes_meets P .tbc0 m rfl).mono (fun _ t h => fin t h) fun _ t h => ⟨h.1, fin t h.2⟩

end Sys2Proof.Machine
end

