-- ==== Sys2Proof/Laws/Memory.lean ====
section
/-! SUPPORT. The laws of memory: read after write, write elsewhere, and that every operation keeps the canonical form. -/

namespace Sys2Proof.Machine

theorem cellsGet_below {lo : Nat} {m : List Host.Cell} {p : Nat} (h : cellsWf lo m = true) (hp : p < lo) :
    cellsGet m p = unlistedByte := by
  induction m generalizing lo with
  | nil => rfl
  | cons c m ih =>
    obtain ⟨a, b⟩ := c
    simp only [cellsWf, Bool.and_eq_true, decide_eq_true_eq] at h
    have hne : p ≠ a := by omega
    simp only [cellsGet, if_neg hne]
    exact ih h.2 (by omega)

theorem cellsGet_set_self (m : List Host.Cell) (p : Nat) (v : Byte) (lo : Nat) (h : cellsWf lo m = true) :
    cellsGet (cellsSet m p v) p = v := by
  induction m generalizing lo with
  | nil => simp only [cellsSet]; split <;> simp_all [cellsGet]
  | cons c m ih =>
    obtain ⟨a, b⟩ := c
    simp only [cellsWf, Bool.and_eq_true, decide_eq_true_eq] at h
    simp only [cellsSet]
    by_cases hlt : p < a
    · by_cases hv : v = unlistedByte
      · simp [hlt, hv, cellsGet, Nat.ne_of_lt hlt, cellsGet_below h.2 (by omega : p < a + 1)]
      · simp [hlt, hv, cellsGet]
    · by_cases he : p = a
      · subst he
        by_cases hv : v = unlistedByte
        · simp [hv, cellsGet_below h.2 (Nat.lt_succ_self p)]
        · simp [hv, cellsGet]
      · simp [hlt, he, cellsGet, ih _ h.2]

theorem cellsGet_set_other (m : List Host.Cell) {p q : Nat} (v : Byte) (hq : q ≠ p) :
    cellsGet (cellsSet m p v) q = cellsGet m q := by
  induction m with
  | nil => simp only [cellsSet]; split <;> simp [cellsGet, hq]
  | cons c m ih =>
    obtain ⟨a, b⟩ := c
    simp only [cellsSet]
    split
    · split <;> simp [cellsGet, hq]
    · split
      · next h => subst h; split <;> simp [cellsGet, hq]
      · simp [cellsGet, ih]

theorem cellsWf_mono {lo lo' : Nat} {m : List Host.Cell} (h : cellsWf lo m = true) (hl : lo' ≤ lo) :
    cellsWf lo' m = true := by
  cases m with
  | nil => rfl
  | cons c m =>
    simp only [cellsWf, Bool.and_eq_true, decide_eq_true_eq] at h ⊢
    exact ⟨⟨⟨by omega, h.1.1.2⟩, h.1.2⟩, h.2⟩

theorem cellsSet_wf (m : List Host.Cell) (p : Nat) (v : Byte) (lo : Nat) (h : cellsWf lo m = true) (hlo : lo ≤ p)
    (hp : p < Config.space) : cellsWf lo (cellsSet m p v) = true := by
  induction m generalizing lo with
  | nil => simp only [cellsSet]; split <;> simp_all [cellsWf]
  | cons c m ih =>
    obtain ⟨a, b⟩ := c
    have h' := h
    simp only [cellsWf, Bool.and_eq_true, decide_eq_true_eq] at h
    simp only [cellsSet]
    split
    · split
      · exact h'
      · simp only [cellsWf, Bool.and_eq_true, decide_eq_true_eq]
        exact ⟨⟨⟨hlo, hp⟩, by assumption⟩, ⟨⟨by omega, h.1.1.2⟩, h.1.2⟩, h.2⟩
    · split
      · split
        · exact cellsWf_mono h.2 (by omega)
        · simp only [cellsWf, Bool.and_eq_true, decide_eq_true_eq]
          next he hv => subst he; exact ⟨⟨⟨hlo, hp⟩, hv⟩, h.2⟩
      · simp only [cellsWf, Bool.and_eq_true, decide_eq_true_eq]
        exact ⟨h.1, ih _ h.2 (by omega)⟩

/-- Read after write, one byte. -/
theorem Memory.get_set_self {m : Memory} (h : m.wf = true) (p : Nat) (v : Byte) : (m.set p v).get p = v :=
  cellsGet_set_self m.cells p v 0 h

/-- A write leaves every other byte alone. -/
theorem Memory.get_set_other (m : Memory) {p q : Nat} (v : Byte) (hq : q ≠ p) : (m.set p v).get q = m.get q :=
  cellsGet_set_other m.cells v hq

/-- A write inside the address space keeps the canonical form. -/
theorem Memory.set_wf {m : Memory} (h : m.wf = true) {p : Nat} (v : Byte) (hp : p < Config.space) :
    (m.set p v).wf = true :=
  cellsSet_wf m.cells p v 0 h (Nat.zero_le _) hp

theorem Memory.write_nil (m : Memory) (a : Nat) : m.write a [] = m := rfl

theorem Memory.write_cons (m : Memory) (a : Nat) (b : Byte) (bs : List Byte) :
    m.write a (b :: bs) = (m.set a b).write (a + 1) bs := rfl

theorem Memory.write_append (m : Memory) (a : Nat) (bs cs : List Byte) :
    m.write a (bs ++ cs) = (m.write a bs).write (a + bs.length) cs := by
  induction bs generalizing m a with
  | nil => simp [Memory.write]
  | cons b bs ih => simp only [List.cons_append, Memory.write, ih, List.length_cons]; congr 1; omega

/-- A write of a byte string leaves every byte outside it alone. -/
theorem Memory.get_write_other (m : Memory) (a : Nat) (bs : List Byte) {p : Nat} (hp : p < a ∨ a + bs.length ≤ p) :
    (m.write a bs).get p = m.get p := by
  induction bs generalizing m a with
  | nil => rfl
  | cons b bs ih =>
    simp only [List.length_cons] at hp
    rw [Memory.write_cons, ih _ _ (by omega), Memory.get_set_other _ _ (by omega)]

/-- A write inside the address space keeps the canonical form. -/
theorem Memory.write_wf {m : Memory} (h : m.wf = true) (a : Nat) (bs : List Byte) (hs : a + bs.length ≤ Config.space) :
    (m.write a bs).wf = true := by
  induction bs generalizing m a with
  | nil => exact h
  | cons b bs ih =>
    simp only [List.length_cons] at hs
    exact ih (Memory.set_wf h b (by omega)) _ (by omega)

/-- Read after write of a byte string, byte by byte. -/
theorem Memory.get_write_self {m : Memory} (h : m.wf = true) (a : Nat) (bs : List Byte)
    (hs : a + bs.length ≤ Config.space) (i : Nat) (hi : i < bs.length) : (m.write a bs).get (a + i) = bs[i] := by
  induction bs generalizing m a i with
  | nil => simp at hi
  | cons b bs ih =>
    simp only [List.length_cons] at hs hi
    rw [Memory.write_cons]
    cases i with
    | zero => rw [Memory.get_write_other _ _ _ (Or.inl (by omega))]; exact Memory.get_set_self h a b
    | succ i =>
      have := ih (Memory.set_wf (p := a) h b (by omega)) (a + 1) (by omega) i (by omega)
      rw [show a + (i + 1) = a + 1 + i by omega, this]; rfl

@[simp] theorem Memory.length_read (m : Memory) (a n : Nat) : (m.read a n).length = n := by
  simp [Memory.read]

theorem Memory.getElem_read (m : Memory) (a n i : Nat) (hi : i < (m.read a n).length) :
    (m.read a n)[i] = m.get (a + i) := by
  simp [Memory.read]

/-- Read after write of a byte string. -/
theorem Memory.read_write_self {m : Memory} (h : m.wf = true) (a : Nat) (bs : List Byte)
    (hs : a + bs.length ≤ Config.space) : (m.write a bs).read a bs.length = bs := by
  apply List.ext_getElem (by simp)
  intro i h1 h2
  rw [Memory.getElem_read, Memory.get_write_self h a bs hs i h2]

/-- A read is decided by the bytes of its range. -/
theorem Memory.read_congr {m m' : Memory} {a n : Nat} (h : ∀ i < n, m.get (a + i) = m'.get (a + i)) :
    m.read a n = m'.read a n := by
  apply List.ext_getElem (by simp)
  intro i h1 h2
  rw [Memory.getElem_read, Memory.getElem_read]
  exact h i (by simpa using h1)

/-- A write leaves a read of a disjoint range alone. -/
theorem Memory.read_write_other (m : Memory) (a : Nat) (bs : List Byte) (p n : Nat)
    (hd : p + n ≤ a ∨ a + bs.length ≤ p) : (m.write a bs).read p n = m.read p n :=
  Memory.read_congr fun i hi => Memory.get_write_other m a bs (by omega)

/-- Two canonical memories that read alike are equal. -/
theorem cells_ext {lo : Nat} {m m' : List Host.Cell} (h : cellsWf lo m = true) (h' : cellsWf lo m' = true)
    (he : ∀ p, cellsGet m p = cellsGet m' p) : m = m' := by
  induction m generalizing lo m' with
  | nil =>
    cases m' with
    | nil => rfl
    | cons c m' =>
      have := he c.1
      simp only [cellsWf, Bool.and_eq_true, decide_eq_true_eq] at h'
      simp [cellsGet] at this
      exact absurd this.symm h'.1.2
  | cons c m ih =>
    obtain ⟨a, b⟩ := c
    have hm := h
    simp only [cellsWf, Bool.and_eq_true, decide_eq_true_eq] at h
    cases m' with
    | nil =>
      have := he a
      simp [cellsGet] at this
      exact absurd this h.1.2
    | cons c' m' =>
      obtain ⟨a', b'⟩ := c'
      have hm' := h'
      simp only [cellsWf, Bool.and_eq_true, decide_eq_true_eq] at h'
      have haa : a = a' := by
        rcases Nat.lt_trichotomy a a' with hl | hl | hl
        · have := he a
          simp only [cellsGet, if_true, if_neg (Nat.ne_of_lt hl), cellsGet_below h'.2 (by omega : a < a' + 1)] at this
          exact absurd this h.1.2
        · exact hl
        · have := he a'
          simp only [cellsGet, if_true, if_neg (Nat.ne_of_lt hl), cellsGet_below h.2 (by omega : a' < a + 1)] at this
          exact absurd this.symm h'.1.2
      subst haa
      have hb : b = b' := by simpa [cellsGet] using he a
      subst hb
      congr 1
      refine ih h.2 h'.2 fun p => ?_
      by_cases hp : p = a
      · subst hp; rw [cellsGet_below h.2 (by omega), cellsGet_below h'.2 (by omega)]
      · simpa [cellsGet, hp] using he p

/-- Equal memories are equal data: the canonical form is unique. -/
theorem Memory.ext_get {m m' : Memory} (h : m.wf = true) (h' : m'.wf = true) (he : ∀ p, m.get p = m'.get p) : m = m' := by
  cases m; cases m'
  exact congrArg Memory.mk (cells_ext h h' he)

end Sys2Proof.Machine
end

