-- ==== Sys2Proof/Laws/Kdf.lean ====
section
/-! SUPPORT. The key derivation procedures: what they compute when no primitive call fails, and everything they can do. -/

namespace Sys2Proof.Machine

open Spec

/-- The bytes of the segments from segment `i` on (42_kdf.md R163). -/
def kdfFrom (E : Block → Block) (keyLen : Nat) (label context : List Byte) : Nat → Nat → List Byte
  | 0, _ => []
  | n + 1, i =>
    (bytesOfBlock (cmacTag E (kdfMessage keyLen label context i))).take (min 16 (keyLen - 16 * i)) ++
      kdfFrom E keyLen label context n (i + 1)

theorem kdfFrom_eq (E : Block → Block) (keyLen : Nat) (label context : List Byte) (n i : Nat) :
    kdfFrom E keyLen label context n i =
      ((List.range n).flatMap fun k => bytesOfBlock (cmacTag E (kdfMessage keyLen label context (i + k)))).take (keyLen - 16 * i) := by
  induction n generalizing i with
  | zero => simp [kdfFrom]
  | succ n ih =>
    rw [kdfFrom, ih, List.range_succ_eq_map, List.flatMap_cons, List.flatMap_map, List.take_append]
    congr 1
    · by_cases h : keyLen - 16 * i ≤ 16
      · rw [Nat.min_eq_right h]; simp
      · rw [Nat.min_eq_left (by omega), List.take_of_length_le (by simp), List.take_of_length_le (by simp; omega)]; simp
    · have : keyLen - 16 * (i + 1) = keyLen - 16 * i - 16 := by omega
      simp only [length_bytesOfBlock, Nat.add_zero, this, Nat.add_assoc, Nat.add_comm 1]

theorem kdfFrom_zero (E : Block → Block) (keyLen : Nat) (label context : List Byte) :
    kdfFrom E keyLen label context ((keyLen + 15) / 16) 0 = kdfBytes E keyLen label context := by
  simp [kdfFrom_eq, kdfBytes]

theorem length_flatMap_bytes (n : Nat) (g : Nat → Block) : ((List.range n).flatMap fun i => bytesOfBlock (g i)).length = 16 * n := by
  induction n with
  | zero => rfl
  | succ n ih => rw [List.range_succ, List.flatMap_append, List.length_append, ih]; simp; omega

/-- A derivation gives exactly `key_len` bytes (42_kdf.md R160). -/
@[simp] theorem length_kdfBytes (E : Block → Block) (keyLen : Nat) (label context : List Byte) :
    (kdfBytes E keyLen label context).length = keyLen := by
  simp only [kdfBytes, List.length_take, length_flatMap_bytes]; omega

@[simp] theorem length_kdfMessage (keyLen : Nat) (label context : List Byte) (i : Nat) :
    (kdfMessage keyLen label context i).length = label.length + context.length + 6 := by
  simp [kdfMessage]; omega

/-- The counter byte is incremented in place (R164). -/
theorem bumpCounter_take (buf rest : List Byte) (c : Byte) (n : Nat) (h : buf.take (n + 1) = c :: rest) :
    (bumpCounter buf).take (n + 1) = (c + 1) :: rest := by
  cases buf with
  | nil => simp at h
  | cons b bs =>
    simp only [List.take_succ_cons, List.cons.injEq] at h
    simp [bumpCounter, h.1, h.2]

theorem kdfMessage_bump (keyLen : Nat) (label context : List Byte) (i : Nat) (buf : List Byte)
    (h : buf.take (label.length + context.length + 6) = kdfMessage keyLen label context i) :
    (bumpCounter buf).take (label.length + context.length + 6) = kdfMessage keyLen label context (i + 1) := by
  have := bumpCounter_take buf _ _ (label.length + context.length + 5) h
  rw [this]
  simp [kdfMessage, BitVec.ofNat_add]

/-- What a sink of segments does where the platform admits it (`A`, of an offset, a length and the denied accesses): it acts on
the memory and on `DKEY` alone, and stores strings piece by piece. -/
structure SinkActs (sink : Nat → List Byte → Proc Unit) (gm : Nat → List Byte → Memory → Memory)
    (gd : Nat → List Byte → List Byte → List Byte) (I : Nat → List Byte → Prop) (A : Nat → Nat → List Access → Prop) : Prop where
  run : ∀ off bs s, A off bs.length s.denied → sink off bs s =
    .ok () { s with mem := gm off bs s.mem, hidden := { s.hidden with dkey := gd off bs s.hidden.dkey } }
  mem_nil : ∀ off m, gm off [] m = m
  mem_append : ∀ off bs cs m, gm (off + bs.length) cs (gm off bs m) = gm off (bs ++ cs) m
  dkey_nil : ∀ off d, I off d → gd off [] d = d
  dkey_append : ∀ off bs cs d, I off d → gd (off + bs.length) cs (gd off bs d) = gd off (bs ++ cs) d
  dkey_keeps : ∀ off bs d, I off d → I (off + bs.length) (gd off bs d)

/-- Where a sink puts the segments: the memory and `DKEY`. -/
abbrev Sunk := Memory × List Byte

/-- A state that differs from `s` only in the oracle's draws, the memory, and the hidden state less `TBC1`, `T`, `TAGBUF`. -/
structure DuringKdf (M : Sunk → Sunk → Prop) (s t : State) : Prop where
  rest : ∃ f n m h, t = { s with primFaults := f, primCalls := n, mem := m, hidden := h }
  mem : M (s.mem, s.hidden.dkey) (t.mem, t.hidden.dkey)
  tbc1 : t.hidden.tbc1 = s.hidden.tbc1
  tweak : t.hidden.t = s.hidden.t
  tagBuf : t.hidden.tagBuf = s.hidden.tagBuf
  calm : s.hidden.Calm → t.hidden.Calm

/-- The iteration when no call fails (R163): segments `i`, `i+1`, … go to the sink. -/
theorem kdfLoop_ok (P : Params) (keyLen : Nat) (label context : List Byte) {sink : Nat → List Byte → Proc Unit}
    {gm : Nat → List Byte → Memory → Memory} {gd : Nat → List Byte → List Byte → List Byte} {I : Nat → List Byte → Prop}
    {A : Nat → Nat → List Access → Prop} (hs : SinkActs sink gm gd I A) (n i : Nat) (hn : n = (keyLen + 15) / 16 - i) (s : State)
    (hk : s.hidden.kbuf.take (label.length + context.length + 6) = kdfMessage keyLen label context i)
    (hi : I (16 * i) s.hidden.dkey)
    (ha : ∀ k, i ≤ k → k < (keyLen + 15) / 16 → A (16 * k) (min 16 (keyLen - 16 * k)) s.denied) (hf : s.NoFault (n * (1 + cmacCalls (label.length + context.length + 6)))) :
    ∃ h, kdfLoop P keyLen (label.length + context.length + 6) sink n (16 * i) s = .ok ()
        { s.drawFaults (n * (1 + cmacCalls (label.length + context.length + 6))) with
          mem := gm (16 * i) (kdfFrom (P.enc s.devKey) keyLen label context n i) s.mem, hidden := h } ∧
      h.dkey = gd (16 * i) (kdfFrom (P.enc s.devKey) keyLen label context n i) s.hidden.dkey ∧
      h.tbc1 = s.hidden.tbc1 ∧ h.t = s.hidden.t ∧ h.tagBuf = s.hidden.tagBuf ∧
      (0 < n ∨ s.hidden.Calm → h.Calm) := by
  induction n generalizing i s with
  | zero =>
    refine ⟨s.hidden, ?_, ?_, rfl, rfl, rfl, fun h => h.resolve_left (by omega)⟩
    · simp [kdfLoop, kdfFrom, hs.mem_nil, State.drawFaults, pure_run]
    · simp [kdfFrom, hs.dkey_nil _ _ hi]
  | succ n ih =>
    set B := label.length + context.length + 6 with hB
    have hlen : (kdfMessage keyLen label context i).length = B := by simp [hB]
    have hlt : 16 * i < keyLen := by omega
    obtain ⟨x, hx⟩ := cmacDev_ok P (kdfMessage keyLen label context i) (s := s)
      (hf.of_le (by rw [hlen]; nlinarith [Nat.zero_le n]))
    rw [hlen] at hx
    set seg := (bytesOfBlock (cmacTag (P.enc s.devKey) (kdfMessage keyLen label context i))).take (min 16 (keyLen - 16 * i)) with hseg
    let s1 : State := { s.drawFaults (1 + cmacCalls B) with
      hidden := { s.hidden with tbc0 := .clear, x := x, k0 := 0, k1 := 0, k2 := 0 } }
    let s2 : State := { s1 with mem := gm (16 * i) seg s1.mem, hidden := { s1.hidden with dkey := gd (16 * i) seg s1.hidden.dkey } }
    let s3 : State := { s2 with hidden := { s2.hidden with kbuf := bumpCounter s2.hidden.kbuf } }
    have hstep : kdfLoop P keyLen B sink (n + 1) (16 * i) s = kdfLoop P keyLen B sink n (16 * (i + 1)) s3 := by
      unfold kdfLoop
      rw [if_pos hlt, bind_run_ok (look_run _), hk, bind_run_ok hx, bind_run_ok (hs.run _ _ _ (by simpa [State.drawFaults] using ha i (Nat.le_refl _) (by omega))),
        bind_run_ok (updateHidden_run _), show 16 * i + 16 = 16 * (i + 1) by ring]
      cases n <;> rfl
    rw [hstep]
    by_cases hn0 : n = 0
    · subst hn0
      refine ⟨s3.hidden, ?_, ?_, rfl, rfl, rfl, fun _ => ⟨rfl, rfl, rfl, rfl⟩⟩
      · simp [kdfLoop, kdfFrom, pure_run, s3, s2, s1, State.drawFaults, ← hseg]
      · simp [kdfFrom, s3, s2, s1, ← hseg]
    · have hseg16 : seg.length = 16 := by simp [hseg]; omega
      obtain ⟨h, he, hd, h1, ht, hb, hc⟩ := ih (i + 1) (by omega) s3 (kdfMessage_bump _ _ _ _ _ hk)
        (by have := hs.dkey_keeps _ seg _ hi; rw [hseg16] at this; simpa [s3, s2, s1, Nat.mul_add] using this)
        (fun k h1 h2 => ha k (by omega) h2)
        (hf.tail (k := 1 + cmacCalls B) (by simp [s3, s2, s1, State.drawFaults]) (by rw [Nat.succ_mul]; omega))
      refine ⟨h, ?_, ?_, h1, ht, hb, fun _ => hc (Or.inr ⟨rfl, rfl, rfl, rfl⟩)⟩
      · rw [he]
        have hmem := hs.mem_append (16 * i) seg (kdfFrom (P.enc s.devKey) keyLen label context n (i + 1)) s.mem
        rw [hseg16] at hmem
        simp only [s3, s2, s1, State.drawFaults, kdfFrom, ← hseg, ← hmem, List.drop_drop]
        congr 2
        · congr 1; rw [Nat.succ_mul]; omega
        · rw [Nat.succ_mul]; omega
      · have hdk := hs.dkey_append (16 * i) seg (kdfFrom (P.enc s.devKey) keyLen label context n (i + 1)) s.hidden.dkey hi
        rw [hseg16] at hdk
        rw [hd]
        simp only [s3, s2, s1, State.drawFaults, kdfFrom, ← hseg, ← hdk]
        rfl

theorem kdfInput_eq (keyLen : Nat) (label context : List Byte) : kdfInput keyLen label context = kdfMessage keyLen label context 0 := rfl

/-- `KDF_Check` passes exactly within the bounds of R161. -/
theorem kdfRejects_eq_false {keyLen labelLen contextLen : Nat} :
    kdfRejects keyLen labelLen contextLen = false ↔ 16 ≤ keyLen ∧ keyLen ≤ 4096 ∧ labelLen + contextLen ≤ 250 := by
  simp only [kdfRejects, Config.kdfMin, Config.kdfMax, Config.kdfBufCap, Bool.or_eq_false_iff, decide_eq_false_iff_not]
  omega

/-- The procedure of R165 when no call fails. -/
theorem kdfRun_ok (P : Params) (keyLen : Nat) (label context : List Byte) {sink : Nat → List Byte → Proc Unit}
    {gm : Nat → List Byte → Memory → Memory} {gd : Nat → List Byte → List Byte → List Byte} {I : Nat → List Byte → Prop}
    {A : Nat → Nat → List Access → Prop} (hs : SinkActs sink gm gd I A) {s : State} (hr : kdfRejects keyLen label.length context.length = false)
    (hi : I 0 s.hidden.dkey)
    (ha : ∀ k, k < (keyLen + 15) / 16 → A (16 * k) (min 16 (keyLen - 16 * k)) s.denied)
    (hf : s.NoFault (kdfCalls keyLen label.length context.length)) :
    ∃ h, kdfRun P keyLen label context sink s = .ok ()
        { s.drawFaults (kdfCalls keyLen label.length context.length) with
          mem := gm 0 (kdfBytes (P.enc s.devKey) keyLen label context) s.mem, hidden := h } ∧
      h.dkey = gd 0 (kdfBytes (P.enc s.devKey) keyLen label context) s.hidden.dkey ∧
      h.tbc1 = s.hidden.tbc1 ∧ h.t = s.hidden.t ∧ h.tagBuf = s.hidden.tagBuf ∧ h.Calm ∧
      h.kbuf = zeroBytes Config.kdfBufCap := by
  let s1 : State := { s with hidden := { s.hidden with
    kbuf := bufStore (zeroBytes Config.kdfBufCap) 0 (kdfInput keyLen label context) } }
  have hb : s1.hidden.kbuf.take (label.length + context.length + 6) = kdfMessage keyLen label context 0 := by
    simp [s1, bufStore, kdfInput_eq]
  obtain ⟨h, he, hd, h1, ht, hg, hc⟩ := kdfLoop_ok P keyLen label context hs ((keyLen + 15) / 16) 0 (by omega) s1 hb hi
    (fun k _ h => ha k h) (hf.congr rfl)
  have hk := kdfRejects_eq_false.mp hr
  refine ⟨{ h with kbuf := zeroBytes Config.kdfBufCap }, ?_, ?_, h1, ht, hg, hc (Or.inl (by omega)), rfl⟩
  · unfold kdfRun
    rw [hr]
    have hl := (bind_run_ok (f := fun _ => kdfLoop P keyLen (label.length + context.length + 6) sink ((keyLen + 15) / 16) 0)
      (updateHidden_run (s := s) fun h => { h with
        kbuf := bufStore (zeroBytes Config.kdfBufCap) 0 (kdfInput keyLen label context) })).trans he
    refine (onExit_run_ok hl).trans ?_
    rw [Nat.mul_zero, kdfFrom_zero]
    rfl
  · rw [hd, Nat.mul_zero, kdfFrom_zero]

/-- The sink of KDF_DERIVE: segments are stored in memory (R166). -/
theorem memSink_acts (out : Nat) : SinkActs (fun off bs => memWrite (out + off) bs)
    (fun off bs m => m.write (out + off) bs) (fun _ _ d => d) (fun _ _ => True)
    (fun off n D => n = 0 ∨ (⟨out + off, n, .write⟩ : Access) ∉ D) where
  run _ _ _ h := memWrite_run (State.admitsAccess_iff.mpr h)
  mem_nil _ _ := rfl
  mem_append off bs cs m := by rw [Memory.write_append, Nat.add_assoc]
  dkey_nil _ _ _ := rfl
  dkey_append _ _ _ _ _ := rfl
  dkey_keeps _ _ _ _ := trivial

/-- The sink of `KDF_Bytes`: segments are placed in `DKEY`. -/
theorem dkeySink_acts : SinkActs (fun off bs => updateHidden fun h => { h with dkey := bufStore h.dkey off bs })
    (fun _ _ m => m) (fun off bs d => bufStore d off bs) (fun off d => off ≤ d.length) (fun _ _ _ => True) where
  run _ _ _ _ := rfl
  mem_nil _ _ := rfl
  mem_append _ _ _ _ := rfl
  dkey_nil off d _ := by simp [bufStore]
  dkey_append off bs cs d h := by
    have h1 : (d.take off ++ bs).length = off + bs.length := by simp; omega
    simp only [bufStore]
    rw [List.take_append_of_le_length (by omega), List.take_of_length_le (by omega), List.drop_append,
      List.drop_eq_nil_of_le (by omega), h1, List.drop_drop]
    simp only [List.nil_append, List.append_assoc, List.length_append]
    congr 4
    omega
  dkey_keeps off bs d h := by simp [bufStore]; omega

/-! ## Everything the derivation can do -/

theorem DuringKdf.refl {M : Sunk → Sunk → Prop} (hM : ∀ m, M m m) (s : State) : DuringKdf M s s :=
  ⟨⟨_, _, _, _, rfl⟩, hM _, rfl, rfl, rfl, id⟩

theorem DuringKdf.trans {M : Sunk → Sunk → Prop} (hM : ∀ a b c, M a b → M b c → M a c) {s t u : State}
    (h : DuringKdf M s t) (h' : DuringKdf M t u) : DuringKdf M s u := by
  obtain ⟨⟨f, n, m, g, rfl⟩, h1, h2, h3, h4, h5⟩ := h
  obtain ⟨⟨f', n', m', g', rfl⟩, k1, k2, k3, k4, k5⟩ := h'
  exact ⟨⟨_, _, _, _, rfl⟩, hM _ _ _ h1 k1, k2.trans h2, k3.trans h3, k4.trans h4, fun h => k5 (h5 h)⟩

theorem AfterCmacDev.duringKdf {M : Sunk → Sunk → Prop} (hM : ∀ m, M m m) {s t : State} (h : AfterCmacDev s t) :
    DuringKdf M s t := by
  obtain ⟨f, n, x, k0, k1, k2, rfl, hc⟩ := h
  exact ⟨⟨_, _, _, _, rfl⟩, hM _, rfl, rfl, rfl, hc⟩

/-- Everything the iteration can do, for a sink that stays within `DuringKdf M`. -/
theorem kdfLoop_meets (P : Params) (keyLen inLen : Nat) {sink : Nat → List Byte → Proc Unit} {M : Sunk → Sunk → Prop}
    (hr : ∀ m, M m m) (ht : ∀ a b c, M a b → M b c → M a c)
    (hs : ∀ off bs s, off + bs.length ≤ keyLen →
      Meets (sink off bs) s (fun _ t => DuringKdf M s t) (fun e t => e = .failure ∧ DuringKdf M s t))
    (n off : Nat) {s u : State} (hu : DuringKdf M s u) :
    Meets (kdfLoop P keyLen inLen sink n off) u (fun _ t => DuringKdf M s t) (fun e t => e = .failure ∧ DuringKdf M s t) := by
  induction n generalizing off u with
  | zero => exact hu
  | succ n ih =>
    unfold kdfLoop
    split_ifs
    · refine Meets.bind (R := fun _ t => DuringKdf M s t) hu fun buf t h => ?_
      refine Meets.bind (R := fun _ t => DuringKdf M s t) ((cmacDev_meets P buf).mono
        (fun _ _ h' => h.trans ht (h'.duringKdf hr)) fun _ _ h' => ⟨h'.1, h.trans ht (h'.2.duringKdf hr)⟩) fun tag t h => ?_
      refine Meets.bind (R := fun _ t => DuringKdf M s t) ((hs _ _ t (by simp; omega)).mono
        (fun _ _ h' => h.trans ht h') fun _ _ h' => ⟨h'.1, h.trans ht h'.2⟩) fun _ t h => ?_
      refine Meets.bind (R := fun _ t => DuringKdf M s t) (h.trans ht ⟨⟨_, _, _, _, rfl⟩, hr _, rfl, rfl, rfl, id⟩)
        fun _ t h => ih _ h
    · exact hu

/-- Everything the procedure of R165 can do once its check has passed: it ends, or raises FAILURE, and `KBUF` is wiped. -/
theorem kdfRun_meets (P : Params) (keyLen : Nat) (label context : List Byte) {sink : Nat → List Byte → Proc Unit}
    {M : Sunk → Sunk → Prop} (hr : ∀ m, M m m) (ht : ∀ a b c, M a b → M b c → M a c)
    (hs : ∀ off bs s, off + bs.length ≤ keyLen →
      Meets (sink off bs) s (fun _ t => DuringKdf M s t) (fun e t => e = .failure ∧ DuringKdf M s t))
    (hc : kdfRejects keyLen label.length context.length = false) {s : State} :
    Meets (kdfRun P keyLen label context sink) s
      (fun _ t => DuringKdf M s t ∧ t.hidden.kbuf = zeroBytes Config.kdfBufCap)
      (fun e t => e = .failure ∧ DuringKdf M s t ∧ t.hidden.kbuf = zeroBytes Config.kdfBufCap) := by
  unfold kdfRun
  rw [hc]
  have wipe : ∀ t, DuringKdf M s t → DuringKdf M s t.wipeKbuf ∧ t.wipeKbuf.hidden.kbuf = zeroBytes Config.kdfBufCap :=
    fun t h => ⟨h.trans ht ⟨⟨_, _, _, _, rfl⟩, hr _, rfl, rfl, rfl, id⟩, rfl⟩
  refine Meets.onExit (Meets.mono (Q := fun _ t => DuringKdf M s t) (E := fun e t => e = .failure ∧ DuringKdf M s t) ?_
    (fun _ t h => wipe t h) fun _ t h => ⟨h.1, wipe t h.2⟩)
  exact Meets.bind (R := fun _ t => DuringKdf M s t) ⟨⟨_, _, _, _, rfl⟩, hr _, rfl, rfl, rfl, id⟩
    fun _ t h => kdfLoop_meets P keyLen _ hr ht hs _ _ h

/-- The sink of `KDF_Bytes` moves `DKEY` alone. -/
theorem dkeySink_meets (off : Nat) (bs : List Byte) (s : State) :
    Meets (updateHidden fun h => { h with dkey := bufStore h.dkey off bs }) s
      (fun _ t => DuringKdf (fun m m' => m'.1 = m.1) s t) (fun e t => e = .failure ∧ DuringKdf (fun m m' => m'.1 = m.1) s t) :=
  ⟨⟨_, _, _, _, rfl⟩, rfl, rfl, rfl, rfl, id⟩

/-- Everything `KDF_Bytes` into `DKEY` can do once its check has passed. -/
theorem kdfToDkey_meets (P : Params) (keyLen : Nat) (label context : List Byte)
    (hc : kdfRejects keyLen label.length context.length = false) {s : State} :
    Meets (kdfToDkey P keyLen label context) s
      (fun _ t => DuringKdf (fun m m' => m'.1 = m.1) s t ∧ t.hidden.kbuf = zeroBytes Config.kdfBufCap)
      (fun e t => e = .failure ∧ DuringKdf (fun m m' => m'.1 = m.1) s t ∧ t.hidden.kbuf = zeroBytes Config.kdfBufCap) :=
  kdfRun_meets (M := fun m m' => m'.1 = m.1) P keyLen label context (fun _ => rfl) (fun _ _ _ h h' => h'.trans h)
    (fun off bs s _ => dkeySink_meets off bs s) hc

/-- `KDF_Bytes` into `DKEY` when no call fails: its bytes stand at the front of `DKEY`. -/
theorem kdfToDkey_ok (P : Params) (keyLen : Nat) (label context : List Byte) {s : State}
    (hr : kdfRejects keyLen label.length context.length = false) (hf : s.NoFault (kdfCalls keyLen label.length context.length)) :
    ∃ h, kdfToDkey P keyLen label context s = .ok ()
        { s.drawFaults (kdfCalls keyLen label.length context.length) with hidden := h } ∧
      h.dkey = bufStore s.hidden.dkey 0 (kdfBytes (P.enc s.devKey) keyLen label context) ∧
      h.tbc1 = s.hidden.tbc1 ∧ h.t = s.hidden.t ∧ h.tagBuf = s.hidden.tagBuf ∧ h.Calm ∧
      h.kbuf = zeroBytes Config.kdfBufCap :=
  kdfRun_ok P keyLen label context dkeySink_acts hr (Nat.zero_le _) (fun _ _ => trivial) hf

end Sys2Proof.Machine
end

