-- ==== Sys2Proof/Laws/Launch.lean ====
section
/-! SUPPORT. How a command is launched and ended: every way it can go, said once. -/

namespace Sys2Proof.Machine

@[simp] theorem Gate.go_andThen (g : Gate) : Gate.go.andThen g = g := rfl
@[simp] theorem Gate.raise_andThen (c : Status) (g : Gate) : (Gate.raise c).andThen g = .raise c := rfl
@[simp] theorem Gate.refuse_andThen (r : Refusal) (g : Gate) : (Gate.refuse r).andThen g = .refuse r := rfl

theorem Gate.andThen_eq_go {g h : Gate} : g.andThen h = .go ↔ g = .go ∧ h = .go := by
  cases g <;> simp

theorem topGate_eq_go {l : List (Nat × Nat)} : topGate l = .go ↔ ∀ q ∈ l, q.2 = 0 ∨ q.1 + q.2 ≤ Config.space := by
  unfold topGate
  split_ifs with h
  · simp only [List.any_eq_true, decide_eq_true_eq] at h
    obtain ⟨q, hq, h0, h1⟩ := h
    exact ⟨nofun, fun h' => absurd (h' q hq) (by omega)⟩
  · simp only [List.any_eq_true, decide_eq_true_eq, not_exists, not_and, not_lt] at h
    exact ⟨fun _ q hq => or_iff_not_imp_left.mpr (h q hq), fun _ => rfl⟩

/-- The judgement of the operand ranges never raises a status (93 U5). -/
theorem topGate_cases (l : List (Nat × Nat)) : topGate l = .go ∨ topGate l = .refuse .accessPastTop := by
  unfold topGate
  split_ifs <;> simp

/-- A command whose checks pass runs its work and ends. -/
theorem run_go {i : Instr} {g : Gate} {w : Proc Unit} {s : State} (hg : g = .go) (ha : s.InSpace i) :
    run i g w s = finish (outRange i s.regs) (w s) := by
  simp [run, launch, hg, topGate_eq_go.mpr ha]

/-- A command whose checks raise a status ends with it and changes nothing else. -/
theorem run_raise {i : Instr} {g : Gate} {w : Proc Unit} {s : State} {c : Status} (hg : g = .raise c) :
    run i g w s = .next (s.exit c) := by
  simp [run, launch, hg]

/-- A command whose checks refuse is refused. -/
theorem run_refuse {i : Instr} {g : Gate} {w : Proc Unit} {s : State} {r : Refusal} (hg : g = .refuse r) :
    run i g w s = .refused r := by
  simp [run, launch, hg]

/-- A command whose checks pass and one of whose operand ranges passes the top is refused (93 U5). -/
theorem run_pastTop {i : Instr} {g : Gate} {w : Proc Unit} {s : State} (hg : g = .go)
    (h : ∃ q ∈ operandRanges i s.regs, q.2 ≠ 0 ∧ Config.space < q.1 + q.2) : run i g w s = .refused .accessPastTop := by
  obtain ⟨q, hq, h0, h1⟩ := h
  have ht := (topGate_cases (operandRanges i s.regs)).resolve_left fun h => absurd (topGate_eq_go.mp h q hq) (by omega)
  simp [run, launch, hg, ht]

/-- What a work that ended, or raised a status, leaves after the exit sequence (60_exceptions.md R246, R247). -/
def ended (out : Option (Nat × Nat)) (c : Status) (s : State) : State :=
  if c = .failure then (s.scribble out).exit c else s.exit c

theorem finish_ok {o : Option (Nat × Nat)} {s : State} : finish o (.ok () s) = .next (s.exit .ok) := rfl

theorem finish_raise {o : Option (Nat × Nat)} {s : State} {c : Status} :
    finish o (.error (.raise c) s) = .next (ended o c s) := rfl

theorem finish_failure {o : Option (Nat × Nat)} {s : State} :
    finish o (.error (.raise .failure) s) = .next ((s.scribble o).exit .failure) := rfl

theorem finish_refuse {o : Option (Nat × Nat)} {s : State} {r : Refusal} :
    finish o (.error (.refuse r) s) = .refused r := rfl

/-- Every way the exit sequence can answer a next state. -/
theorem finish_next {o : Option (Nat × Nat)} {r : EStateM.Result Halt State Unit} {t : State} (h : finish o r = .next t) :
    (∃ u, r = .ok () u ∧ t = u.exit .ok) ∨ ∃ c u, r = .error (.raise c) u ∧ t = ended o c u := by
  rcases r with _ | ⟨c | _, _⟩
  · exact Or.inl ⟨_, rfl, by cases h; rfl⟩
  · exact Or.inr ⟨_, _, rfl, by cases h; rfl⟩
  · cases h

/-- Every way a command can answer a next state: a status its checks raised, or its work's end. -/
theorem run_next {i : Instr} {g : Gate} {w : Proc Unit} {s t : State} (h : run i g w s = .next t) :
    (∃ c, g = .raise c ∧ t = s.exit c) ∨ (g = .go ∧ s.InSpace i ∧ finish (outRange i s.regs) (w s) = .next t) := by
  unfold run launch at h
  cases g with
  | go =>
    rcases topGate_cases (operandRanges i s.regs) with ha | ha <;> rw [Gate.go_andThen, ha] at h
    · exact Or.inr ⟨rfl, topGate_eq_go.mp ha, h⟩
    · cases h
  | raise c => simp at h; exact Or.inl ⟨c, rfl, h.symm⟩
  | refuse r => simp at h

/-- Every way a command can be refused: its checks, an operand range past the top, or an access of its work. -/
theorem run_refused {i : Instr} {g : Gate} {w : Proc Unit} {s : State} {r : Refusal} (h : run i g w s = .refused r) :
    g = .refuse r ∨ (g = .go ∧ r = .accessPastTop ∧ ¬ s.InSpace i) ∨
      (g = .go ∧ s.InSpace i ∧ ∃ t, w s = .error (.refuse r) t) := by
  unfold run launch at h
  cases g with
  | go =>
    rcases topGate_cases (operandRanges i s.regs) with ha | ha <;> rw [Gate.go_andThen, ha] at h
    · refine Or.inr (Or.inr ⟨rfl, topGate_eq_go.mp ha, ?_⟩)
      rcases hw : w s with _ | ⟨c | _, t⟩ <;> rw [hw] at h <;> cases h
      exact ⟨t, rfl⟩
    · cases h
      refine Or.inr (Or.inl ⟨rfl, rfl, fun hs => ?_⟩)
      rw [topGate_eq_go.mpr hs] at ha
      cases ha
  | raise c => simp at h
  | refuse e => simp at h; exact Or.inl (by rw [h])

/-- The draws after FAILURE leave every byte outside the output range alone (60_exceptions.md R247). -/
theorem State.scribble_get (s : State) (o : Option (Nat × Nat)) (p : Nat) (h : ∀ a n, o = some (a, n) → p < a ∨ a + n ≤ p) :
    (s.scribble o).mem.get p = s.mem.get p := by
  cases o with
  | none => rfl
  | some r => exact Memory.get_write_other _ _ _ (by simpa using h r.1 r.2 rfl)

/-- The draws after FAILURE keep the canonical form. -/
theorem State.scribble_wf (s : State) (o : Option (Nat × Nat)) (hm : s.mem.wf = true)
    (h : ∀ a n, o = some (a, n) → n = 0 ∨ a + n ≤ Config.space) : (s.scribble o).mem.wf = true := by
  cases o with
  | none => exact hm
  | some r =>
    rcases h r.1 r.2 rfl with h | h
    · simpa [State.scribble, h, Memory.write] using hm
    · exact Memory.write_wf hm _ _ (by simpa using h)

/-- The five status words are 0 to 4 (60_exceptions.md R240). -/
theorem Status.word_le (c : Status) : c.word.toNat ≤ 4 := by cases c <;> decide

/-- Two status words are equal only when the codes are. -/
theorem Status.word_inj {c d : Status} (h : c.word = d.word) : c = d := by
  revert h; cases c <;> cases d <;> decide

end Sys2Proof.Machine
end

