-- ==== Sys2Proof/Laws/Xts.lean ====
section
/-! SUPPORT. The XTS run: what it computes when no primitive call fails, and everything it can do. -/

namespace Sys2Proof.Machine

open Spec

theorem dblLEn_succ (n : Nat) (x : Block) : dblLEn (n + 1) x = dblLE (dblLEn n x) := by
  induction n generalizing x with
  | zero => rfl
  | succ n ih => exact ih (dblLE x)

/-- Inside a data unit the next block's tweak is the doubled one (43_xts.md R183). -/
theorem tweak_next (E2 : Block → Block) {a : Nat} (ha : a % 16 = 0) (hb : (a + 16) % Config.du ≠ 0) :
    dblLE (tweak E2 a) = tweak E2 (a + 16) := by
  simp only [Config.du] at hb
  have h1 : (a + 16) % 1024 / 16 = a % 1024 / 16 + 1 := by omega
  have h2 : (a + 16) / 1024 = a / 1024 := by omega
  simp only [tweak, Config.du, h1, h2, dblLEn_succ]

/-- Whether block `i` at address `a` computes its tweak anew, as a number of primitive calls. -/
def seedCalls (a i : Nat) : Nat := if i = 0 ∨ a % Config.du = 0 then 1 else 0

/-- The number of primitive calls of `n` blocks from block `i` on. -/
def xtsCallsFrom (address : Nat) : Nat → Nat → Nat
  | 0, _ => 0
  | n + 1, i => seedCalls (address + 16 * i) i + 1 + xtsCallsFrom address n (i + 1)

theorem xtsCallsFrom_succ (address n i : Nat) (ha : address % 16 = 0) :
    xtsCallsFrom address n (i + 1) = (address + 16 * (i + n)) / 1024 - (address + 16 * i) / 1024 + n := by
  induction n generalizing i with
  | zero => simp [xtsCallsFrom]
  | succ n ih =>
    rw [xtsCallsFrom, ih, show i + 1 + n = i + (n + 1) by omega]
    simp only [seedCalls, Config.du, Nat.succ_ne_zero, false_or]
    have h1 : (address + 16 * i) / 1024 ≤ (address + 16 * (i + 1)) / 1024 := Nat.div_le_div_right (by omega)
    have h2 : (address + 16 * (i + 1)) / 1024 ≤ (address + 16 * (i + (n + 1))) / 1024 := Nat.div_le_div_right (by omega)
    split_ifs <;> omega

/-- The calls of a whole run: one seed per data unit touched and one call per block (70_reset_and_hazards.md R282). -/
theorem xtsCallsFrom_zero (address size : Nat) (ha : address % 16 = 0) (hs : size % 16 = 0) (h0 : size ≠ 0) :
    xtsCallsFrom address (size / 16) 0 = unitsTouched address size + size / 16 := by
  obtain ⟨n, hn⟩ : ∃ n, size / 16 = n + 1 := ⟨size / 16 - 1, by omega⟩
  have hsz : size = 16 * n + 16 := by omega
  rw [hn, xtsCallsFrom, xtsCallsFrom_succ _ _ _ ha]
  simp only [unitsTouched, seedCalls, Config.du, true_or, if_true, hsz, Nat.zero_add, Nat.mul_zero, Nat.add_zero]
  have h1 : (address + (16 * n + 16) - 1) / 1024 = (address + 16 * n) / 1024 := by omega
  omega

/-- The output of `n` blocks from block `i` on (R185). -/
def xtsFrom (F E2 : Block → Block) (address : Nat) (blk : Nat → Block) : Nat → Nat → List Byte
  | 0, _ => []
  | n + 1, i =>
    bytesOfBlock (F (blk i ^^^ tweak E2 (address + 16 * i)) ^^^ tweak E2 (address + 16 * i)) ++ xtsFrom F E2 address blk n (i + 1)

theorem xtsFrom_congr {F E2 : Block → Block} {address : Nat} {blk blk' : Nat → Block} {n i : Nat}
    (h : ∀ k, i ≤ k → k < i + n → blk k = blk' k) : xtsFrom F E2 address blk n i = xtsFrom F E2 address blk' n i := by
  induction n generalizing i with
  | zero => rfl
  | succ n ih =>
    rw [xtsFrom, xtsFrom, h i (Nat.le_refl _) (by omega), ih fun k h1 h2 => h k (by omega) (by omega)]

theorem xtsFrom_eq (F E2 : Block → Block) (address : Nat) (blk : Nat → Block) (n i : Nat) :
    xtsFrom F E2 address blk n i = (List.range n).flatMap fun k =>
      bytesOfBlock (F (blk (i + k) ^^^ tweak E2 (address + 16 * (i + k))) ^^^ tweak E2 (address + 16 * (i + k))) := by
  induction n generalizing i with
  | zero => rfl
  | succ n ih =>
    rw [xtsFrom, ih, List.range_succ_eq_map, List.flatMap_cons, List.flatMap_map]
    simp only [Nat.add_zero, Nat.add_assoc, Nat.add_comm 1]

@[simp] theorem length_xtsFrom (F E2 : Block → Block) (address : Nat) (blk : Nat → Block) (n i : Nat) :
    (xtsFrom F E2 address blk n i).length = 16 * n := by
  induction n generalizing i with
  | zero => rfl
  | succ n ih => rw [xtsFrom, List.length_append, ih]; simp; omega

/-- A run gives as many bytes as it takes (43_xts.md R180). -/
theorem length_xtsBytes (F E2 : Block → Block) (address : Nat) (input : List Byte) (h : input.length % 16 = 0) :
    (xtsBytes F E2 address input).length = input.length := by
  have := xtsFrom_eq F E2 address (blockAt input) (input.length / 16) 0
  simp only [Nat.zero_add] at this
  rw [xtsBytes, ← this, length_xtsFrom]; omega

theorem blockAt_read (m : Memory) (a n i : Nat) (h : 16 * i + 16 ≤ n) :
    blockAt (m.read a n) i = blockOfBytes (m.read (a + 16 * i) 16) := by
  unfold blockAt
  congr 1
  apply List.ext_getElem (by simp; omega)
  intro k h1 h2
  simp [Memory.read, Nat.add_assoc]

/-- A whole run's output, from the memory's own blocks. -/
theorem xtsFrom_zero (F E2 : Block → Block) (address : Nat) (m : Memory) (inp size : Nat) (hs : size % 16 = 0) :
    xtsFrom F E2 address (fun k => blockOfBytes (m.read (inp + 16 * k) 16)) (size / 16) 0 =
      xtsBytes F E2 address (m.read inp size) := by
  rw [xtsFrom_congr (blk' := blockAt (m.read inp size)) fun k _ hk => (blockAt_read m inp size k (by omega)).symm, xtsFrom_eq,
    xtsBytes, Memory.length_read]
  simp only [Nat.zero_add]

/-- The function that a direction applies to a data block under a key (R185). -/
def Direction.fn (P : Params) (d : Direction) (k : Block) : Block → Block :=
  match d with
  | .enc => P.enc k
  | .dec => P.dec k

theorem xtsCipher_ok (P : Params) (j : Nat) (d : Direction) (x : Block) {s : State} (hr : (s.ctxAt (.xcData j)).state = .ready)
    (hf : s.nextFault = false) :
    xtsCipher P j d x s = .ok (d.fn P (s.keyOf (s.ctxAt (.xcData j))) x) s.drawFault := by
  cases d
  · exact bcEnc_ok P x hr hf
  · exact bcDec_ok P x hr hf

/-- The tweak of a block when no call fails (R183, R185). -/
theorem xtsTweak_ok (P : Params) (j a i : Nat) {s : State} (ht : (s.ctxAt (.xcTweak j)).state = .ready)
    (hT : i ≠ 0 → a % Config.du ≠ 0 → s.hidden.t = tweak (P.enc (s.keyOf (s.ctxAt (.xcTweak j)))) a) (hf : s.NoFault (seedCalls a i)) :
    xtsTweak P j a i s = .ok () { s.drawFaults (seedCalls a i) with
      hidden := { s.hidden with t := tweak (P.enc (s.keyOf (s.ctxAt (.xcTweak j)))) a } } := by
  unfold xtsTweak seedCalls at *
  split_ifs at hf ⊢ with h
  · refine (bind_run_ok (bcEnc_ok P _ ht (hf.head (by omega)))).trans ?_
    rw [State.drawFault_eq]
    rfl
  · rw [← hT (fun h' => h (Or.inl h')) fun h' => h (Or.inr h')]
    rfl

/-- The state an XTS run leaves: `n` primitive calls made, the memory and the tweak replaced. -/
def State.xtsMoved (s : State) (n : Nat) (m : Memory) (t : Block) : State :=
  { s.drawFaults n with mem := m, hidden := { s.hidden with t := t } }

@[simp] theorem State.xtsMoved_mem (s : State) (n : Nat) (m : Memory) (t : Block) : (s.xtsMoved n m t).mem = m := rfl
@[simp] theorem State.xtsMoved_t (s : State) (n : Nat) (m : Memory) (t : Block) : (s.xtsMoved n m t).hidden.t = t := rfl
@[simp] theorem State.xtsMoved_primFaults (s : State) (n : Nat) (m : Memory) (t : Block) :
    (s.xtsMoved n m t).primFaults = s.primFaults.drop n := rfl
@[simp] theorem State.xtsMoved_denied (s : State) (n : Nat) (m : Memory) (t : Block) :
    (s.xtsMoved n m t).denied = s.denied := rfl
@[simp] theorem State.xtsMoved_ctxAt (s : State) (n : Nat) (m : Memory) (t : Block) (l : CtxLoc) :
    (s.xtsMoved n m t).ctxAt l = s.ctxAt l := by cases l <;> rfl
@[simp] theorem State.xtsMoved_keyOf (s : State) (n : Nat) (m : Memory) (t : Block) (c : BlockCtx) :
    (s.xtsMoved n m t).keyOf c = s.keyOf c := rfl
theorem State.xtsMoved_moved (s : State) (n k : Nat) (m m' : Memory) (t t' : Block) :
    (s.xtsMoved n m t).xtsMoved k m' t' = s.xtsMoved (n + k) m' t' := by
  simp [State.xtsMoved, State.drawFaults, Nat.add_assoc]
theorem State.xtsMoved_zero (s : State) : s.xtsMoved 0 s.mem s.hidden.t = s := rfl

/-- One block when no call fails (R185). -/
theorem xtsBlock_ok (P : Params) (j : Nat) (d : Direction) (address inp out i : Nat) {s : State}
    (ht : (s.ctxAt (.xcTweak j)).state = .ready) (hd : (s.ctxAt (.xcData j)).state = .ready)
    (hT : i ≠ 0 → (address + 16 * i) % Config.du ≠ 0 →
      s.hidden.t = tweak (P.enc (s.keyOf (s.ctxAt (.xcTweak j)))) (address + 16 * i))
    (ha : s.AdmitsAll [⟨inp + 16 * i, 16, .read⟩, ⟨out + 16 * i, 16, .write⟩])
    (hf : s.NoFault (seedCalls (address + 16 * i) i + 1)) :
    xtsBlock P j d address inp out i s = .ok () (s.xtsMoved (seedCalls (address + 16 * i) i + 1)
        (s.mem.write (out + 16 * i) (bytesOfBlock (d.fn P (s.keyOf (s.ctxAt (.xcData j)))
          (blockOfBytes (s.mem.read (inp + 16 * i) 16) ^^^ tweak (P.enc (s.keyOf (s.ctxAt (.xcTweak j)))) (address + 16 * i)) ^^^
          tweak (P.enc (s.keyOf (s.ctxAt (.xcTweak j)))) (address + 16 * i))))
        (dblLE (tweak (P.enc (s.keyOf (s.ctxAt (.xcTweak j)))) (address + 16 * i)))) := by
  have h1 := xtsTweak_ok P j (address + 16 * i) i ht hT (hf.of_le (by omega))
  generalize seedCalls (address + 16 * i) i = c at *
  generalize tweak (P.enc (s.keyOf (s.ctxAt (.xcTweak j)))) (address + 16 * i) = tw at *
  have h2 : ({ s.drawFaults c with hidden := { s.hidden with t := tw } } : State).nextFault = false :=
    (hf.tail (k := c) (m := 1) rfl (by omega)).head (by omega)
  unfold xtsBlock
  refine (bind_run_ok h1).trans ((bind_run_ok (memRead_ok ha (by simp) (by rfl))).trans ((bind_run_ok (look_run _)).trans
    ((bind_run_ok (xtsCipher_ok P j d _ ?_ h2)).trans ?_)))
  · exact hd
  refine (bind_run_ok (memWrite_ok ha (n := 16) (by simp) (by simp) (by rfl))).trans ((updateHidden_run _).trans ?_)
  simp only [State.drawFault, State.xtsMoved, State.drawFaults, ← List.drop_one, List.drop_drop]
  rfl

/-- The block loop when no call fails (R185): for an output range that is the input range or disjoint from it. -/
theorem xtsLoop_ok (P : Params) (j : Nat) (d : Direction) (address inp out N : Nat) (ha : address % 16 = 0)
    (hsep : inp = out ∨ inp + 16 * N ≤ out ∨ out + 16 * N ≤ inp) (n i : Nat) (hN : i + n ≤ N) (s : State)
    (ht : (s.ctxAt (.xcTweak j)).state = .ready) (hd : (s.ctxAt (.xcData j)).state = .ready)
    (hT : i ≠ 0 → (address + 16 * i) % Config.du ≠ 0 →
      s.hidden.t = tweak (P.enc (s.keyOf (s.ctxAt (.xcTweak j)))) (address + 16 * i))
    (hadm : ∀ k, k < N → s.AdmitsAll [⟨inp + 16 * k, 16, .read⟩, ⟨out + 16 * k, 16, .write⟩])
    (hf : s.NoFault (xtsCallsFrom address n i)) :
    ∃ t, xtsLoop P j d address inp out n i s = .ok () (s.xtsMoved (xtsCallsFrom address n i)
      (s.mem.write (out + 16 * i) (xtsFrom (d.fn P (s.keyOf (s.ctxAt (.xcData j))))
          (P.enc (s.keyOf (s.ctxAt (.xcTweak j)))) address (fun k => blockOfBytes (s.mem.read (inp + 16 * k) 16)) n i)) t) := by
  induction n generalizing i s with
  | zero => exact ⟨s.hidden.t, rfl⟩
  | succ n ih =>
    have hcalls : xtsCallsFrom address (n + 1) i = seedCalls (address + 16 * i) i + 1 + xtsCallsFrom address n (i + 1) := rfl
    rw [hcalls] at hf ⊢
    have hb := xtsBlock_ok P j d address inp out i ht hd hT (hadm i (by omega)) (hf.of_le (by omega))
    generalize seedCalls (address + 16 * i) i + 1 = c at *
    have htw := fun h => tweak_next (P.enc (s.keyOf (s.ctxAt (.xcTweak j)))) (a := address + 16 * i) (by omega) h
    obtain ⟨t, h⟩ := ih (i + 1) (by omega) (s.xtsMoved c (s.mem.write (out + 16 * i) (bytesOfBlock
          (d.fn P (s.keyOf (s.ctxAt (.xcData j))) (blockOfBytes (s.mem.read (inp + 16 * i) 16) ^^^
            tweak (P.enc (s.keyOf (s.ctxAt (.xcTweak j)))) (address + 16 * i)) ^^^
          tweak (P.enc (s.keyOf (s.ctxAt (.xcTweak j)))) (address + 16 * i))))
        (dblLE (tweak (P.enc (s.keyOf (s.ctxAt (.xcTweak j)))) (address + 16 * i)))) (by rw [State.xtsMoved_ctxAt]; exact ht) (by rw [State.xtsMoved_ctxAt]; exact hd)
      (fun _ hb' => by
        rw [show address + 16 * (i + 1) = address + 16 * i + 16 by ring] at hb' ⊢
        rw [State.xtsMoved_t, State.xtsMoved_keyOf, State.xtsMoved_ctxAt]
        exact htw hb')
      (fun k hk => (hadm k hk).congr (State.xtsMoved_denied _ _ _ _))
      (hf.tail (State.xtsMoved_primFaults _ _ _ _) (by omega))
    refine ⟨t, ?_⟩
    rw [State.xtsMoved_ctxAt, State.xtsMoved_ctxAt, State.xtsMoved_keyOf, State.xtsMoved_keyOf, State.xtsMoved_mem,
      State.xtsMoved_moved, show out + 16 * (i + 1) = out + 16 * i + 16 by ring,
      xtsFrom_congr fun k h1 h2 => congrArg blockOfBytes
        (Memory.read_write_other _ _ _ _ _ (by rw [length_bytesOfBlock]; omega))] at h
    unfold xtsLoop
    rw [bind_run_ok hb, h, xtsFrom, Memory.write_append, length_bytesOfBlock]

/-- The work of an XTS command when no call fails (R185, R187): the tweak is wiped. -/
theorem xtsWork_ok (P : Params) (j : Nat) (d : Direction) (r : OperandRegs) {s : State} (ha : r.a3.toNat % 16 = 0)
    (hz : r.a1.toNat ≠ 0) (hs : r.a1.toNat % 16 = 0)
    (hsep : r.a0.toNat = r.a2.toNat ∨ r.a0.toNat + r.a1.toNat ≤ r.a2.toNat ∨ r.a2.toNat + r.a1.toNat ≤ r.a0.toNat)
    (ht : (s.ctxAt (.xcTweak j)).state = .ready) (hd : (s.ctxAt (.xcData j)).state = .ready)
    (hadm : s.AdmitsAll (xtsAccesses r.a0 r.a2 r.a1.toNat))
    (hf : s.NoFault (unitsTouched r.a3.toNat r.a1.toNat + r.a1.toNat / 16)) :
    xtsWork P j d r s = .ok () (s.xtsMoved (unitsTouched r.a3.toNat r.a1.toNat + r.a1.toNat / 16)
      (s.mem.write r.a2.toNat (xtsBytes (d.fn P (s.keyOf (s.ctxAt (.xcData j))))
          (P.enc (s.keyOf (s.ctxAt (.xcTweak j)))) r.a3.toNat (s.mem.read r.a0.toNat r.a1.toNat))) 0) := by
  rw [← xtsCallsFrom_zero _ _ ha hs hz] at hf ⊢
  obtain ⟨t, h⟩ := xtsLoop_ok P j d r.a3.toNat r.a0.toNat r.a2.toNat (r.a1.toNat / 16) ha (by omega) (r.a1.toNat / 16) 0 (by omega) s ht hd
    (fun h => absurd rfl h)
    (fun k hk a h => hadm a (List.mem_flatMap.mpr ⟨k, List.mem_range.mpr hk, h⟩)) hf
  unfold xtsWork
  rw [bind_run_ok h, updateHidden_run, xtsFrom_zero _ _ _ _ _ _ hs]
  rfl

/-! ## Everything a run can do -/

/-- A state that differs from `s` only in the oracle's draws, the memory and the tweak `T`. -/
structure DuringXts (M : Memory → Memory → Prop) (s t : State) : Prop where
  rest : ∃ f n m x, t = { s with primFaults := f, primCalls := n, mem := m, hidden := { s.hidden with t := x } }
  mem : M s.mem t.mem

theorem DuringXts.refl {M : Memory → Memory → Prop} (hM : ∀ m, M m m) (s : State) : DuringXts M s s :=
  ⟨⟨_, _, _, _, rfl⟩, hM _⟩

theorem DuringXts.trans {M : Memory → Memory → Prop} (hM : ∀ a b c, M a b → M b c → M a c) {s t u : State}
    (h : DuringXts M s t) (h' : DuringXts M t u) : DuringXts M s u := by
  obtain ⟨⟨f, n, m, g, rfl⟩, h1⟩ := h
  obtain ⟨⟨f', n', m', g', rfl⟩, k1⟩ := h'
  exact ⟨⟨_, _, _, _, rfl⟩, hM _ _ _ h1 k1⟩

theorem DuringXts.ctxAt {M : Memory → Memory → Prop} {s t : State} (h : DuringXts M s t) (l : CtxLoc) : t.ctxAt l = s.ctxAt l := by
  obtain ⟨⟨f, n, m, g, rfl⟩, -⟩ := h; cases l <;> rfl

/-- Everything one block can do: it ends, or raises FAILURE. -/
theorem xtsBlock_meets (P : Params) (j : Nat) (d : Direction) (address inp out i : Nat) {M : Memory → Memory → Prop}
    (hr : ∀ m, M m m) (hM : ∀ a b c, M a b → M b c → M a c) (hw : ∀ m bs, bs.length = 16 → M m (m.write (out + 16 * i) bs)) {s u : State}
    (ht : (s.ctxAt (.xcTweak j)).state = .ready) (hd : (s.ctxAt (.xcData j)).state = .ready) (hu : DuringXts M s u) :
    Meets (xtsBlock P j d address inp out i) u (fun _ t => DuringXts M s t) (fun e t => e = .failure ∧ DuringXts M s t) := by
  have draw : ∀ v, DuringXts M s v → DuringXts M s v.drawFault := fun v h => h.trans hM ⟨⟨_, _, _, _, rfl⟩, hr _⟩
  unfold xtsBlock
  refine Meets.bind (R := fun _ t => DuringXts M s t) ?_ fun _ v hv => ?_
  · unfold xtsTweak
    split_ifs
    · exact Meets.bind (R := fun _ t => DuringXts M s t)
        (.bcEnc (by rw [hu.ctxAt]; exact ht) (fun _ => ⟨rfl, draw _ hu⟩) fun _ => draw _ hu)
        fun _ v hv => hv.trans hM ⟨⟨_, _, _, _, rfl⟩, hr _⟩
    · exact hu
  refine Meets.bind (R := fun _ t => DuringXts M s t) (.memRead hv) fun x v hv => ?_
  refine Meets.bind (R := fun _ t => DuringXts M s t) hv fun t v hv => ?_
  refine Meets.bind (R := fun _ t => DuringXts M s t) ?_ fun y v hv => ?_
  · cases d
    · exact .bcEnc (by rw [hv.ctxAt]; exact hd) (fun _ => ⟨rfl, draw _ hv⟩) fun _ => draw _ hv
    · exact .bcDec (by rw [hv.ctxAt]; exact hd) (fun _ => ⟨rfl, draw _ hv⟩) fun _ => draw _ hv
  refine Meets.bind (R := fun _ t => DuringXts M s t) (.memWrite (hv.trans hM ⟨⟨_, _, _, _, rfl⟩, hw _ _ (by simp)⟩)) fun _ v hv => ?_
  exact hv.trans hM ⟨⟨_, _, _, _, rfl⟩, hr _⟩

/-- Everything the block loop can do. -/
theorem xtsLoop_meets (P : Params) (j : Nat) (d : Direction) (address inp out N : Nat) {M : Memory → Memory → Prop}
    (hr : ∀ m, M m m) (hM : ∀ a b c, M a b → M b c → M a c)
    (hw : ∀ i, i < N → ∀ m bs, bs.length = 16 → M m (m.write (out + 16 * i) bs)) {s : State}
    (ht : (s.ctxAt (.xcTweak j)).state = .ready) (hd : (s.ctxAt (.xcData j)).state = .ready) (n i : Nat) (hN : i + n ≤ N) {u : State}
    (hu : DuringXts M s u) :
    Meets (xtsLoop P j d address inp out n i) u (fun _ t => DuringXts M s t) (fun e t => e = .failure ∧ DuringXts M s t) := by
  induction n generalizing i u with
  | zero => exact hu
  | succ n ih =>
    exact Meets.bind (R := fun _ t => DuringXts M s t) (xtsBlock_meets P j d address inp out i hr hM (hw i (by omega)) ht hd hu)
      fun _ v hv => ih (i + 1) (by omega) hv

/-- Everything the work of an XTS command on a ready slot can do. -/
theorem xtsWork_meets (P : Params) (j : Nat) (d : Direction) (r : OperandRegs) {M : Memory → Memory → Prop}
    (hr : ∀ m, M m m) (hM : ∀ a b c, M a b → M b c → M a c)
    (hw : ∀ i, i < r.a1.toNat / 16 → ∀ m bs, bs.length = 16 → M m (m.write (r.a2.toNat + 16 * i) bs)) {s : State}
    (ht : (s.ctxAt (.xcTweak j)).state = .ready) (hd : (s.ctxAt (.xcData j)).state = .ready) :
    Meets (xtsWork P j d r) s (fun _ t => DuringXts M s t) (fun e t => e = .failure ∧ DuringXts M s t) :=
  Meets.bind (R := fun _ t => DuringXts M s t)
    (xtsLoop_meets P j d _ _ _ _ hr hM hw ht hd _ 0 (by omega) (.refl hr s))
    fun _ v hv => hv.trans hM ⟨⟨_, _, _, _, rfl⟩, hr _⟩

end Sys2Proof.Machine
end

