-- ==== Sys2Proof/Laws/Facades.lean ====
section
/-! SUPPORT. The loading procedures of the facades and the works of the commands over the engines: what each can do, said
once for each. -/

namespace Sys2Proof.Machine

open Spec

/-! ## Places -/

/-- The places of the slots, each under its own index: equal lookups, equal slots. -/
theorem State.bc_eq_of_ctxAt {s t : State} (h : ∀ c, t.ctxAt (.bc c) = s.ctxAt (.bc c)) : t.bc = s.bc := by
  apply Vector.ext
  intro i hi
  have := h i
  simpa [State.ctxAt, hi] using this

theorem State.xc_eq_of_ctxAt {s t : State}
    (h : ∀ j, t.ctxAt (.xcData j) = s.ctxAt (.xcData j) ∧ t.ctxAt (.xcTweak j) = s.ctxAt (.xcTweak j)) : t.xc = s.xc := by
  apply Vector.ext
  intro i hi
  have := h i
  simp only [State.ctxAt, hi, getElem?_pos, Option.getD_some] at this
  cases h1 : t.xc[i]; cases h2 : s.xc[i]
  simp_all

@[simp] theorem State.setCtx_hidden_bc (s : State) (c : Nat) (v : BlockCtx) : (s.setCtx (.bc c) v).hidden = s.hidden := rfl
@[simp] theorem State.setCtx_hidden_xcData (s : State) (j : Nat) (v : BlockCtx) : (s.setCtx (.xcData j) v).hidden = s.hidden := rfl
@[simp] theorem State.setCtx_hidden_xcTweak (s : State) (j : Nat) (v : BlockCtx) : (s.setCtx (.xcTweak j) v).hidden = s.hidden := rfl
@[simp] theorem State.setCtx_bc_xcData (s : State) (j : Nat) (v : BlockCtx) : (s.setCtx (.xcData j) v).bc = s.bc := rfl
@[simp] theorem State.setCtx_bc_xcTweak (s : State) (j : Nat) (v : BlockCtx) : (s.setCtx (.xcTweak j) v).bc = s.bc := rfl
@[simp] theorem State.setCtx_xc_bc (s : State) (c : Nat) (v : BlockCtx) : (s.setCtx (.bc c) v).xc = s.xc := rfl

/-- What a slot index names exists exactly in range; out of range a change does nothing. -/
theorem State.ctxAt_setCtx (s : State) {l l' : CtxLoc} (hl : l.Exists) (v : BlockCtx) :
    (s.setCtx l v).ctxAt l' = if l' = l then v else s.ctxAt l' := by
  split_ifs with h
  · subst h; exact s.ctxAt_setCtx_self hl v
  · exact s.ctxAt_setCtx_other h v

/-- An XTS slot with both inner contexts replaced. -/
def State.setXc (s : State) (j : Nat) (c : XtsCtx) : State := { s with xc := s.xc.setIfInBounds j c }

theorem State.setCtx_both (s : State) (j : Nat) (a b : BlockCtx) :
    (s.setCtx (.xcData j) a).setCtx (.xcTweak j) b = s.setXc j ⟨a, b⟩ := by
  simp only [State.setCtx, State.setXc]
  congr 1
  apply Vector.ext
  intro i hi
  by_cases h : j = i
  · subst h; simp [hi]
  · simp [h]

theorem State.setXc_setCtx_data (s : State) (j : Nat) (a : BlockCtx) (c : XtsCtx) :
    (s.setCtx (.xcData j) a).setXc j c = s.setXc j c := by
  simp [State.setCtx, State.setXc]

theorem State.xcClean_eq (j : Nat) (s : State) : s.xcClean j = s.setXc j .clear := s.setCtx_both j .clear .clear

@[simp] theorem State.setXc_setXc (s : State) (j : Nat) (c d : XtsCtx) : (s.setXc j c).setXc j d = s.setXc j d := by
  simp [State.setXc]

theorem State.ctxAt_setXc_data (s : State) {j : Nat} (h : j < Config.nxc) (c : XtsCtx) (k : Nat) :
    (s.setXc j c).ctxAt (.xcData k) = if k = j then c.data else s.ctxAt (.xcData k) := by
  split_ifs with hk
  · subst hk; simp [State.setXc, State.ctxAt, h]
  · simp [State.setXc, State.ctxAt, Ne.symm hk]

theorem State.ctxAt_setXc_tweak (s : State) {j : Nat} (h : j < Config.nxc) (c : XtsCtx) (k : Nat) :
    (s.setXc j c).ctxAt (.xcTweak k) = if k = j then c.tweak else s.ctxAt (.xcTweak k) := by
  split_ifs with hk
  · subst hk; simp [State.setXc, State.ctxAt, h]
  · simp [State.setXc, State.ctxAt, Ne.symm hk]

/-! ## Loading -/

/-- `XTS_Load` when no call fails (40_context_lifecycle.md R124). -/
theorem xtsLoad_ok (j : Nat) (k1 k2 : Block) {s : State} (h1 : s.nextFault = false) (h2 : s.drawFault.nextFault = false) :
    xtsLoad j k1 k2 s = .ok () (s.drawFault.drawFault.setXc j ⟨⟨.ready, .loaded, k1⟩, ⟨.ready, .loaded, k2⟩⟩) := by
  rw [← State.setCtx_both]
  exact onRaise_run_ok ((bind_run_ok (bcLoad_ok _ _ h1)).trans (bcLoad_ok _ _ h2))

/-- `XTS_Load` when a call fails: both inner contexts are cleaned (R124). -/
theorem xtsLoad_failure (j : Nat) (k1 k2 : Block) {s : State} (h : s.nextFault = true ∨ s.drawFault.nextFault = true) :
    ∃ f n, xtsLoad j k1 k2 s = .error (.raise .failure) (({ s with primFaults := f, primCalls := n } : State).setXc j .clear) := by
  by_cases h1 : s.nextFault = true
  · have hb : bcLoad (.xcData j) k1 s = .error (.raise .failure) (s.drawFault.setCtx (.xcData j) .clear) := by
      simp [bcLoad, h1, State.bcClean]
    refine ⟨s.primFaults.tail, s.primCalls + 1, (onRaise_run_error (bind_run_error hb)).trans ?_⟩
    · rw [State.xcClean_eq, State.setXc_setCtx_data]; rfl
  · have h2 := h.resolve_left h1
    rw [Bool.not_eq_true] at h1
    refine ⟨s.primFaults.tail.tail, s.primCalls + 1 + 1, (onRaise_run_error ((bind_run_ok (bcLoad_ok _ _ h1)).trans
      (show bcLoad (.xcTweak j) k2 _ = .error (.raise .failure) ((s.drawFault.setCtx (.xcData j) ⟨.ready, .loaded, k1⟩).drawFault.setCtx (.xcTweak j) .clear) from ?_))).trans ?_⟩
    · have h3 : (s.drawFault.setCtx (.xcData j) ⟨.ready, .loaded, k1⟩).nextFault = true := h2
      simp [bcLoad, h3, State.bcClean]
    · rw [State.xcClean_eq]
      have := State.setCtx_both s.drawFault.drawFault j ⟨.ready, .loaded, k1⟩ .clear
      have h4 : ((s.drawFault.setCtx (.xcData j) ⟨.ready, .loaded, k1⟩).drawFault.setCtx (.xcTweak j) .clear) =
        s.drawFault.drawFault.setXc j ⟨⟨.ready, .loaded, k1⟩, .clear⟩ := this
      rw [h4, State.setXc_setXc]
      rfl

/-- Everything `XTS_Load` can do (R124): both contexts ready, or both cleaned. -/
theorem xtsLoad_meets (j : Nat) (k1 k2 : Block) {s : State} :
    Meets (xtsLoad j k1 k2) s
      (fun _ t => ∃ f n, t = ({ s with primFaults := f, primCalls := n } : State).setXc j ⟨⟨.ready, .loaded, k1⟩, ⟨.ready, .loaded, k2⟩⟩)
      (fun e t => e = .failure ∧ ∃ f n, t = ({ s with primFaults := f, primCalls := n } : State).setXc j .clear) := by
  by_cases h : s.nextFault = true ∨ s.drawFault.nextFault = true
  · obtain ⟨f, n, h'⟩ := xtsLoad_failure j k1 k2 h
    unfold Meets
    rw [h']
    exact ⟨rfl, f, n, rfl⟩
  · simp only [not_or, Bool.not_eq_true] at h
    exact Meets.of_ok (xtsLoad_ok j k1 k2 h.1 h.2) ⟨_, _, rfl⟩

/-- The derived key of the data authentication commands fits the buffer (44_data_auth.md R200: 37 bytes). -/
theorem daRejects (P : Params) : kdfRejects 16 Config.daLabel.length (beBytes 4 P.daContext.toNat).length = false := by
  rw [length_beBytes]; decide

/-- `DA_Load` when no call fails (44_data_auth.md R200). -/
theorem daLoad_ok (P : Params) (l : CtxLoc) {s : State} (hf : s.NoFault (kdfCalls 16 27 4 + 1)) :
    ∃ x, daLoad P l s = .ok () ((({ s.drawFaults (kdfCalls 16 27 4 + 1) with hidden := s.hidden.afterDerive x } : State).setCtx l
      ⟨.ready, .loaded, blockOfBytes (kdfBytes (P.enc s.devKey) 16 Config.daLabel (beBytes 4 P.daContext.toNat))⟩)) := by
  have hl : Config.daLabel.length = 27 := rfl
  obtain ⟨h, he, hd, h1, ht, hg, hc, hk⟩ := kdfToDkey_ok P 16 Config.daLabel (beBytes 4 P.daContext.toNat) (s := s) (daRejects P)
    (by rw [hl, length_beBytes]; exact hf.of_le (by omega))
  rw [hl, length_beBytes] at he
  have hkey : h.dkey.take 16 = kdfBytes (P.enc s.devKey) 16 Config.daLabel (beBytes 4 P.daContext.toNat) := by
    rw [hd, bufStore, List.take_zero, List.nil_append, List.take_append_of_le_length (by simp), List.take_of_length_le (by simp)]
  have hnf : ({ s.drawFaults (kdfCalls 16 27 4) with hidden := h } : State).nextFault = false :=
    (hf.tail (k := kdfCalls 16 27 4) (m := 1) rfl (by omega)).head (by omega)
  have hh : ({ h with dkey := zeroBytes Config.dkeyBytes } : Hidden) = s.hidden.afterDerive h.x := by
    obtain ⟨c0, c1, c2, c3⟩ := hc
    cases h
    simp_all [Hidden.afterDerive, Hidden.afterKdf, Hidden.afterTransient, Hidden.afterCmac]
  refine ⟨h.x, ?_⟩
  unfold daLoad
  refine (onExit_run_ok (a := ()) (t := ({ s.drawFaults (kdfCalls 16 27 4) with hidden := h } : State).drawFault.setCtx l
    ⟨.ready, .loaded, blockOfBytes (h.dkey.take 16)⟩) ?_).trans ?_
  · refine (bind_run_ok he).trans ((bind_run_ok (look_run _)).trans ?_)
    exact bcLoad_ok l _ hnf
  · rw [hkey, ← hh]
    cases l <;> simp [State.wipeDkey, State.setCtx, State.drawFaults, State.drawFault, Nat.add_assoc]

/-- Memory as it was: the relation of the derivations that write none. -/
abbrev MemSame (m m' : Sunk) : Prop := m'.1 = m.1

/-- Everything `DA_Load` can do (R200): the context loaded; or untouched, or cleaned, when a call failed. -/
theorem daLoad_meets (P : Params) (l : CtxLoc) {s : State} :
    Meets (daLoad P l) s
      (fun _ t => ∃ u k, DuringKdf MemSame s u ∧ u.hidden.kbuf = zeroBytes Config.kdfBufCap ∧
        t = (u.setCtx l ⟨.ready, .loaded, k⟩).wipeDkey)
      (fun e t => e = .failure ∧ ∃ u, DuringKdf MemSame s u ∧ u.hidden.kbuf = zeroBytes Config.kdfBufCap ∧
        (t = u.wipeDkey ∨ t = (u.setCtx l .clear).wipeDkey)) := by
  refine Meets.onExit (Meets.bind ((kdfToDkey_meets P 16 _ _ (daRejects P)).mono (fun _ _ h => h)
    fun _ t h => ⟨h.1, t, h.2.1, h.2.2, Or.inl rfl⟩) fun _ u h => ?_)
  have draw : DuringKdf MemSame s u.drawFault :=
    h.1.trans (fun _ _ _ h h' => h'.trans h) ⟨⟨_, _, _, _, rfl⟩, rfl, rfl, rfl, rfl, id⟩
  exact Meets.bcLoad (fun _ => ⟨rfl, _, draw, h.2, Or.inr rfl⟩) fun _ => ⟨_, _, draw, h.2, rfl⟩

/-- `ME_Load` when no call fails (45_mem_encrypt.md R220). -/
theorem meLoad_ok (P : Params) (j : Nat) (label context : List Byte) {s : State}
    (hr : kdfRejects 32 label.length context.length = false) (hf : s.NoFault (kdfCalls 32 label.length context.length + 2)) :
    ∃ x, meLoad P j label context s = .ok ()
      (({ s.drawFaults (kdfCalls 32 label.length context.length + 2) with hidden := s.hidden.afterDerive x } : State).setXc j
        ⟨⟨.ready, .loaded, blockOfBytes ((kdfBytes (P.enc s.devKey) 32 label context).take 16)⟩,
         ⟨.ready, .loaded, blockOfBytes ((kdfBytes (P.enc s.devKey) 32 label context).drop 16)⟩⟩) := by
  obtain ⟨h, he, hd, h1, ht, hg, hc, hk⟩ := kdfToDkey_ok P 32 label context hr (hf.of_le (by omega))
  generalize kdfCalls 32 label.length context.length = n at *
  have hlen := length_kdfBytes (P.enc s.devKey) 32 label context
  generalize kdfBytes (P.enc s.devKey) 32 label context = km at *
  have hk1 : h.dkey.take 16 = km.take 16 := by
    rw [hd, bufStore, List.take_zero, List.nil_append, List.take_append_of_le_length (by omega)]
  have hk2 : (h.dkey.drop 16).take 16 = km.drop 16 := by
    rw [hd, bufStore, List.take_zero, List.nil_append, List.drop_append_of_le_length (by omega),
      List.take_append_of_le_length (by simp; omega), List.take_of_length_le (by simp; omega)]
  have hf1 : ({ s.drawFaults n with hidden := h } : State).NoFault 2 := hf.tail (k := n) rfl (by omega)
  have hh : ({ h with dkey := zeroBytes Config.dkeyBytes } : Hidden) = s.hidden.afterDerive h.x := by
    obtain ⟨c0, c1, c2, c3⟩ := hc
    cases h
    simp_all [Hidden.afterDerive, Hidden.afterKdf, Hidden.afterTransient, Hidden.afterCmac]
  refine ⟨h.x, ?_⟩
  unfold meLoad
  refine (onExit_run_ok (a := ()) (t := ({ s.drawFaults n with hidden := h } : State).drawFault.drawFault.setXc j
    ⟨⟨.ready, .loaded, blockOfBytes (h.dkey.take 16)⟩, ⟨.ready, .loaded, blockOfBytes ((h.dkey.drop 16).take 16)⟩⟩) ?_).trans ?_
  · refine (bind_run_ok he).trans ((bind_run_ok (look_run _)).trans ?_)
    exact xtsLoad_ok j _ _ (hf1.head (by omega)) ((hf1.tail (k := 1) (m := 1) (by simp) (by omega)).head (by omega))
  · rw [hk1, hk2, ← hh]
    simp [State.wipeDkey, State.setXc, State.drawFaults, State.drawFault, Nat.add_assoc, ← List.drop_one, List.drop_drop]

/-- Everything `ME_Load` can do (R220): both contexts loaded; or untouched, or cleaned, when a call failed. -/
theorem meLoad_meets (P : Params) (j : Nat) (label context : List Byte)
    (hr : kdfRejects 32 label.length context.length = false) {s : State} :
    Meets (meLoad P j label context) s
      (fun _ t => ∃ u k1 k2, DuringKdf MemSame s u ∧ u.hidden.kbuf = zeroBytes Config.kdfBufCap ∧
        t = (u.setXc j ⟨⟨.ready, .loaded, k1⟩, ⟨.ready, .loaded, k2⟩⟩).wipeDkey)
      (fun e t => e = .failure ∧ ∃ u, DuringKdf MemSame s u ∧ u.hidden.kbuf = zeroBytes Config.kdfBufCap ∧
        (t = u.wipeDkey ∨ t = (u.setXc j .clear).wipeDkey)) := by
  refine Meets.onExit (Meets.bind ((kdfToDkey_meets P 32 _ _ hr).mono (fun _ _ h => h)
    fun _ t h => ⟨h.1, t, h.2.1, h.2.2, Or.inl rfl⟩) fun _ u h => ?_)
  have moved : ∀ f n, DuringKdf MemSame s { u with primFaults := f, primCalls := n } := fun f n =>
    h.1.trans (fun _ _ _ h h' => h'.trans h) ⟨⟨_, _, _, _, rfl⟩, rfl, rfl, rfl, rfl, id⟩
  refine (xtsLoad_meets j _ _).mono ?_ ?_
  · rintro _ t ⟨f, n, rfl⟩; exact ⟨_, _, _, moved f n, h.2, rfl⟩
  · rintro _ t ⟨rfl, f, n, rfl⟩; exact ⟨rfl, _, moved f n, h.2, Or.inr rfl⟩

/-! ## Tags -/

/-- The tag of the message computed and written, when no call fails (41_cmac.md R146). -/
theorem tagWork_ok (P : Params) (c : CtxLoc) (r : OperandRegs) {s : State} (hr : (s.ctxAt c).state = .ready)
    (ha : s.AdmitsAll [readAt r.a0 r.a1.toNat, writeAt r.a2 16]) (hf : s.NoFault (cmacCalls r.a1.toNat)) :
    ∃ x, tagWork P c r s = .ok () { s.drawFaults (cmacCalls r.a1.toNat) with
      mem := s.mem.write r.a2.toNat (bytesOfBlock (cmacTag (P.enc (s.keyOf (s.ctxAt c))) (s.mem.read r.a0.toNat r.a1.toNat)))
      hidden := s.hidden.afterCmac x } := by
  obtain ⟨x, h⟩ := cmacBytes_ok P c (s.mem.read r.a0.toNat r.a1.toNat) hr (by rw [Memory.length_read]; exact hf)
  rw [Memory.length_read] at h
  exact ⟨x, (bind_run_ok (memRead_ok ha (by simp [readAt]) rfl)).trans ((bind_run_ok h).trans
    (memWrite_ok ha (n := 16) (by simp [writeAt]) (by simp) (by rfl)))⟩

/-- Everything the tag computation on a ready context can do (R146). -/
theorem tagWork_meets (P : Params) (c : CtxLoc) (r : OperandRegs) {s : State} (hr : (s.ctxAt c).state = .ready) :
    Meets (tagWork P c r) s
      (fun _ t => ∃ u y, AfterCmac s u ∧ t = { u with mem := s.mem.write r.a2.toNat (bytesOfBlock y) })
      (fun e t => e = .failure ∧ AfterCmac s t) := by
  unfold tagWork
  refine Meets.bind (R := fun _ t => t = s) (.memRead rfl) ?_
  rintro m _ rfl
  refine Meets.bind (cmacBytes_meets P c m hr) fun y u hu => .memWrite ⟨u, y, hu, ?_⟩
  obtain ⟨f, n, x, rfl⟩ := hu
  rfl

/-- The tag recomputed and compared, when no call fails (44_data_auth.md R203). -/
theorem verifyWork_ok (P : Params) (c : CtxLoc) (r : OperandRegs) {s : State} (hr : (s.ctxAt c).state = .ready)
    (ha : s.AdmitsAll [readAt r.a0 r.a1.toNat, readAt r.a2 16]) (hf : s.NoFault (cmacCalls r.a1.toNat)) :
    ∃ x, verifyWork P c r s =
      if bytesOfBlock (cmacTag (P.enc (s.keyOf (s.ctxAt c))) (s.mem.read r.a0.toNat r.a1.toNat)) = s.mem.read r.a2.toNat 16 then
        .ok () { s.drawFaults (cmacCalls r.a1.toNat) with hidden := { s.hidden.afterCmac x with
          tagBuf := cmacTag (P.enc (s.keyOf (s.ctxAt c))) (s.mem.read r.a0.toNat r.a1.toNat) } }
      else .error (.raise .invalidTag) { s.drawFaults (cmacCalls r.a1.toNat) with hidden := { s.hidden.afterCmac x with
          tagBuf := cmacTag (P.enc (s.keyOf (s.ctxAt c))) (s.mem.read r.a0.toNat r.a1.toNat) } } := by
  obtain ⟨x, h⟩ := cmacBytes_ok P c (s.mem.read r.a0.toNat r.a1.toNat) hr (by rw [Memory.length_read]; exact hf)
  rw [Memory.length_read] at h
  refine ⟨x, (bind_run_ok (memRead_ok ha (by simp [readAt]) rfl)).trans
    ((bind_run_ok h).trans ((bind_run_ok (updateHidden_run _)).trans
    ((bind_run_ok (memRead_ok ha (by simp [readAt]) (by rfl))).trans ((bind_run_ok (look_run _)).trans ?_))))⟩
  by_cases hb : bytesOfBlock (cmacTag (P.enc (s.keyOf (s.ctxAt c))) (s.mem.read r.a0.toNat r.a1.toNat)) = s.mem.read r.a2.toNat 16
  · rw [if_pos hb]; exact congrFun (if_pos hb) _
  · rw [if_neg hb]; exact congrFun (if_neg hb) _

/-- Everything the tag comparison on a ready context can do (R203, R206). -/
theorem verifyWork_meets (P : Params) (c : CtxLoc) (r : OperandRegs) {s : State} (hr : (s.ctxAt c).state = .ready) :
    Meets (verifyWork P c r) s
      (fun _ t => ∃ u y, AfterCmac s u ∧ t = { u with hidden := { u.hidden with tagBuf := y } })
      (fun e t => (e = .failure ∧ AfterCmac s t) ∨
        (e = .invalidTag ∧ ∃ u y, AfterCmac s u ∧ t = { u with hidden := { u.hidden with tagBuf := y } })) := by
  unfold verifyWork
  refine Meets.bind (R := fun _ t => t = s) (.memRead rfl) ?_
  rintro m _ rfl
  refine Meets.bind ((cmacBytes_meets P c m hr).mono (fun _ _ h => h) fun _ _ h => Or.inl h) fun y u hu => ?_
  refine Meets.bind (R := fun _ t => t = { u with hidden := { u.hidden with tagBuf := y } }) rfl ?_
  rintro _ _ rfl
  refine Meets.bind (R := fun _ t => t = { u with hidden := { u.hidden with tagBuf := y } }) (.memRead rfl) ?_
  rintro given _ rfl
  refine Meets.bind (R := fun _ t => t = { u with hidden := { u.hidden with tagBuf := y } }) rfl ?_
  rintro own _ rfl
  split_ifs
  · exact ⟨u, y, hu, rfl⟩
  · exact Or.inr ⟨rfl, u, y, hu, rfl⟩

end Sys2Proof.Machine
end

