-- ==== Sys2Proof/Laws/Asks.lean ====
section
/-! SUPPORT. What the works of the commands ask of the platform: a work is refused only at one of the accesses of its command
that the platform does not admit (20_memory.md R58, R60). -/

namespace Sys2Proof.Machine

/-- Whatever the state, `p` keeps the platform's admission and is refused only at an access of `L` that is not admitted. -/
def Asks {α : Type} (L : List Access) (p : Proc α) : Prop :=
  ∀ s : State, match p s with
    | .ok _ t => t.denied = s.denied
    | .error (.raise _) t => t.denied = s.denied
    | .error (.refuse r) _ => r = .accessNotAdmitted ∧ ∃ a ∈ L, a.len ≠ 0 ∧ a ∈ s.denied

variable {α β : Type} {L : List Access}

/-- Where a work was refused. -/
theorem Asks.refused {p : Proc α} (h : Asks L p) {s t : State} {r : Refusal} (hp : p s = .error (.refuse r) t) :
    r = .accessNotAdmitted ∧ ∃ a ∈ L, a.len ≠ 0 ∧ a ∈ s.denied := by
  simpa only [hp] using h s

/-- A work whose accesses are all admitted is not refused. -/
theorem Asks.not_refused {p : Proc α} (h : Asks L p) {s : State} (ha : s.AdmitsAll L) :
    (∃ a t, p s = .ok a t) ∨ ∃ c t, p s = .error (.raise c) t := by
  rcases hp : p s with ⟨a, t⟩ | ⟨c | r, t⟩
  · exact Or.inl ⟨a, t, rfl⟩
  · exact Or.inr ⟨c, t, rfl⟩
  · obtain ⟨-, a, hm, hn, hd⟩ := h.refused hp
    exact absurd hd ((ha a hm).resolve_left hn)

theorem Asks.mono {L' : List Access} {p : Proc α} (h : Asks L p) (hl : ∀ a ∈ L, a ∈ L') : Asks L' p := by
  intro s
  have := h s
  split <;> rename_i hp <;> rw [hp] at this
  · exact this
  · exact this
  · obtain ⟨h1, a, ha, h2⟩ := this
    exact ⟨h1, a, hl a ha, h2⟩

theorem Asks.pure (a : α) : Asks L (pure a : Proc α) := fun _ => rfl
theorem Asks.raise (c : Status) : Asks L (raise c : Proc α) := fun _ => rfl
theorem Asks.look (f : State → α) : Asks L (look f) := fun _ => rfl
theorem Asks.updateHidden (f : Hidden → Hidden) : Asks L (updateHidden f) := fun _ => rfl

theorem Asks.bind {p : Proc β} {f : β → Proc α} (h : Asks L p) (hf : ∀ b, Asks L (f b)) : Asks L (p >>= f) := by
  intro s
  have hs := h s
  rcases hp : p s with ⟨b, t⟩ | ⟨c, t⟩ <;> rw [hp] at hs
  · have ht := hf b t
    rw [bind_run_ok hp]
    rw [show t.denied = s.denied from hs] at ht
    exact ht
  · rw [bind_run_error hp]
    cases c <;> exact hs

theorem Asks.onExit {p : Proc α} (h : Asks L p) {f : State → State} (hf : ∀ s, (f s).denied = s.denied) : Asks L (onExit f p) := by
  intro s
  have hs := h s
  rcases hp : p s with ⟨b, t⟩ | ⟨c, t⟩ <;> rw [hp] at hs
  · rw [onExit_run_ok hp]; exact (hf t).trans hs
  · rw [onExit_run_error hp]
    cases c with
    | raise c => exact (hf t).trans hs
    | refuse r => exact hs

theorem Asks.onRaise {p : Proc α} (h : Asks L p) {f : State → State} (hf : ∀ s, (f s).denied = s.denied) : Asks L (onRaise f p) := by
  intro s
  have hs := h s
  rcases hp : p s with ⟨b, t⟩ | ⟨c, t⟩ <;> rw [hp] at hs
  · rw [onRaise_run_ok hp]; exact hs
  · rw [onRaise_run_error hp]
    cases c with
    | raise c => exact (hf t).trans hs
    | refuse r => exact hs

theorem Asks.ite {P : Prop} [Decidable P] {p q : Proc α} (hp : Asks L p) (hq : Asks L q) : Asks L (if P then p else q) := by
  split_ifs <;> assumption

theorem ask_asks {a : Access} (h : a ∈ L) : Asks L (ask a) := by
  intro s
  unfold ask
  split <;> rename_i hp <;> split at hp <;> cases hp
  · rfl
  · rename_i hn
    rw [State.admitsAccess_iff, not_or, not_not] at hn
    exact ⟨rfl, a, h, hn⟩

theorem memRead_asks {addr n : Nat} (h : ⟨addr, n, .read⟩ ∈ L) : Asks L (memRead addr n) := (ask_asks h).bind fun _ => .look _

theorem memWrite_asks {addr n : Nat} {bs : List Byte} (h : ⟨addr, n, .write⟩ ∈ L) (hn : bs.length = n) : Asks L (memWrite addr bs) := by
  subst hn
  exact (ask_asks h).bind fun _ _ => rfl

theorem State.denied_setCtx (s : State) (l : CtxLoc) (c : BlockCtx) : (s.setCtx l c).denied = s.denied := by cases l <;> rfl

theorem bcEnc_asks (P : Params) (l : CtxLoc) (x : Block) : Asks L (bcEnc P l x) := by
  intro s; unfold bcEnc; split_ifs <;> rfl

theorem bcDec_asks (P : Params) (l : CtxLoc) (x : Block) : Asks L (bcDec P l x) := by
  intro s; unfold bcDec; split_ifs <;> rfl

theorem bcLoad_asks (l : CtxLoc) (k : Block) : Asks L (bcLoad l k) := by
  intro s; unfold bcLoad; split_ifs <;> exact State.denied_setCtx _ _ _

theorem bcLoadDev_asks (l : CtxLoc) : Asks L (bcLoadDev l) := by
  intro s; unfold bcLoadDev; split_ifs <;> exact State.denied_setCtx _ _ _

/-! ## The engines ask nothing; the works ask for their operands -/

theorem cmacChain_asks (P : Params) (c : CtxLoc) (n : Nat) (m : List Byte) : Asks L (cmacChain P c n m) := by
  induction n generalizing m with
  | zero => exact .pure _
  | succ n ih =>
    exact .ite ((Asks.look _).bind fun _ => (bcEnc_asks P c _).bind fun _ => (Asks.updateHidden _).bind fun _ => ih _) (.pure _)

theorem cmacBytes_asks (P : Params) (c : CtxLoc) (m : List Byte) : Asks L (cmacBytes P c m) := by
  refine Asks.onExit ?_ fun _ => rfl
  refine (bcEnc_asks P c 0).bind fun _ => (Asks.updateHidden _).bind fun _ => (Asks.updateHidden _).bind fun _ =>
    (Asks.updateHidden _).bind fun _ => (cmacChain_asks P c _ m).bind fun r => Asks.bind ?_ fun _ =>
    (Asks.look _).bind fun _ => bcEnc_asks P c _
  exact .ite (.updateHidden _) ((Asks.updateHidden _).bind fun _ => .updateHidden _)

theorem cmacDev_asks (P : Params) (m : List Byte) : Asks L (cmacDev P m) :=
  ((bcLoadDev_asks _).bind fun _ => cmacBytes_asks P _ m).onExit fun _ => rfl

theorem kdfLoop_asks (P : Params) (keyLen inLen : Nat) {sink : Nat → List Byte → Proc Unit}
    (hs : ∀ i bs, 16 * i < keyLen → bs.length = min 16 (keyLen - 16 * i) → Asks L (sink (16 * i) bs)) (n i : Nat) :
    Asks L (kdfLoop P keyLen inLen sink n (16 * i)) := by
  induction n generalizing i with
  | zero => exact .pure _
  | succ n ih =>
    unfold kdfLoop
    split_ifs with h
    · exact (Asks.look _).bind fun _ => (cmacDev_asks P _).bind fun _ => (hs i _ h (by simp)).bind fun _ =>
        (Asks.updateHidden _).bind fun _ => ih (i + 1)
    · exact .pure _

theorem kdfRun_asks (P : Params) (keyLen : Nat) (label context : List Byte) {sink : Nat → List Byte → Proc Unit}
    (hs : ∀ i bs, 16 * i < keyLen → bs.length = min 16 (keyLen - 16 * i) → Asks L (sink (16 * i) bs)) :
    Asks L (kdfRun P keyLen label context sink) :=
  .ite (.raise _) (((Asks.updateHidden _).bind fun _ => kdfLoop_asks P keyLen _ hs _ 0).onExit fun _ => rfl)

theorem daLoad_asks (P : Params) (l : CtxLoc) : Asks L (daLoad P l) :=
  ((kdfRun_asks P 16 _ _ fun _ _ _ _ => .updateHidden _).bind fun _ => (Asks.look _).bind fun _ => bcLoad_asks _ _).onExit
    fun _ => rfl

theorem xtsLoad_asks (j : Nat) (k1 k2 : Block) : Asks L (xtsLoad j k1 k2) :=
  ((bcLoad_asks _ _).bind fun _ => bcLoad_asks _ _).onRaise fun _ => rfl

theorem meLoad_asks (P : Params) (j : Nat) (label context : List Byte) : Asks L (meLoad P j label context) :=
  ((kdfRun_asks P 32 _ _ fun _ _ _ _ => .updateHidden _).bind fun _ => (Asks.look _).bind fun _ => xtsLoad_asks _ _ _).onExit
    fun _ => rfl

/-- BC_INIT_KEY asks for the key (40_context_lifecycle.md R120). -/
theorem bcInitKeyWork_asks (c : Nat) (r : OperandRegs) : Asks [readAt r.a0 16] (bcInitKeyWork c r) :=
  (memRead_asks (by simp [readAt])).bind fun _ => bcLoad_asks _ _

/-- XTS_INIT asks for the two keys (R124). -/
theorem xtsInitWork_asks (j : Nat) (r : OperandRegs) : Asks [readAt r.a0 16, readAt r.a1 16] (xtsInitWork j r) :=
  (memRead_asks (by simp [readAt])).bind fun _ => (memRead_asks (by simp [readAt])).bind fun _ => xtsLoad_asks _ _ _

/-- A tag command asks for the message and the tag (41_cmac.md R146). -/
theorem tagWork_asks (P : Params) (c : CtxLoc) (r : OperandRegs) :
    Asks [readAt r.a0 r.a1.toNat, writeAt r.a2 16] (tagWork P c r) :=
  (memRead_asks (by simp [readAt])).bind fun _ => (cmacBytes_asks P c _).bind fun _ =>
    memWrite_asks (n := 16) (by simp [writeAt]) (by simp)

/-- CMAC_KEY asks for the key, the message and the tag (R147). -/
theorem cmacKeyWork_asks (P : Params) (r : OperandRegs) :
    Asks [readAt r.a3 16, readAt r.a0 r.a1.toNat, writeAt r.a2 16] (cmacKeyWork P r) :=
  ((memRead_asks (by simp [readAt])).bind fun _ => (bcLoad_asks _ _).bind fun _ =>
    (tagWork_asks P _ r).mono (by simp)).onExit fun _ => rfl

/-- CMAC_DEVKEY asks for the message and the tag (R148). -/
theorem cmacDevkeyWork_asks (P : Params) (r : OperandRegs) :
    Asks [readAt r.a0 r.a1.toNat, writeAt r.a2 16] (cmacDevkeyWork P r) :=
  (memRead_asks (by simp [readAt])).bind fun _ => (cmacDev_asks P _).bind fun _ =>
    memWrite_asks (n := 16) (by simp [writeAt]) (by simp)

/-- KDF_DERIVE asks for the label, the context and each output segment (42_kdf.md R166). -/
theorem kdfDeriveWork_asks (P : Params) (r : OperandRegs) :
    Asks (readAt r.a2 r.a3.toNat :: readAt r.a4 r.a5.toNat :: kdfSegments r.a0 r.a1.toNat) (kdfDeriveWork P r) :=
  (memRead_asks (by simp [readAt])).bind fun _ => (memRead_asks (by simp [readAt])).bind fun _ =>
    kdfRun_asks P _ _ _ fun i _ hi hn => memWrite_asks
      (List.mem_cons_of_mem _ (List.mem_cons_of_mem _ (List.mem_map.mpr ⟨i, List.mem_range.mpr (by omega), rfl⟩))) hn

/-- A comparison asks for the message and the supplied tag (44_data_auth.md R203). -/
theorem verifyWork_asks (P : Params) (c : CtxLoc) (r : OperandRegs) :
    Asks [readAt r.a0 r.a1.toNat, readAt r.a2 16] (verifyWork P c r) :=
  (memRead_asks (by simp [readAt])).bind fun _ => (cmacBytes_asks P c _).bind fun _ => (Asks.updateHidden _).bind fun _ =>
    (memRead_asks (by simp [readAt])).bind fun _ => (Asks.look _).bind fun _ => .ite (.pure _) (.raise _)

/-- DA_COMPUTE_EASY asks for the message and the tag (R204). -/
theorem daComputeEasyWork_asks (P : Params) (r : OperandRegs) :
    Asks [readAt r.a0 r.a1.toNat, writeAt r.a2 16] (daComputeEasyWork P r) :=
  ((daLoad_asks P _).bind fun _ => tagWork_asks P _ r).onExit fun _ => rfl

/-- DA_VERIFY_EASY asks for the message and the supplied tag (R205). -/
theorem daVerifyEasyWork_asks (P : Params) (r : OperandRegs) :
    Asks [readAt r.a0 r.a1.toNat, readAt r.a2 16] (daVerifyEasyWork P r) :=
  ((daLoad_asks P _).bind fun _ => verifyWork_asks P _ r).onExit fun _ => rfl

/-- ME_INIT asks for the label and the context (45_mem_encrypt.md R221). -/
theorem meInitWork_asks (P : Params) (j : Nat) (r : OperandRegs) :
    Asks [readAt r.a2 r.a3.toNat, readAt r.a4 r.a5.toNat] (meInitWork P j r) :=
  (memRead_asks (by simp [readAt])).bind fun _ => (memRead_asks (by simp [readAt])).bind fun _ => meLoad_asks P j _ _

theorem xtsLoop_asks (P : Params) (j : Nat) (d : Direction) (address inp out N : Nat)
    (hl : ∀ k, k < N → (⟨inp + 16 * k, 16, .read⟩ : Access) ∈ L ∧ (⟨out + 16 * k, 16, .write⟩ : Access) ∈ L) (n i : Nat)
    (hN : i + n ≤ N) : Asks L (xtsLoop P j d address inp out n i) := by
  induction n generalizing i with
  | zero => exact .pure _
  | succ n ih =>
    refine Asks.bind ?_ fun _ => ih (i + 1) (by omega)
    refine Asks.bind (.ite ((bcEnc_asks P _ _).bind fun _ => .updateHidden _) (.pure _)) fun _ =>
      (memRead_asks (hl i (by omega)).1).bind fun _ => (Asks.look _).bind fun _ => Asks.bind ?_ fun _ =>
      (memWrite_asks (hl i (by omega)).2 (by simp)).bind fun _ => .updateHidden _
    cases d
    · exact bcEnc_asks P _ _
    · exact bcDec_asks P _ _

/-- An XTS command asks for each block it reads and each it writes (43_xts.md R185). -/
theorem xtsWork_asks (P : Params) (j : Nat) (d : Direction) (r : OperandRegs) :
    Asks (xtsAccesses r.a0 r.a2 r.a1.toNat) (xtsWork P j d r) :=
  (xtsLoop_asks P j d _ _ _ (r.a1.toNat / 16) (fun k hk =>
    ⟨List.mem_flatMap.mpr ⟨k, List.mem_range.mpr hk, by simp⟩, List.mem_flatMap.mpr ⟨k, List.mem_range.mpr hk, by simp⟩⟩)
    _ 0 (by omega)).bind fun _ => .updateHidden _

/-! ## Launching -/

/-- Every way a command whose work asks for its own accesses can be refused. -/
theorem run_stops {i : Instr} {g : Gate} {w : Proc Unit} {s : State} {r : Refusal} (hw : Asks (accessesOf i s.regs) w)
    (h : run i g w s = .refused r) :
    g = .refuse r ∨ (r = .accessPastTop ∧ ¬ s.InSpace i) ∨
      (r = .accessNotAdmitted ∧ ∃ a ∈ accessesOf i s.regs, a.len ≠ 0 ∧ a ∈ s.denied) := by
  rcases run_refused h with h | ⟨-, h⟩ | ⟨-, -, t, h⟩
  · exact Or.inl h
  · exact Or.inr (Or.inl h)
  · exact Or.inr (Or.inr (hw.refused h))

/-- A command whose checks do not refuse and whose accesses are all admitted answers a next state. -/
theorem run_answers {i : Instr} {g : Gate} {w : Proc Unit} {s : State} (hw : Asks (accessesOf i s.regs) w)
    (hg : ∀ r, g ≠ .refuse r) (ha : s.Admits i) : ∃ t, run i g w s = .next t := by
  cases hgo : g with
  | go =>
    rw [run_go rfl ha.1]
    rcases hw.not_refused ha.2 with ⟨_, t, h⟩ | ⟨c, t, h⟩ <;> rw [h]
    exacts [⟨_, rfl⟩, ⟨_, rfl⟩]
  | raise c => exact ⟨_, run_raise rfl⟩
  | refuse r => exact absurd hgo (hg r)

end Sys2Proof.Machine
end

