-- ==== Sys2Proof/Laws/Exec.lean ====
section
/-! SUPPORT. What a command can do, said once for all 21: it is rejected and changes STATUS alone, or its work has the
effect described by `Effect`. -/

namespace Sys2Proof.Machine

open Spec

/-! ## The checks -/

theorem bcSlotGate_go {c : Nat} : bcSlotGate c = .go ↔ c < Config.nbc := by
  unfold bcSlotGate
  split_ifs with h
  · exact ⟨nofun, fun h' => absurd h (by omega)⟩
  · exact ⟨fun _ => by omega, fun _ => rfl⟩

theorem xcSlotGate_go {j : Nat} : xcSlotGate j = .go ↔ j < Config.nxc := by
  unfold xcSlotGate
  split_ifs with h
  · exact ⟨nofun, fun h' => absurd h (by omega)⟩
  · exact ⟨fun _ => by omega, fun _ => rfl⟩

theorem BlockCtx.isReady_iff {c : BlockCtx} : c.isReady = true ↔ c.state = .ready := by
  simp [BlockCtx.isReady]

theorem BlockCtx.isReady_false {c : BlockCtx} : c.isReady = false ↔ c.state = .uninit := by
  cases h : c.state <;> simp [BlockCtx.isReady, h]

theorem bcFreshGate_go {c : Nat} {s : State} : bcFreshGate c s = .go ↔ (s.ctxAt (.bc c)).state = .uninit := by
  unfold bcFreshGate State.bcReady
  rw [← BlockCtx.isReady_false]
  split_ifs with h <;> simp [h]

theorem xcFreshGate_go {j : Nat} {s : State} :
    xcFreshGate j s = .go ↔ (s.ctxAt (.xcData j)).state = .uninit ∧ (s.ctxAt (.xcTweak j)).state = .uninit := by
  unfold xcFreshGate State.xcTouched
  rw [← BlockCtx.isReady_false, ← BlockCtx.isReady_false, ← Bool.or_eq_false_iff]
  split_ifs with h <;> simp [h]

theorem isNull_iff {p : Word} : isNull p = true ↔ p = 0 := by simp [isNull]

theorem nullWithLength_iff {p n : Word} : nullWithLength p n = true ↔ p = 0 ∧ n ≠ 0 := by simp [nullWithLength]

theorem nullWithLength_eq_false {p n : Word} : nullWithLength p n = false ↔ Given p n := by
  rw [← Bool.not_eq_true, nullWithLength_iff]
  unfold Given
  tauto

theorem ctxMsgGate_go {c : Nat} {s : State} :
    ctxMsgGate c s = .go ↔ c < Config.nbc ∧ s.regs.a2 ≠ 0 ∧ (s.ctxAt (.bc c)).state = .ready ∧ Given s.regs.a0 s.regs.a1 := by
  unfold ctxMsgGate State.bcReady
  rw [← nullWithLength_eq_false, ← BlockCtx.isReady_iff]
  have := @isNull_iff s.regs.a2
  split_ifs <;> (simp_all; try grind)

theorem msgGate_go {s : State} : msgGate s = .go ↔ s.regs.a2 ≠ 0 ∧ Given s.regs.a0 s.regs.a1 := by
  unfold msgGate
  rw [← nullWithLength_eq_false]
  have := @isNull_iff s.regs.a2
  split_ifs <;> simp_all

theorem cmacKeyGate_go {s : State} : cmacKeyGate s = .go ↔ s.regs.a3 ≠ 0 ∧ s.regs.a2 ≠ 0 ∧ Given s.regs.a0 s.regs.a1 := by
  unfold cmacKeyGate
  rw [← nullWithLength_eq_false]
  have := @isNull_iff s.regs.a2
  have := @isNull_iff s.regs.a3
  split_ifs <;> (simp_all; try grind)

theorem kdfDeriveGate_go {s : State} : kdfDeriveGate s = .go ↔ s.regs.a0 ≠ 0 ∧ Given s.regs.a2 s.regs.a3 ∧ Given s.regs.a4 s.regs.a5 ∧
    kdfRejects s.regs.a1.toNat s.regs.a3.toNat s.regs.a5.toNat = false := by
  unfold kdfDeriveGate
  rw [← nullWithLength_eq_false, ← nullWithLength_eq_false]
  have := @isNull_iff s.regs.a0
  split_ifs <;> simp_all

theorem meInitGate_go {j : Nat} {s : State} : meInitGate j s = .go ↔ j < Config.nxc ∧ Given s.regs.a2 s.regs.a3 ∧
    Given s.regs.a4 s.regs.a5 ∧ kdfRejects 32 s.regs.a3.toNat s.regs.a5.toNat = false ∧
    (s.ctxAt (.xcData j)).state = .uninit ∧ (s.ctxAt (.xcTweak j)).state = .uninit := by
  unfold meInitGate
  rw [Gate.andThen_eq_go, Gate.andThen_eq_go, xcSlotGate_go, xcFreshGate_go, ← nullWithLength_eq_false, ← nullWithLength_eq_false]
  split_ifs <;> simp_all

theorem bcInitKeyGate_go {c : Nat} {s : State} :
    bcInitKeyGate c s = .go ↔ c < Config.nbc ∧ s.regs.a0 ≠ 0 ∧ (s.ctxAt (.bc c)).state = .uninit := by
  unfold bcInitKeyGate
  rw [Gate.andThen_eq_go, Gate.andThen_eq_go, bcSlotGate_go, bcFreshGate_go]
  have := @isNull_iff s.regs.a0
  split_ifs <;> simp_all

theorem xtsInitGate_go {j : Nat} {s : State} : xtsInitGate j s = .go ↔ j < Config.nxc ∧ s.regs.a0 ≠ 0 ∧ s.regs.a1 ≠ 0 ∧
    (s.ctxAt (.xcData j)).state = .uninit ∧ (s.ctxAt (.xcTweak j)).state = .uninit := by
  unfold xtsInitGate
  rw [Gate.andThen_eq_go, Gate.andThen_eq_go, xcSlotGate_go, xcFreshGate_go]
  have := @isNull_iff s.regs.a0
  have := @isNull_iff s.regs.a1
  split_ifs <;> (simp_all; try grind)

theorem State.xcReady_iff {s : State} {j : Nat} :
    s.xcReady j = true ↔ (s.ctxAt (.xcData j)).state = .ready ∧ (s.ctxAt (.xcTweak j)).state = .ready := by
  simp [State.xcReady, BlockCtx.isReady_iff]

/-- The argument checks of `XTS_Check` pass (43_xts.md R184). -/
def State.XtsOperands (s : State) : Prop :=
  s.regs.a0 ≠ 0 ∧ s.regs.a2 ≠ 0 ∧ s.regs.a1 ≠ 0 ∧ s.regs.a3.toNat % 16 = 0 ∧ s.regs.a1.toNat % 16 = 0

theorem xtsCheck_go {j : Nat} {s : State} : xtsCheck j s = .go ↔
    j < Config.nxc ∧ s.XtsOperands ∧ (s.ctxAt (.xcData j)).state = .ready ∧ (s.ctxAt (.xcTweak j)).state = .ready := by
  unfold xtsCheck State.XtsOperands
  rw [← State.xcReady_iff]
  have := @isNull_iff s.regs.a0
  have := @isNull_iff s.regs.a2
  split_ifs <;> (simp_all; try grind)

theorem partlyOverlap_eq_false {a b n : Nat} : partlyOverlap a b n = false ↔ a = b ∨ a + n ≤ b ∨ b + n ≤ a := by
  simp only [partlyOverlap, Bool.and_eq_false_iff, decide_eq_false_iff_not]
  omega

theorem xtsDomain_go {s : State} : xtsDomain s = .go ↔ s.XtsDefined := by
  unfold xtsDomain State.XtsDefined
  have := @partlyOverlap_eq_false s.regs.a0.toNat s.regs.a2.toNat s.regs.a1.toNat
  rw [← BitVec.toNat_inj, ← this]
  split_ifs with h1 h2 <;> simp_all

theorem xtsGate_go {j : Nat} {s : State} : xtsGate j s = .go ↔
    j < Config.nxc ∧ s.XtsArgs ∧ (s.ctxAt (.xcData j)).state = .ready ∧ (s.ctxAt (.xcTweak j)).state = .ready := by
  unfold xtsGate
  rw [Gate.andThen_eq_go, xtsCheck_go, xtsDomain_go]
  unfold State.XtsOperands State.XtsArgs
  tauto

/-- The codes that a check can raise (60_exceptions.md R244). -/
def Gate.Raises (g : Gate) (l : List Status) : Prop := ∀ c, g = .raise c → c ∈ l

theorem Gate.Raises.andThen {g h : Gate} {l : List Status} (hg : g.Raises l) (hh : h.Raises l) : (g.andThen h).Raises l := by
  intro c hc
  cases g <;> simp_all [Gate.Raises]

theorem Gate.raises_go (l : List Status) : Gate.go.Raises l := nofun
theorem Gate.raises_refuse (r : Refusal) (l : List Status) : (Gate.refuse r).Raises l := nofun
theorem Gate.raises_raise {c : Status} {l : List Status} (h : c ∈ l) : (Gate.raise c).Raises l := by
  rintro d ⟨rfl⟩; exact h

theorem Gate.raises_ite {P : Prop} [Decidable P] {g h : Gate} {l : List Status} (hg : g.Raises l) (hh : h.Raises l) :
    (if P then g else h).Raises l := by split_ifs <;> assumption

theorem bcSlotGate_raises (c : Nat) : (bcSlotGate c).Raises [.invalidArgs] :=
  Gate.raises_ite (Gate.raises_raise (by simp)) (Gate.raises_go _)
theorem xcSlotGate_raises (j : Nat) : (xcSlotGate j).Raises [.invalidArgs] :=
  Gate.raises_ite (Gate.raises_raise (by simp)) (Gate.raises_go _)
theorem bcFreshGate_raises (c : Nat) (s : State) : (bcFreshGate c s).Raises [.invalidArgs] :=
  Gate.raises_ite (Gate.raises_refuse _ _) (Gate.raises_go _)
theorem xcFreshGate_raises (j : Nat) (s : State) : (xcFreshGate j s).Raises [.invalidArgs] :=
  Gate.raises_ite (Gate.raises_refuse _ _) (Gate.raises_go _)
theorem bcInitKeyGate_raises (c : Nat) (s : State) : (bcInitKeyGate c s).Raises [.invalidArgs] :=
  (bcSlotGate_raises c).andThen ((Gate.raises_ite (Gate.raises_raise (by simp)) (Gate.raises_go _)).andThen (bcFreshGate_raises c s))
theorem xtsInitGate_raises (j : Nat) (s : State) : (xtsInitGate j s).Raises [.invalidArgs] :=
  (xcSlotGate_raises j).andThen ((Gate.raises_ite (Gate.raises_raise (by simp)) (Gate.raises_go _)).andThen (xcFreshGate_raises j s))
theorem meInitGate_raises (j : Nat) (s : State) : (meInitGate j s).Raises [.invalidArgs] :=
  (xcSlotGate_raises j).andThen ((Gate.raises_ite (Gate.raises_raise (by simp)) (Gate.raises_ite (Gate.raises_raise (by simp))
    (Gate.raises_ite (Gate.raises_raise (by simp)) (Gate.raises_go _)))).andThen (xcFreshGate_raises j s))
theorem ctxMsgGate_raises (c : Nat) (s : State) : (ctxMsgGate c s).Raises [.invalidArgs, .ctxNotInitialized] :=
  Gate.raises_ite (Gate.raises_raise (by simp)) (Gate.raises_ite (Gate.raises_raise (by simp))
    (Gate.raises_ite (Gate.raises_raise (by simp)) (Gate.raises_go _)))
theorem msgGate_raises (s : State) : (msgGate s).Raises [.invalidArgs] :=
  Gate.raises_ite (Gate.raises_raise (by simp)) (Gate.raises_ite (Gate.raises_raise (by simp)) (Gate.raises_go _))
theorem cmacKeyGate_raises (s : State) : (cmacKeyGate s).Raises [.invalidArgs] :=
  Gate.raises_ite (Gate.raises_raise (by simp)) (Gate.raises_ite (Gate.raises_raise (by simp)) (Gate.raises_go _))
theorem kdfDeriveGate_raises (s : State) : (kdfDeriveGate s).Raises [.invalidArgs] :=
  Gate.raises_ite (Gate.raises_raise (by simp)) (Gate.raises_ite (Gate.raises_raise (by simp))
    (Gate.raises_ite (Gate.raises_raise (by simp)) (Gate.raises_ite (Gate.raises_raise (by simp)) (Gate.raises_go _))))
theorem xtsGate_raises (j : Nat) (s : State) : (xtsGate j s).Raises [.invalidArgs, .ctxNotInitialized] := by
  refine Gate.Raises.andThen ?_ (Gate.raises_ite (Gate.raises_refuse _ _) (Gate.raises_ite (Gate.raises_refuse _ _) (Gate.raises_go _)))
  unfold xtsCheck
  repeat' refine Gate.raises_ite (Gate.raises_raise (by simp)) ?_
  exact Gate.raises_go _

/-! ## The effect of a command's work -/

/-- The places that a cleanup command cleans. -/
def cleanTargets : Instr → List CtxLoc
  | .bcCleanup c => [.bc c]
  | .xtsCleanup j => [.xcData j, .xcTweak j]
  | _ => []

/-- Every byte outside the output range reads as before, the canonical form is kept, and memory is the same where there is no
output range. -/
structure MemEffect (o : Option (Nat × Nat)) (m m' : Memory) : Prop where
  get : ∀ p, (∀ a n, o = some (a, n) → p < a ∨ a + n ≤ p) → m'.get p = m.get p
  wf : m.wf = true → m'.wf = true
  same : o = none → m' = m

theorem MemEffect.refl (o : Option (Nat × Nat)) (m : Memory) : MemEffect o m m := ⟨fun _ _ => rfl, id, fun _ => rfl⟩

theorem MemEffect.trans {o : Option (Nat × Nat)} {a b c : Memory} (h : MemEffect o a b) (h' : MemEffect o b c) : MemEffect o a c :=
  ⟨fun p hp => (h'.get p hp).trans (h.get p hp), fun hw => h'.wf (h.wf hw), fun ho => (h'.same ho).trans (h.same ho)⟩

/-- A store inside the output range. -/
theorem MemEffect.write {a n : Nat} (hs : a + n ≤ Config.space) (m : Memory) {p : Nat} {bs : List Byte} (h1 : a ≤ p)
    (h2 : p + bs.length ≤ a + n) : MemEffect (some (a, n)) m (m.write p bs) :=
  ⟨fun q hq => Memory.get_write_other _ _ _ (by have := hq a n rfl; omega), fun hw => Memory.write_wf hw _ _ (by omega), nofun⟩

/-- What the work of a command does, whatever happens: `t` is the state it leaves and `c` the code it ends with. -/
structure Effect (i : Instr) (s t : State) (c : Status) : Prop where
  outside : SameOutside s t
  draws : t.draws = s.draws
  code : c ∈ mayEndWith i
  rejected : c = .invalidArgs ∨ c = .ctxNotInitialized → isIsInit i = true ∧ t = { s with result := 0 }
  result : isIsInit i = false → t.result = s.result
  bit : s.result.toNat ≤ 1 → t.result.toNat ≤ 1
  mem : MemEffect (outRange i s.regs) s.mem t.mem
  bc : ∀ k, .bc k ∉ initTargets i ++ cleanTargets i → t.ctxAt (.bc k) = s.ctxAt (.bc k)
  xc : ∀ k, .xcData k ∉ initTargets i ++ cleanTargets i →
    t.ctxAt (.xcData k) = s.ctxAt (.xcData k) ∧ t.ctxAt (.xcTweak k) = s.ctxAt (.xcTweak k)
  target : c = .failure → ∀ l ∈ initTargets i, (t.ctxAt l).state = .uninit
  legalBc : (∀ k, (s.ctxAt (.bc k)).Legal) → ∀ k, (t.ctxAt (.bc k)).Legal
  legalXc : (∀ k, (s.ctxAt (.xcData k)).Legal ∧ (s.ctxAt (.xcTweak k)).Legal) →
    ∀ k, (t.ctxAt (.xcData k)).Legal ∧ (t.ctxAt (.xcTweak k)).Legal
  agree : (∀ k, (s.ctxAt (.xcData k)).state = (s.ctxAt (.xcTweak k)).state) →
    ∀ k, (t.ctxAt (.xcData k)).state = (t.ctxAt (.xcTweak k)).state
  quiet : s.hidden.Quiet → t.hidden.Quiet

/-- The effect of a work that moves the oracle, the memory and the hidden state alone. -/
theorem Effect.ofMem {i : Instr} {s t : State} {c : Status}
    (h : ∃ f n m g, t = { s with primFaults := f, primCalls := n, mem := m, hidden := g }) (hc : c ∈ mayEndWith i)
    (hr : c ≠ .invalidArgs ∧ c ≠ .ctxNotInitialized) (hm : MemEffect (outRange i s.regs) s.mem t.mem)
    (ht : c = .failure → ∀ l ∈ initTargets i, (s.ctxAt l).state = .uninit ∧ l ≠ .tbc0 ∧ l ≠ .tbc1)
    (hq : s.hidden.Quiet → t.hidden.Quiet) : Effect i s t c := by
  obtain ⟨f, n, m, g, rfl⟩ := h
  exact {
    outside := ⟨rfl, rfl, rfl, rfl, rfl⟩
    draws := rfl
    code := hc
    rejected := fun h => absurd h (by tauto)
    result := fun _ => rfl
    bit := id
    mem := hm
    bc := fun _ _ => rfl
    xc := fun _ _ => ⟨rfl, rfl⟩
    target := fun h l hl => by
      obtain ⟨h1, h2, h3⟩ := ht h l hl
      cases l <;> first | exact h1 | contradiction
    legalBc := fun h => h
    legalXc := fun h => h
    agree := fun h => h
    quiet := hq }

/-- The effect of a work that also writes one block cipher slot. -/
theorem Effect.ofBc {i : Instr} {s t : State} {c : Status} {k : Nat} (hk : k < Config.nbc) {v : BlockCtx} (hv : v.Legal)
    (h : ∃ f n g, t = ({ s with primFaults := f, primCalls := n, hidden := g } : State).setCtx (.bc k) v)
    (hc : c ∈ mayEndWith i) (hr : c ≠ .invalidArgs ∧ c ≠ .ctxNotInitialized) (hi : initTargets i ++ cleanTargets i = [.bc k])
    (ht : c = .failure → v.state = .uninit) (hq : s.hidden.Quiet → t.hidden.Quiet) : Effect i s t c := by
  obtain ⟨f, n, g, rfl⟩ := h
  have hself : ∀ l, (({ s with primFaults := f, primCalls := n, hidden := g } : State).setCtx (.bc k) v).ctxAt (.bc l) =
      if l = k then v else s.ctxAt (.bc l) := by
    intro l
    rw [State.ctxAt_setCtx _ (l := .bc k) hk]
    simp only [CtxLoc.bc.injEq]
    rfl
  exact {
    outside := ⟨rfl, rfl, rfl, rfl, rfl⟩
    draws := rfl
    code := hc
    rejected := fun h => absurd h (by tauto)
    result := fun _ => rfl
    bit := id
    mem := .refl _ _
    bc := fun l hl => by rw [hi] at hl; rw [hself, if_neg (by simpa using hl)]
    xc := fun _ _ => ⟨rfl, rfl⟩
    target := fun h l hl => by
      have : l ∈ initTargets i ++ cleanTargets i := List.mem_append_left _ hl
      rw [hi, List.mem_singleton] at this
      subst this
      rw [hself, if_pos rfl]
      exact ht h
    legalBc := fun h l => by rw [hself]; split_ifs; exacts [hv, h l]
    legalXc := fun h => h
    agree := fun h => h
    quiet := hq }

/-- The effect of a work that also writes one XTS slot. -/
theorem Effect.ofXc {i : Instr} {s t : State} {c : Status} {j : Nat} (hj : j < Config.nxc) {v : XtsCtx}
    (hv : v.data.Legal ∧ v.tweak.Legal ∧ v.data.state = v.tweak.state)
    (h : ∃ f n g, t = ({ s with primFaults := f, primCalls := n, hidden := g } : State).setXc j v)
    (hc : c ∈ mayEndWith i) (hr : c ≠ .invalidArgs ∧ c ≠ .ctxNotInitialized)
    (hi : initTargets i ++ cleanTargets i = [.xcData j, .xcTweak j])
    (ht : c = .failure → v.data.state = .uninit) (hq : s.hidden.Quiet → t.hidden.Quiet) : Effect i s t c := by
  obtain ⟨f, n, g, rfl⟩ := h
  have hd : ∀ l, (({ s with primFaults := f, primCalls := n, hidden := g } : State).setXc j v).ctxAt (.xcData l) =
      if l = j then v.data else s.ctxAt (.xcData l) := fun l => State.ctxAt_setXc_data _ hj _ _
  have hw : ∀ l, (({ s with primFaults := f, primCalls := n, hidden := g } : State).setXc j v).ctxAt (.xcTweak l) =
      if l = j then v.tweak else s.ctxAt (.xcTweak l) := fun l => State.ctxAt_setXc_tweak _ hj _ _
  exact {
    outside := ⟨rfl, rfl, rfl, rfl, rfl⟩
    draws := rfl
    code := hc
    rejected := fun h => absurd h (by tauto)
    result := fun _ => rfl
    bit := id
    mem := .refl _ _
    bc := fun _ _ => rfl
    xc := fun l hl => by
      have : l ≠ j := by rintro rfl; rw [hi] at hl; simp at hl
      rw [hd, hw, if_neg this, if_neg this]
      exact ⟨rfl, rfl⟩
    target := fun h l hl => by
      have : l ∈ initTargets i ++ cleanTargets i := List.mem_append_left _ hl
      rw [hi] at this
      simp only [List.mem_cons, List.not_mem_nil, or_false] at this
      rcases this with rfl | rfl
      · rw [hd, if_pos rfl]; exact ht h
      · rw [hw, if_pos rfl, ← hv.2.2]; exact ht h
    legalBc := fun h => h
    legalXc := fun h l => by rw [hd, hw]; split_ifs; exacts [⟨hv.1, hv.2.1⟩, h l]
    agree := fun h l => by rw [hd, hw]; split_ifs; exacts [hv.2.2, h l]
    quiet := hq }

/-- Operand ranges inside the address space: the output range among them. -/
theorem State.InSpace.out {s : State} {i : Instr} (h : s.InSpace i) {a n : Nat} (ho : outRange i s.regs = some (a, n)) :
    n = 0 ∨ a + n ≤ Config.space :=
  h (a, n) (List.mem_append_right _ (by simp [ho]))

/-- Every way a command can answer a next state. -/
def Runs (i : Instr) (s t : State) : Prop :=
  (∃ c, (c = .invalidArgs ∨ c = .ctxNotInitialized) ∧ c ∈ mayEndWith i ∧ isIsInit i = false ∧ t = s.exit c) ∨
  (s.InSpace i ∧ ∃ u c, Effect i s u c ∧ t = (if c = .failure then u.scribble (outRange i s.regs) else u).exit c)

/-- A command is decided by the codes its checks raise and the effect of its work. -/
theorem runs_of_meets {i : Instr} {g : Gate} {w : Proc Unit} {s t : State} {l : List Status} (hg : g.Raises l)
    (hl : ∀ c ∈ l, (c = .invalidArgs ∨ c = .ctxNotInitialized) ∧ c ∈ mayEndWith i ∧ isIsInit i = false)
    (hw : g = .go → s.InSpace i → Meets w s (fun _ u => Effect i s u .ok) (fun c u => Effect i s u c))
    (h : run i g w s = .next t) : Runs i s t := by
  rcases run_next h with ⟨c, hc, rfl⟩ | ⟨hgo, ha, hfin⟩
  · exact Or.inl ⟨c, (hl c (hg c hc)).1, (hl c (hg c hc)).2.1, (hl c (hg c hc)).2.2, rfl⟩
  · refine Or.inr ⟨ha, ?_⟩
    have hm := hw hgo ha
    rcases finish_next hfin with ⟨u, he, rfl⟩ | ⟨c, u, he, rfl⟩
    · exact ⟨u, .ok, hm.ok he, rfl⟩
    · refine ⟨u, c, hm.error he, ?_⟩
      unfold ended
      split_ifs <;> rfl

/-! ## The effects of the engines -/

theorem BlockCtx.legal_clear : BlockCtx.clear.Legal := Or.inl rfl
theorem BlockCtx.legal_loaded (k : Block) : BlockCtx.Legal ⟨.ready, .loaded, k⟩ := Or.inr ⟨rfl, Or.inl rfl⟩
theorem BlockCtx.legal_device : BlockCtx.Legal ⟨.ready, .device, 0⟩ := Or.inr ⟨rfl, Or.inr rfl⟩

/-- Quiet, the transient context `TBC1` aside. -/
def Hidden.QuietButTbc1 (h : Hidden) : Prop :=
  h.tbc0 = .clear ∧ h.k0 = 0 ∧ h.k1 = 0 ∧ h.k2 = 0 ∧ h.kbuf = zeroBytes Config.kdfBufCap ∧ h.dkey = zeroBytes Config.dkeyBytes

theorem Hidden.quiet_iff {h : Hidden} : h.Quiet ↔ h.tbc1 = .clear ∧ h.QuietButTbc1 := by
  unfold Hidden.Quiet Hidden.QuietButTbc1; tauto

/-- A CMAC computation wipes its buffers. -/
theorem AfterCmac.quiet {s t : State} (h : AfterCmac s t) (hq : s.hidden.QuietButTbc1) : t.hidden.QuietButTbc1 := by
  obtain ⟨f, n, x, rfl⟩ := h
  exact ⟨hq.1, rfl, rfl, rfl, hq.2.2.2.2⟩

theorem AfterCmacDev.quiet {s t : State} (h : AfterCmacDev s t) (hq : s.hidden.QuietButTbc1) : t.hidden.QuietButTbc1 := by
  obtain ⟨f, n, x, k0, k1, k2, rfl, hc⟩ := h
  obtain ⟨c0, c1, c2, c3⟩ := hc ⟨hq.1, hq.2.1, hq.2.2.1, hq.2.2.2.1⟩
  exact ⟨c0, c1, c2, c3, hq.2.2.2.2⟩

/-- A derivation whose buffers are wiped leaves a quiet hidden state quiet. -/
theorem DuringKdf.quiet {M : Sunk → Sunk → Prop} {s t : State} (h : DuringKdf M s t)
    (hk : t.hidden.kbuf = zeroBytes Config.kdfBufCap) (hq : s.hidden.QuietButTbc1) : t.wipeDkey.hidden.QuietButTbc1 := by
  obtain ⟨h0, h1, h2, h3⟩ := h.calm ⟨hq.1, hq.2.1, hq.2.2.1, hq.2.2.2.1⟩
  exact ⟨h0, h1, h2, h3, hk, rfl⟩

/-- A state that differs from `s` only in the oracle's draws, the hidden state (quiet again) and the output range. -/
structure Scratch (o : Option (Nat × Nat)) (s t : State) : Prop where
  rest : ∃ f n m g, t = { s with primFaults := f, primCalls := n, mem := m, hidden := g }
  mem : MemEffect o s.mem t.mem
  tbc1 : t.hidden.tbc1 = s.hidden.tbc1 ∨ t.hidden.tbc1 = .clear
  quiet : s.hidden.QuietButTbc1 → t.hidden.QuietButTbc1

theorem Scratch.trans {o : Option (Nat × Nat)} {s t u : State} (h : Scratch o s t) (h' : Scratch o t u) : Scratch o s u := by
  obtain ⟨⟨f, n, m, g, rfl⟩, h1, h2, h3⟩ := h
  obtain ⟨⟨f', n', m', g', rfl⟩, k1, k2, k3⟩ := h'
  refine ⟨⟨_, _, _, _, rfl⟩, h1.trans k1, ?_, fun h => k3 (h3 h)⟩
  rcases k2 with k2 | k2
  · rcases h2 with h2 | h2
    · exact Or.inl (k2.trans h2)
    · exact Or.inr (k2.trans h2)
  · exact Or.inr k2

theorem Scratch.hidden {o : Option (Nat × Nat)} {s t : State} (h : Scratch o s t) (hq : s.hidden.Quiet) : t.hidden.Quiet := by
  rw [Hidden.quiet_iff] at *
  exact ⟨h.tbc1.elim (fun h => h.trans hq.1) id, h.quiet hq.2⟩

theorem Scratch.effect {i : Instr} {s t : State} {c : Status} (h : Scratch (outRange i s.regs) s t) (hc : c ∈ mayEndWith i)
    (hr : c ≠ .invalidArgs ∧ c ≠ .ctxNotInitialized)
    (ht : c = .failure → ∀ l ∈ initTargets i, (s.ctxAt l).state = .uninit ∧ l ≠ .tbc0 ∧ l ≠ .tbc1) : Effect i s t c :=
  .ofMem h.rest hc hr h.mem ht h.hidden

/-- The work ends with a value, or with FAILURE or INVALID_TAG, and leaves scratch state alone. -/
abbrev Scratches (o : Option (Nat × Nat)) (w : Proc Unit) (s : State) (tag : Prop) : Prop :=
  Meets w s (fun _ t => Scratch o s t) (fun e t => (e = .failure ∨ (tag ∧ e = .invalidTag)) ∧ Scratch o s t)

theorem Scratches.effect {i : Instr} {w : Proc Unit} {s : State} {tag : Prop} (h : Scratches (outRange i s.regs) w s tag)
    (hc : .ok ∈ mayEndWith i ∧ .failure ∈ mayEndWith i ∧ (tag → .invalidTag ∈ mayEndWith i)) (hi : initTargets i = []) :
    Meets w s (fun _ u => Effect i s u .ok) (fun c u => Effect i s u c) := by
  refine Meets.mono h (fun _ _ h => h.effect hc.1 ⟨nofun, nofun⟩ nofun) ?_
  rintro _ t ⟨rfl | ⟨h, rfl⟩, ht⟩
  · exact ht.effect hc.2.1 ⟨nofun, nofun⟩ (by simp [hi])
  · exact ht.effect (hc.2.2 h) ⟨nofun, nofun⟩ nofun

theorem AfterCmac.scratch {o : Option (Nat × Nat)} {s t : State} (h : AfterCmac s t) : Scratch o s t := by
  have hq := h.quiet
  obtain ⟨f, n, x, rfl⟩ := h
  exact ⟨⟨_, _, _, _, rfl⟩, .refl _ _, Or.inl rfl, hq⟩

theorem AfterCmacDev.scratch {o : Option (Nat × Nat)} {s t : State} (h : AfterCmacDev s t) : Scratch o s t := by
  have hq := h.quiet
  obtain ⟨f, n, x, k0, k1, k2, rfl, hc⟩ := h
  exact ⟨⟨_, _, _, _, rfl⟩, .refl _ _, Or.inl rfl, hq⟩

/-- A store in the output range. -/
theorem Scratch.store {o : Option (Nat × Nat)} {s t : State} (h : Scratch o s t) {m : Memory} (hm : MemEffect o t.mem m) :
    Scratch o s { t with mem := m } := by
  obtain ⟨⟨f, n, m, g, rfl⟩, h1, h2, h3⟩ := h
  exact ⟨⟨_, _, _, _, rfl⟩, h1.trans hm, h2, h3⟩

theorem Scratch.tag {o : Option (Nat × Nat)} {s t : State} (h : Scratch o s t) (y : Block) :
    Scratch o s { t with hidden := { t.hidden with tagBuf := y } } := by
  obtain ⟨⟨f, n, m, g, rfl⟩, h1, h2, h3⟩ := h
  exact ⟨⟨_, _, _, _, rfl⟩, h1, h2, h3⟩

/-- A tag stored at `A2`. -/
theorem memEffect_tag {a : Nat} (hs : a + 16 ≤ Config.space) (m : Memory) (y : Block) :
    MemEffect (some (a, 16)) m (m.write a (bytesOfBlock y)) := .write hs _ (by omega) (by simp)

/-- A tag computed under a ready context and stored (41_cmac.md R146). -/
theorem tagWork_scratches (P : Params) (c : CtxLoc) (r : OperandRegs) {s : State} (hr : (s.ctxAt c).state = .ready)
    (hs : r.a2.toNat + 16 ≤ Config.space) : Scratches (some (r.a2.toNat, 16)) (tagWork P c r) s False := by
  refine (tagWork_meets P c r hr).mono ?_ ?_
  · rintro _ t ⟨u, y, hu, rfl⟩
    refine hu.scratch.store ?_
    have : u.mem = s.mem := by obtain ⟨f, n, x, rfl⟩ := hu; rfl
    rw [this]
    exact memEffect_tag hs _ y
  · rintro _ t ⟨rfl, hu⟩
    exact ⟨Or.inl rfl, hu.scratch⟩

/-- A tag computed under a ready context and compared (44_data_auth.md R203). -/
theorem verifyWork_scratches (P : Params) (c : CtxLoc) (r : OperandRegs) {s : State} (hr : (s.ctxAt c).state = .ready) :
    Scratches none (verifyWork P c r) s True := by
  refine (verifyWork_meets P c r hr).mono ?_ ?_
  · rintro _ t ⟨u, y, hu, rfl⟩
    exact hu.scratch.tag y
  · rintro _ t (⟨rfl, hu⟩ | ⟨rfl, u, y, hu, rfl⟩)
    · exact ⟨Or.inl rfl, hu.scratch⟩
    · exact ⟨Or.inr ⟨trivial, rfl⟩, hu.scratch.tag y⟩

/-- An XTS run on a ready slot (43_xts.md R185). -/
theorem xtsWork_scratches (P : Params) (j : Nat) (d : Direction) (r : OperandRegs) {s : State}
    (hr : (s.ctxAt (.xcData j)).state = .ready ∧ (s.ctxAt (.xcTweak j)).state = .ready)
    (hs : r.a2.toNat + r.a1.toNat ≤ Config.space) :
    Scratches (some (r.a2.toNat, r.a1.toNat)) (xtsWork P j d r) s False := by
  have both : ∀ u, DuringXts (MemEffect (some (r.a2.toNat, r.a1.toNat))) s u → Scratch (some (r.a2.toNat, r.a1.toNat)) s u := by
    rintro u ⟨⟨f, n, m, x, rfl⟩, hm⟩
    exact ⟨⟨_, _, _, _, rfl⟩, hm, Or.inl rfl, fun h => h⟩
  exact (xtsWork_meets P j d r (M := MemEffect (some (r.a2.toNat, r.a1.toNat))) (fun _ => .refl _ _) (fun _ _ _ => .trans)
    (fun k hk m bs hb => .write hs _ (by omega) (by omega)) hr.2 hr.1).mono
    (fun _ _ h => both _ h) (fun _ _ h => ⟨Or.inl h.1, both _ h.2⟩)

/-- CMAC_KEY's work (41_cmac.md R147). -/
theorem cmacKeyWork_scratches (P : Params) (r : OperandRegs) (s : State) (hs : r.a2.toNat + 16 ≤ Config.space) :
    Scratches (some (r.a2.toNat, 16)) (cmacKeyWork P r) s False := by
  have clean : ∀ (b : BlockCtx) (u : State), AfterCmac (s.drawFault.setCtx .tbc0 b) u →
      u.mem = s.mem ∧ Scratch (some (r.a2.toNat, 16)) s (u.bcClean .tbc0) := by
    rintro b u ⟨f, n, x, rfl⟩
    exact ⟨rfl, ⟨_, _, _, _, rfl⟩, .refl _ _, Or.inl rfl, fun h => ⟨rfl, rfl, rfl, rfl, h.2.2.2.2⟩⟩
  unfold cmacKeyWork
  refine Meets.onExit (Meets.bind (R := fun _ t => t = s) (.memRead rfl) ?_)
  rintro k s0 h0
  subst h0
  refine Meets.bind (R := fun _ t => t = s0.drawFault.setCtx .tbc0 ⟨.ready, .loaded, blockOfBytes k⟩) (Meets.bcLoad (fun _ => ?_) fun _ => rfl) ?_
  · exact ⟨Or.inl rfl, ⟨_, _, _, _, rfl⟩, .refl _ _, Or.inl rfl, fun h => ⟨rfl, h.2⟩⟩
  · rintro _ _ rfl
    refine (tagWork_meets P .tbc0 r rfl).mono ?_ ?_
    · rintro _ t ⟨u, y, hu, rfl⟩
      obtain ⟨h1, h2⟩ := clean _ u hu
      have := h2.store (m := s0.mem.write r.a2.toNat (bytesOfBlock y)) (by
        rw [show (u.bcClean .tbc0).mem = s0.mem from h1]; exact memEffect_tag hs _ y)
      exact this
    · rintro _ t ⟨rfl, hu⟩
      exact ⟨Or.inl rfl, (clean _ t hu).2⟩

/-- CMAC_DEVKEY's work (R148). -/
theorem cmacDevkeyWork_scratches (P : Params) (r : OperandRegs) (s : State) (hs : r.a2.toNat + 16 ≤ Config.space) :
    Scratches (some (r.a2.toNat, 16)) (cmacDevkeyWork P r) s False := by
  unfold cmacDevkeyWork
  refine Meets.bind (R := fun _ t => t = s) (.memRead rfl) ?_
  rintro m _ rfl
  refine Meets.bind ((cmacDev_meets P m).mono (fun _ _ h => h) fun _ _ h => ⟨Or.inl h.1, h.2.scratch⟩) fun y t ht => ?_
  exact .memWrite (ht.scratch.store (memEffect_tag hs _ y))

/-- KDF_DERIVE's work (42_kdf.md R166). -/
theorem kdfDeriveWork_scratches (P : Params) (r : OperandRegs) (s : State) (hs : r.a0.toNat + r.a1.toNat ≤ Config.space)
    (hr : kdfRejects r.a1.toNat r.a3.toNat r.a5.toNat = false) :
    Scratches (some (r.a0.toNat, r.a1.toNat)) (kdfDeriveWork P r) s False := by
  let M : Sunk → Sunk → Prop := fun m m' => MemEffect (some (r.a0.toNat, r.a1.toNat)) m.1 m'.1 ∧ m'.2 = m.2
  have fin : ∀ s t, DuringKdf M s t → t.hidden.kbuf = zeroBytes Config.kdfBufCap → Scratch (some (r.a0.toNat, r.a1.toNat)) s t := by
    intro s t h hk
    obtain ⟨⟨f, n, m, g, rfl⟩, hm, h1, h2, h3, hc⟩ := h
    refine ⟨⟨_, _, _, _, rfl⟩, hm.1, Or.inl h1, fun hq => ?_⟩
    obtain ⟨c0, c1, c2, c3⟩ := hc ⟨hq.1, hq.2.1, hq.2.2.1, hq.2.2.2.1⟩
    exact ⟨c0, c1, c2, c3, hk, hm.2.trans hq.2.2.2.2.2⟩
  unfold kdfDeriveWork
  refine Meets.bind (R := fun b t => t = s ∧ b.length = r.a3.toNat) (.memRead ⟨rfl, by simp⟩) ?_
  rintro label s1 ⟨h1, hl⟩
  subst h1
  refine Meets.bind (R := fun b t => t = s1 ∧ b.length = r.a5.toNat) (.memRead ⟨rfl, by simp⟩) ?_
  rintro context s2 ⟨h1, hl'⟩
  subst h1
  refine (kdfRun_meets (M := M) P _ label context (fun _ => ⟨.refl _ _, rfl⟩)
    (fun _ _ _ h h' => ⟨h.1.trans h'.1, h'.2.trans h.2⟩) (fun off bs s hb => ?_) (by rw [hl, hl']; exact hr)).mono
    (fun _ t h => fin _ t h.1 h.2) fun _ t h => ⟨Or.inl h.1, fin _ t h.2.1 h.2.2⟩
  exact .memWrite ⟨⟨_, _, _, _, rfl⟩, ⟨.write hs _ (by omega) (by omega), rfl⟩, rfl, rfl, rfl, id⟩

/-- The derivation of the data authentication key into `TBC1`, then a work under it (44_data_auth.md R204, R205). -/
theorem easyWork_scratches {o : Option (Nat × Nat)} (P : Params) (s : State) {w : Proc Unit} {tag : Prop}
    (hw : ∀ t : State, (t.ctxAt .tbc1).state = .ready → Scratches o w t tag) :
    Scratches o (onExit (State.bcClean .tbc1) (do daLoad P .tbc1; w)) s tag := by
  have clean : ∀ (u t : State) (b : BlockCtx), DuringKdf MemSame s u → u.hidden.kbuf = zeroBytes Config.kdfBufCap →
      Scratch o (u.setCtx .tbc1 b).wipeDkey t → Scratch o s (t.bcClean .tbc1) := by
    intro u t b h hk ht
    have hq := h.quiet hk
    obtain ⟨⟨f, n, m, g, rfl⟩, hm, -⟩ := h
    obtain ⟨⟨f', n', m', g', rfl⟩, hm', h1, h2⟩ := ht
    have hm : m = s.mem := hm
    subst hm
    exact ⟨⟨_, _, _, _, rfl⟩, hm', Or.inr rfl, fun h => h2 (hq h)⟩
  refine Meets.onExit (Meets.bind ((daLoad_meets P .tbc1).mono (fun _ _ h => h) ?_) ?_)
  · rintro _ t ⟨rfl, u, hu, hk, rfl | rfl⟩
    · refine ⟨Or.inl rfl, clean u _ u.hidden.tbc1 hu hk ⟨⟨_, _, _, _, rfl⟩, .refl _ _, Or.inl rfl, fun h => h⟩⟩
    · refine ⟨Or.inl rfl, clean u _ .clear hu hk ⟨⟨_, _, _, _, rfl⟩, .refl _ _, Or.inl rfl, fun h => h⟩⟩
  · rintro _ t ⟨u, k, hu, hk, rfl⟩
    exact (hw _ rfl).mono (fun _ t h => clean u t _ hu hk h) fun _ t h => ⟨h.1, clean u t _ hu hk h.2⟩

/-- A tag written at `A2` lies inside the address space. -/
theorem State.InSpace.tag {s : State} {i : Instr} (h : s.InSpace i) (ho : outRange i s.regs = some (s.regs.a2.toNat, 16)) :
    s.regs.a2.toNat + 16 ≤ Config.space := (h.out ho).resolve_left (by simp)

/-! ## The commands -/

theorem ctx_lt_of_ready {s : State} {c : Nat} (h : (s.ctxAt (.bc c)).state = .ready) : c < Config.nbc := by
  by_contra hc
  simp [State.ctxAt, hc, BlockCtx.clear] at h

theorem runs_bcInitKey (c : Nat) {s t : State} (h : exec (.bcInitKey c) s = .next t) : Runs (.bcInitKey c) s t := by
  refine runs_of_meets (bcInitKeyGate_raises c s) (by simp [mayEndWith, isIsInit]) (fun hg ha => ?_) h
  obtain ⟨hc, -, hu⟩ := bcInitKeyGate_go.mp hg
  refine Meets.bind (R := fun _ u => u = s) (.memRead rfl) ?_
  rintro k _ rfl
  exact Meets.bcLoad
    (fun _ => .ofBc hc BlockCtx.legal_clear ⟨_, _, _, rfl⟩ (by simp [mayEndWith]) ⟨nofun, nofun⟩ rfl (fun _ => rfl) id)
    (fun _ => .ofBc hc (BlockCtx.legal_loaded _) ⟨_, _, _, rfl⟩ (by simp [mayEndWith]) ⟨nofun, nofun⟩ rfl nofun id)

theorem runs_bcInitDevkey (c : Nat) {s t : State} (h : exec (.bcInitDevkey c) s = .next t) : Runs (.bcInitDevkey c) s t := by
  refine runs_of_meets ((bcSlotGate_raises c).andThen (bcFreshGate_raises c s)) (by simp [mayEndWith, isIsInit]) (fun hg ha => ?_) h
  rw [Gate.andThen_eq_go, bcSlotGate_go] at hg
  exact Meets.bcLoadDev
    (fun _ => .ofBc hg.1 BlockCtx.legal_clear ⟨_, _, _, rfl⟩ (by simp [mayEndWith]) ⟨nofun, nofun⟩ rfl (fun _ => rfl) id)
    (fun _ => .ofBc hg.1 BlockCtx.legal_device ⟨_, _, _, rfl⟩ (by simp [mayEndWith]) ⟨nofun, nofun⟩ rfl nofun id)

theorem runs_bcCleanup (c : Nat) {s t : State} (h : exec (.bcCleanup c) s = .next t) : Runs (.bcCleanup c) s t := by
  refine runs_of_meets (bcSlotGate_raises c) (by simp [mayEndWith, isIsInit]) (fun hg ha => ?_) h
  exact .ofBc (bcSlotGate_go.mp hg) BlockCtx.legal_clear ⟨s.primFaults, s.primCalls, s.hidden, rfl⟩ (by simp [mayEndWith])
    ⟨nofun, nofun⟩ rfl nofun id

theorem runs_xtsCleanup (j : Nat) {s t : State} (h : exec (.xtsCleanup j) s = .next t) : Runs (.xtsCleanup j) s t := by
  refine runs_of_meets (xcSlotGate_raises j) (by simp [mayEndWith, isIsInit]) (fun hg ha => ?_) h
  exact .ofXc (xcSlotGate_go.mp hg) ⟨BlockCtx.legal_clear, BlockCtx.legal_clear, rfl⟩
    ⟨s.primFaults, s.primCalls, s.hidden, State.xcClean_eq j s⟩ (by simp [mayEndWith]) ⟨nofun, nofun⟩ rfl nofun id

theorem runs_xtsInit (j : Nat) {s t : State} (h : exec (.xtsInit j) s = .next t) : Runs (.xtsInit j) s t := by
  refine runs_of_meets (xtsInitGate_raises j s) (by simp [mayEndWith, isIsInit]) (fun hg ha => ?_) h
  obtain ⟨hc, -⟩ := xtsInitGate_go.mp hg
  refine Meets.bind (R := fun _ u => u = s) (.memRead rfl) ?_
  rintro k1 s1 h1
  subst h1
  refine Meets.bind (R := fun _ u => u = s1) (.memRead rfl) ?_
  rintro k2 s2 h2
  subst h2
  refine (xtsLoad_meets j _ _).mono ?_ ?_
  · rintro _ t ⟨f, n, rfl⟩
    exact .ofXc hc ⟨BlockCtx.legal_loaded _, BlockCtx.legal_loaded _, rfl⟩ ⟨f, n, _, rfl⟩ (by simp [mayEndWith]) ⟨nofun, nofun⟩ rfl nofun id
  · rintro _ t ⟨rfl, f, n, rfl⟩
    exact .ofXc hc ⟨BlockCtx.legal_clear, BlockCtx.legal_clear, rfl⟩ ⟨f, n, _, rfl⟩ (by simp [mayEndWith]) ⟨nofun, nofun⟩ rfl (fun _ => rfl) id

/-- The effect of a work that writes RESULT alone. -/
theorem Effect.ofResult {i : Instr} {s : State} {c : Status} (hi : isIsInit i = true) (b : Bool) (hc : c ∈ mayEndWith i)
    (hf : c ≠ .failure) (hb : c = .invalidArgs ∨ c = .ctxNotInitialized → b = false) : Effect i s (s.setResult b) c where
  outside := ⟨rfl, rfl, rfl, rfl, rfl⟩
  draws := rfl
  code := hc
  rejected := fun h => ⟨hi, by rw [hb h]; rfl⟩
  result := fun h => by rw [hi] at h; cases h
  bit := fun _ => by cases b <;> simp [State.setResult]
  mem := .refl _ _
  bc := fun _ _ => rfl
  xc := fun _ _ => ⟨rfl, rfl⟩
  target := fun h => absurd h hf
  legalBc := fun h => h
  legalXc := fun h => h
  agree := fun h => h
  quiet := fun h => h

theorem runs_bcIsInit (c : Nat) {s t : State} (h : exec (.bcIsInit c) s = .next t) : Runs (.bcIsInit c) s t := by
  refine runs_of_meets (l := []) (Gate.raises_go _) (by simp) (fun hg ha => ?_) h
  unfold bcIsInitWork
  split_ifs
  · exact Meets.bind (R := fun _ u => u = s.setResult false) rfl (by
      rintro _ _ rfl; exact .ofResult rfl false (by simp [mayEndWith]) nofun fun _ => rfl)
  · exact .ofResult rfl (s.bcReady c) (by simp [mayEndWith]) nofun nofun

theorem runs_xtsIsInit (c : Nat) {s t : State} (h : exec (.xtsIsInit c) s = .next t) : Runs (.xtsIsInit c) s t := by
  refine runs_of_meets (l := []) (Gate.raises_go _) (by simp) (fun hg ha => ?_) h
  unfold xtsIsInitWork
  split_ifs
  · exact Meets.bind (R := fun _ u => u = s.setResult false) rfl (by
      rintro _ _ rfl; exact .ofResult rfl false (by simp [mayEndWith]) nofun fun _ => rfl)
  · exact .ofResult rfl (s.xcReady c) (by simp [mayEndWith]) nofun nofun

/-- The slot commands over a tag or an XTS run. -/
theorem runs_scratch {i : Instr} {g : Gate} {w : Proc Unit} {s t : State} {l : List Status} {tag : Prop} (hg : g.Raises l)
    (hl : ∀ c ∈ l, (c = .invalidArgs ∨ c = .ctxNotInitialized) ∧ c ∈ mayEndWith i ∧ isIsInit i = false)
    (hc : .ok ∈ mayEndWith i ∧ .failure ∈ mayEndWith i ∧ (tag → .invalidTag ∈ mayEndWith i)) (hi : initTargets i = [])
    (hw : g = .go → s.InSpace i → Scratches (outRange i s.regs) w s tag) (h : run i g w s = .next t) : Runs i s t :=
  runs_of_meets hg hl (fun hgo ha => (hw hgo ha).effect hc hi) h

theorem runs_xts (P : Params) (j : Nat) (d : Direction) {i : Instr} (hi : i = .xtsEnc j ∨ i = .xtsDec j ∨ i = .meEnc j ∨ i = .meDec j)
    {s t : State} (h : run i (xtsGate j s) (xtsWork P j d s.regs) s = .next t) : Runs i s t := by
  have ho : outRange i s.regs = some (s.regs.a2.toNat, s.regs.a1.toNat) := by rcases hi with rfl | rfl | rfl | rfl <;> rfl
  refine runs_scratch (tag := False) (xtsGate_raises j s) (by rcases hi with rfl | rfl | rfl | rfl <;> simp [mayEndWith, isIsInit])
    (by rcases hi with rfl | rfl | rfl | rfl <;> simp [mayEndWith]) (by rcases hi with rfl | rfl | rfl | rfl <;> rfl)
    (fun hg ha => ?_) h
  obtain ⟨-, hx, hr⟩ := xtsGate_go.mp hg
  rw [ho]
  exact xtsWork_scratches P j d s.regs hr ((ha.out ho).resolve_left (by have := hx.2.2.1; rwa [Ne, ← BitVec.toNat_inj] at this))

theorem runs_tag (P : Params) (c : Nat) {i : Instr} (hi : i = .cmac c ∨ i = .daCompute c) {s t : State}
    (h : run i (ctxMsgGate c s) (tagWork P (.bc c) s.regs) s = .next t) : Runs i s t := by
  have ho : outRange i s.regs = some (s.regs.a2.toNat, 16) := by rcases hi with rfl | rfl <;> rfl
  refine runs_scratch (tag := False) (ctxMsgGate_raises c s) (by rcases hi with rfl | rfl <;> simp [mayEndWith, isIsInit])
    (by rcases hi with rfl | rfl <;> simp [mayEndWith]) (by rcases hi with rfl | rfl <;> rfl) (fun hg ha => ?_) h
  rw [ho]
  exact tagWork_scratches P _ s.regs (ctxMsgGate_go.mp hg).2.2.1 (ha.tag ho)

theorem runs_daVerify (c : Nat) {s t : State} (h : exec (.daVerify c) s = .next t) : Runs (.daVerify c) s t :=
  runs_scratch (tag := True) (ctxMsgGate_raises c s) (by simp [mayEndWith, isIsInit]) (by simp [mayEndWith]) rfl
    (fun hg _ => verifyWork_scratches _ _ _ (ctxMsgGate_go.mp hg).2.2.1) h

theorem runs_cmacKey {s t : State} (h : exec .cmacKey s = .next t) : Runs .cmacKey s t :=
  runs_scratch (tag := False) (cmacKeyGate_raises s) (by simp [mayEndWith, isIsInit]) (by simp [mayEndWith]) rfl
    (fun _ ha => cmacKeyWork_scratches _ _ _ (ha.tag rfl)) h

theorem runs_cmacDevkey {s t : State} (h : exec .cmacDevkey s = .next t) : Runs .cmacDevkey s t :=
  runs_scratch (tag := False) (msgGate_raises s) (by simp [mayEndWith, isIsInit]) (by simp [mayEndWith]) rfl
    (fun _ ha => cmacDevkeyWork_scratches _ _ _ (ha.tag rfl)) h

theorem runs_kdfDerive {s t : State} (h : exec .kdfDerive s = .next t) : Runs .kdfDerive s t := by
  refine runs_scratch (tag := False) (kdfDeriveGate_raises s) (by simp [mayEndWith, isIsInit]) (by simp [mayEndWith]) rfl
    (fun hg ha => ?_) h
  have hr := (kdfDeriveGate_go.mp hg).2.2.2
  exact kdfDeriveWork_scratches _ _ _ ((ha.out rfl).resolve_left (by have := (kdfRejects_eq_false.mp hr).1; omega)) hr

theorem runs_daComputeEasy {s t : State} (h : exec .daComputeEasy s = .next t) : Runs .daComputeEasy s t :=
  runs_scratch (tag := False) (msgGate_raises s) (by simp [mayEndWith, isIsInit]) (by simp [mayEndWith]) rfl
    (fun _ ha => easyWork_scratches _ _ fun _ hr => tagWork_scratches _ _ _ hr (ha.tag rfl)) h

theorem runs_daVerifyEasy {s t : State} (h : exec .daVerifyEasy s = .next t) : Runs .daVerifyEasy s t :=
  runs_scratch (tag := True) (msgGate_raises s) (by simp [mayEndWith, isIsInit]) (by simp [mayEndWith]) rfl
    (fun _ _ => easyWork_scratches _ _ fun _ hr => verifyWork_scratches _ _ _ hr) h

/-- A derivation into `DKEY` that touches no slot, as an effect on scratch state. -/
theorem DuringKdf.scratch {s u : State} (h : DuringKdf MemSame s u) (hk : u.hidden.kbuf = zeroBytes Config.kdfBufCap) :
    Scratch none s u.wipeDkey := by
  have hq := h.quiet hk
  obtain ⟨⟨f, n, m, g, rfl⟩, hm, h1, -⟩ := h
  have hm : m = s.mem := hm
  subst hm
  exact ⟨⟨_, _, _, _, rfl⟩, .refl _ _, Or.inl h1, hq⟩

theorem runs_daInit (c : Nat) {s t : State} (h : exec (.daInit c) s = .next t) : Runs (.daInit c) s t := by
  refine runs_of_meets ((bcSlotGate_raises c).andThen (bcFreshGate_raises c s)) (by simp [mayEndWith, isIsInit]) (fun hg ha => ?_) h
  rw [Gate.andThen_eq_go, bcSlotGate_go, bcFreshGate_go] at hg
  obtain ⟨hc, hu⟩ := hg
  have slot : ∀ (u : State) (b : BlockCtx) (e : Status), DuringKdf MemSame s u → u.hidden.kbuf = zeroBytes Config.kdfBufCap →
      b.Legal → (e = .failure → b.state = .uninit) → (e = .ok ∨ e = .failure) →
      Effect (.daInit c) s (u.setCtx (.bc c) b).wipeDkey e := by
    intro u b e hd hk hb hbu he
    have hq := (hd.scratch hk).hidden
    obtain ⟨⟨f, n, m, g, rfl⟩, hm, -⟩ := hd
    have hm : m = s.mem := hm
    subst hm
    exact .ofBc hc hb ⟨f, n, { g with dkey := zeroBytes Config.dkeyBytes }, rfl⟩ (by rcases he with rfl | rfl <;> simp [mayEndWith])
      (by rcases he with rfl | rfl <;> exact ⟨nofun, nofun⟩) rfl hbu hq
  refine (daLoad_meets _ _).mono ?_ ?_
  · rintro _ t ⟨u, k, hd, hk, rfl⟩
    exact slot u _ _ hd hk (BlockCtx.legal_loaded _) nofun (Or.inl rfl)
  · rintro _ t ⟨rfl, u, hd, hk, rfl | rfl⟩
    · exact Scratch.effect (i := .daInit c) (hd.scratch hk) (by simp [mayEndWith]) ⟨nofun, nofun⟩ (by simp [initTargets, hu])
    · exact slot u _ _ hd hk BlockCtx.legal_clear (fun _ => rfl) (Or.inr rfl)

theorem runs_meInit (j : Nat) {s t : State} (h : exec (.meInit j) s = .next t) : Runs (.meInit j) s t := by
  refine runs_of_meets (meInitGate_raises j s) (by simp [mayEndWith, isIsInit]) (fun hg ha => ?_) h
  obtain ⟨hj, -, -, hr, h1, h2⟩ := meInitGate_go.mp hg
  have slot : ∀ (u : State) (v : XtsCtx) (e : Status), DuringKdf MemSame s u → u.hidden.kbuf = zeroBytes Config.kdfBufCap →
      (v.data.Legal ∧ v.tweak.Legal ∧ v.data.state = v.tweak.state) → (e = .failure → v.data.state = .uninit) →
      (e = .ok ∨ e = .failure) → Effect (.meInit j) s (u.setXc j v).wipeDkey e := by
    intro u v e hd hk hv hbu he
    have hq := (hd.scratch hk).hidden
    obtain ⟨⟨f, n, m, g, rfl⟩, hm, -⟩ := hd
    have hm : m = s.mem := hm
    subst hm
    exact .ofXc hj hv ⟨f, n, { g with dkey := zeroBytes Config.dkeyBytes }, rfl⟩ (by rcases he with rfl | rfl <;> simp [mayEndWith])
      (by rcases he with rfl | rfl <;> exact ⟨nofun, nofun⟩) rfl hbu hq
  refine Meets.bind (R := fun b t => t = s ∧ b.length = s.regs.a3.toNat) (.memRead ⟨rfl, by simp⟩) ?_
  rintro label s1 ⟨e1, hl⟩
  subst e1
  refine Meets.bind (R := fun b t => t = s1 ∧ b.length = s1.regs.a5.toNat) (.memRead ⟨rfl, by simp⟩) ?_
  rintro context s2 ⟨e2, hl'⟩
  subst e2
  refine (meLoad_meets _ j label context (by rw [hl, hl']; exact hr)).mono ?_ ?_
  · rintro _ t ⟨u, k1, k2, hd, hk, rfl⟩
    exact slot u _ _ hd hk ⟨BlockCtx.legal_loaded _, BlockCtx.legal_loaded _, rfl⟩ nofun (Or.inl rfl)
  · rintro _ t ⟨rfl, u, hd, hk, rfl | rfl⟩
    · exact Scratch.effect (i := .meInit j) (hd.scratch hk) (by simp [mayEndWith]) ⟨nofun, nofun⟩ (by simp [initTargets, h1, h2])
    · exact slot u _ _ hd hk ⟨BlockCtx.legal_clear, BlockCtx.legal_clear, rfl⟩ (fun _ => rfl) (Or.inr rfl)

/-- Everything a command that answers a next state can have done. -/
theorem exec_runs {i : Instr} {s t : State} (h : exec i s = .next t) : Runs i s t := by
  cases i with
  | bcInitKey c => exact runs_bcInitKey c h
  | bcInitDevkey c => exact runs_bcInitDevkey c h
  | bcCleanup c => exact runs_bcCleanup c h
  | bcIsInit c => exact runs_bcIsInit c h
  | xtsInit c => exact runs_xtsInit c h
  | xtsCleanup c => exact runs_xtsCleanup c h
  | xtsIsInit c => exact runs_xtsIsInit c h
  | cmac c => exact runs_tag _ c (Or.inl rfl) h
  | cmacKey => exact runs_cmacKey h
  | cmacDevkey => exact runs_cmacDevkey h
  | kdfDerive => exact runs_kdfDerive h
  | xtsEnc c => exact runs_xts _ c _ (Or.inl rfl) h
  | xtsDec c => exact runs_xts _ c _ (Or.inr (Or.inl rfl)) h
  | daInit c => exact runs_daInit c h
  | daCompute c => exact runs_tag _ c (Or.inr rfl) h
  | daVerify c => exact runs_daVerify c h
  | daComputeEasy => exact runs_daComputeEasy h
  | daVerifyEasy => exact runs_daVerifyEasy h
  | meInit c => exact runs_meInit c h
  | meEnc c => exact runs_xts _ c _ (Or.inr (Or.inr (Or.inl rfl))) h
  | meDec c => exact runs_xts _ c _ (Or.inr (Or.inr (Or.inr rfl))) h

end Sys2Proof.Machine
end

