-- ==== Sys2Proof/Laws/PerInstr.lean ====
section
/-! SUPPORT. The encoding statement made of each instruction: its command word selects its own row of the opcode table. -/

namespace Sys2Proof.Laws.RowSelect

/-- The command word of a well-formed instruction has the row's fixed bits, and its slot index in bits 15:8
(30_encoding.md R80, R84). -/
def Statement (i : Instr) : Prop :=
  i.WellFormed → encode i &&& i.rowMask = i.rowMatch ∧ ∀ c, i.ctx? = some c → ctxField (encode i) = c

/-- The word of a row with a slot index, as a number. -/
theorem word_toNat {m : Word} (hm : m.toNat < 256) {c : Nat} (hc : c < 256) :
    (m ||| (BitVec.ofNat 8 c).setWidth 32 <<< 8).toNat = m.toNat + 256 * c := by
  rw [BitVec.toNat_or, BitVec.toNat_shiftLeft]
  simp only [BitVec.toNat_setWidth, BitVec.toNat_ofNat]
  rw [show c % 2 ^ 8 % 2 ^ 32 = c by omega, Nat.shiftLeft_eq, show c * 2 ^ 8 % 2 ^ 32 = 2 ^ 8 * c by omega, Nat.or_comm,
    ← Nat.two_pow_add_eq_or_of_lt (by omega)]
  omega

/-- The slot index lies outside the fixed bits. -/
theorem slot_masked (c : BitVec 8) : (c.setWidth 32 <<< 8 : Word) &&& 0xFFFF00FF = 0 := by
  revert c; decide

/-- Rows with a slot index. -/
theorem with_ctx {i : Instr} {c : Nat} {m : Word} (hc : i.ctx? = some c) (hi : i.rowMatch = m)
    (hm : m &&& 0xFFFF00FF = m ∧ m.toNat < 256) : Statement i := by
  intro hw
  have h256 : c < 256 := by simpa [Instr.WellFormed, Instr.ctxFits, hc] using hw
  have he : encode i = m ||| (BitVec.ofNat 8 c).setWidth 32 <<< 8 := by simp only [encode, hc, hi]
  have hk : i.rowMask = 0xFFFF00FF := by simp only [Instr.rowMask, hc]
  refine ⟨?_, fun d hd => ?_⟩
  · rw [he, hk, BitVec.and_or_distrib_right, hi, hm.1, slot_masked]; exact BitVec.or_zero
  · rw [hc, Option.some.injEq] at hd
    subst hd
    rw [he, ctxField, word_toNat hm.2 h256]
    omega

/-- Rows without one. -/
theorem without_ctx {i : Instr} (hc : i.ctx? = none) : Statement i := by
  intro _
  refine ⟨?_, fun d hd => by rw [hc] at hd; cases hd⟩
  simp only [encode, Instr.rowMask, hc]
  exact BitVec.and_allOnes

theorem bcInitKey (ctx : Nat) : Statement (.bcInitKey ctx) := with_ctx (m := 0x00000001) rfl rfl (by decide)
theorem bcInitDevkey (ctx : Nat) : Statement (.bcInitDevkey ctx) := with_ctx (m := 0x00000002) rfl rfl (by decide)
theorem bcCleanup (ctx : Nat) : Statement (.bcCleanup ctx) := with_ctx (m := 0x00000003) rfl rfl (by decide)
theorem bcIsInit (ctx : Nat) : Statement (.bcIsInit ctx) := with_ctx (m := 0x00000004) rfl rfl (by decide)
theorem xtsInit (ctx : Nat) : Statement (.xtsInit ctx) := with_ctx (m := 0x00000005) rfl rfl (by decide)
theorem xtsCleanup (ctx : Nat) : Statement (.xtsCleanup ctx) := with_ctx (m := 0x00000006) rfl rfl (by decide)
theorem xtsIsInit (ctx : Nat) : Statement (.xtsIsInit ctx) := with_ctx (m := 0x00000007) rfl rfl (by decide)
theorem cmac (ctx : Nat) : Statement (.cmac ctx) := with_ctx (m := 0x00000010) rfl rfl (by decide)
theorem cmacKey : Statement .cmacKey := without_ctx rfl
theorem cmacDevkey : Statement .cmacDevkey := without_ctx rfl
theorem kdfDerive : Statement .kdfDerive := without_ctx rfl
theorem xtsEnc (ctx : Nat) : Statement (.xtsEnc ctx) := with_ctx (m := 0x00000030) rfl rfl (by decide)
theorem xtsDec (ctx : Nat) : Statement (.xtsDec ctx) := with_ctx (m := 0x00000031) rfl rfl (by decide)
theorem daInit (ctx : Nat) : Statement (.daInit ctx) := with_ctx (m := 0x00000040) rfl rfl (by decide)
theorem daCompute (ctx : Nat) : Statement (.daCompute ctx) := with_ctx (m := 0x00000041) rfl rfl (by decide)
theorem daVerify (ctx : Nat) : Statement (.daVerify ctx) := with_ctx (m := 0x00000042) rfl rfl (by decide)
theorem daComputeEasy : Statement .daComputeEasy := without_ctx rfl
theorem daVerifyEasy : Statement .daVerifyEasy := without_ctx rfl
theorem meInit (ctx : Nat) : Statement (.meInit ctx) := with_ctx (m := 0x00000050) rfl rfl (by decide)
theorem meEnc (ctx : Nat) : Statement (.meEnc ctx) := with_ctx (m := 0x00000051) rfl rfl (by decide)
theorem meDec (ctx : Nat) : Statement (.meDec ctx) := with_ctx (m := 0x00000052) rfl rfl (by decide)

end Sys2Proof.Laws.RowSelect
end

