-- ==== Sys2Proof/Laws/Trace.lean ====
section
/-! SUPPORT. In which order the works make their accesses and their primitive calls, and how the first that goes wrong ends
them (20_memory.md R58, R60; 40_context_lifecycle.md R112): every work follows its row of events. -/

namespace Sys2Proof.Machine

open Spec

/-! ## Rows of events -/

theorem calls_add (n m : Nat) : calls n ++ calls m = calls (n + m) := List.replicate_append_replicate

/-- A row is judged piece by piece. -/
theorem verdict_append (D : List Access) (l k : List Event) (f : List Bool) (n : Nat) :
    verdict D (l ++ k) f n = match verdict D l f n with
      | .ended f' n' => verdict D k f' n'
      | .failed f' n' => .failed f' n'
      | .refused => .refused := by
  induction l generalizing f n with
  | nil => rfl
  | cons e l ih => cases e <;> simp only [List.cons_append, verdict] <;> split_ifs <;> first | rfl | exact ih _ _

/-- The accesses of a row. -/
def accessesIn : List Event → List Access
  | [] => []
  | .access a :: l => a :: accessesIn l
  | .call :: l => accessesIn l

/-- The number of calls of a row. -/
def callsIn : List Event → Nat
  | [] => 0
  | .access _ :: l => callsIn l
  | .call :: l => callsIn l + 1

@[simp] theorem accessesIn_append (l k : List Event) : accessesIn (l ++ k) = accessesIn l ++ accessesIn k := by
  induction l with
  | nil => rfl
  | cons e l ih => cases e <;> simp [accessesIn, ih]

@[simp] theorem callsIn_append (l k : List Event) : callsIn (l ++ k) = callsIn l + callsIn k := by
  induction l with
  | nil => simp [callsIn]
  | cons e l ih => cases e <;> simp [callsIn, ih]; omega

@[simp] theorem accessesIn_asked (a : Access) : accessesIn (asked a) = [a] := rfl

@[simp] theorem callsIn_asked (a : Access) : callsIn (asked a) = 0 := rfl

@[simp] theorem accessesIn_calls (n : Nat) : accessesIn (calls n) = [] := by
  induction n with
  | zero => rfl
  | succ n ih => exact ih

@[simp] theorem callsIn_calls (n : Nat) : callsIn (calls n) = n := by
  induction n with
  | zero => rfl
  | succ n ih => exact congrArg (· + 1) ih

theorem accessesIn_flatMap {α : Type} (l : List α) (f : α → List Event) :
    accessesIn (l.flatMap f) = l.flatMap fun x => accessesIn (f x) := by
  induction l with
  | nil => rfl
  | cons x l ih => simp [ih]

theorem callsIn_flatMap {α : Type} (l : List α) (f : α → List Event) {n : Nat} (h : ∀ x, callsIn (f x) = n) :
    callsIn (l.flatMap f) = l.length * n := by
  induction l with
  | nil => simp [callsIn]
  | cons x l ih => simp [ih, h, Nat.succ_mul, Nat.add_comm]

theorem calls_flatMap {α : Type} (l : List α) (n : Nat) : (l.flatMap fun _ => calls n) = calls (l.length * n) := by
  induction l with
  | nil => simp [calls]
  | cons x l ih => simp [ih, calls_add, Nat.succ_mul, Nat.add_comm]

/-- The call with number `n` of a row is the first to fail, and every access is admitted. -/
theorem verdict_failed {D : List Access} {l : List Event} (ha : ∀ a ∈ accessesIn l, a.len = 0 ∨ a ∉ D) (n : Nat) (rest : List Bool)
    (m : Nat) (hn : n < callsIn l) : verdict D l (List.replicate n false ++ true :: rest) m = .failed rest (m + n + 1) := by
  induction l generalizing n m with
  | nil => exact absurd hn (Nat.not_lt_zero _)
  | cons e l ih =>
    cases e with
    | access a =>
      have h0 : ¬ (a.len ≠ 0 ∧ a ∈ D) := by have := ha a (.head _); tauto
      rw [verdict, if_neg h0]
      exact ih (fun b hb => ha b (.tail _ hb)) n m hn
    | call =>
      cases n with
      | zero => rfl
      | succ n =>
        rw [verdict, if_neg (by simp [List.replicate_succ, faultAnswer])]
        refine (ih ha n (m + 1) (Nat.lt_of_succ_lt_succ hn)).trans ?_
        rw [Nat.add_assoc m 1 n, Nat.add_comm 1 n]

/-- No call of a row fails. -/
theorem verdict_noFault {D : List Access} {l : List Event} (f : List Bool) (m : Nat)
    (hf : f.take (callsIn l) = List.replicate (callsIn l) false) : verdict D l f m =
      if ∀ a ∈ accessesIn l, a.len = 0 ∨ a ∉ D then .ended (f.drop (callsIn l)) (m + callsIn l) else .refused := by
  induction l generalizing f m with
  | nil => simp [verdict, accessesIn, callsIn]
  | cons e l ih =>
    cases e with
    | access a =>
      simp only [verdict, accessesIn, callsIn, List.forall_mem_cons] at hf ⊢
      rw [ih f m hf]
      split_ifs <;> first | rfl | tauto
    | call =>
      simp only [verdict, accessesIn, callsIn] at hf ⊢
      cases f with
      | nil => simp [List.replicate_succ] at hf
      | cons b f =>
        simp only [List.take_succ_cons, List.replicate_succ, List.cons.injEq] at hf
        rw [hf.1, if_neg (by simp [faultAnswer]), List.tail_cons, ih f (m + 1) hf.2, List.drop_succ_cons]
        congr 2
        omega

/-! ## The rows of the commands -/

/-- The events of `n` blocks of an XTS run from block `i` on. -/
def xtsEventsFrom (address inp out : Nat) : Nat → Nat → List Event
  | 0, _ => []
  | n + 1, i => xtsBlockEvents address inp out i ++ xtsEventsFrom address inp out n (i + 1)

theorem xtsEventsFrom_eq (address inp out n i : Nat) :
    xtsEventsFrom address inp out n i = (List.range' i n).flatMap (xtsBlockEvents address inp out) := by
  induction n generalizing i with
  | zero => rfl
  | succ n ih => rw [xtsEventsFrom, ih, List.range'_succ, List.flatMap_cons]

theorem xtsEvents_eq (r : OperandRegs) : xtsEvents r = xtsEventsFrom r.a3.toNat r.a0.toNat r.a2.toNat (r.a1.toNat / 16) 0 := by
  rw [xtsEventsFrom_eq, ← List.range_eq_range']; rfl

theorem callsIn_xtsEventsFrom (address inp out n i : Nat) : callsIn (xtsEventsFrom address inp out n i) = xtsCallsFrom address n i := by
  induction n generalizing i with
  | zero => rfl
  | succ n ih => simp [xtsEventsFrom, xtsCallsFrom, ih, xtsBlockEvents, seedCalls, Nat.add_assoc]

theorem accessesIn_xtsEvents (r : OperandRegs) : accessesIn (xtsEvents r) = xtsAccesses r.a0 r.a2 r.a1.toNat := by
  simp [xtsEvents, xtsAccesses, accessesIn_flatMap, xtsBlockEvents]

/-- The accesses of a command's row are its accesses (20_memory.md R65). -/
theorem accessesIn_eventsOf (i : Instr) (r : OperandRegs) : accessesIn (eventsOf i r) = accessesOf i r := by
  cases i <;> simp [eventsOf, accessesOf, accessesIn, accessesIn_xtsEvents, accessesIn_flatMap]

/-- The calls of a command's row number what 70_reset_and_hazards.md R282 says. -/
theorem callsIn_eventsOf {i : Instr} {s : State} (h : s.Passes i) : callsIn (eventsOf i s.regs) = callsOf i s.regs := by
  have xts : s.XtsArgs → callsIn (xtsEvents s.regs) = unitsTouched s.regs.a3.toNat s.regs.a1.toNat + s.regs.a1.toNat / 16 := by
    rintro ⟨-, -, h0, ha, hs, -⟩
    rw [xtsEvents_eq, callsIn_xtsEventsFrom, xtsCallsFrom_zero _ _ ha hs (by rwa [Ne, ← BitVec.toNat_inj] at h0)]
  cases i with
  | kdfDerive =>
    simp only [eventsOf, callsOf, callsIn_append]
    rw [callsIn_flatMap _ _ (n := 1 + cmacCalls (s.regs.a3.toNat + s.regs.a5.toNat + 6)) (by intro; simp)]
    simp [kdfSegments, kdfCalls]
  | xtsEnc _ => exact xts h.2.1
  | xtsDec _ => exact xts h.2.1
  | meEnc _ => exact xts h.2.1
  | meDec _ => exact xts h.2.1
  | _ => simp [eventsOf, callsOf, callsIn]

/-! ## Procedures that follow a row -/

/-- Started in `s`, `p` makes the accesses and the calls of the row `l`, in its order, up to the first that goes wrong. It ends
as the row does, with a value that meets `Q` or, where `tag` allows it, with INVALID_TAG. -/
def Traced {α : Type} (l : List Event) (p : Proc α) (s : State) (tag : Prop) (Q : α → State → Prop) : Prop :=
  match p s with
  | .ok a t => verdict s.denied l s.primFaults s.primCalls = .ended t.primFaults t.primCalls ∧ t.denied = s.denied ∧ Q a t
  | .error (.raise c) t =>
    (c = .failure ∧ verdict s.denied l s.primFaults s.primCalls = .failed t.primFaults t.primCalls) ∨
      (c = .invalidTag ∧ tag ∧ verdict s.denied l s.primFaults s.primCalls = .ended t.primFaults t.primCalls)
  | .error (.refuse r) _ => r = .accessNotAdmitted ∧ verdict s.denied l s.primFaults s.primCalls = .refused

variable {α β : Type} {l k : List Event} {s : State} {tag : Prop} {Q : α → State → Prop}

theorem Traced.mono {p : Proc α} {Q' : α → State → Prop} (h : Traced l p s tag Q) (hq : ∀ a t, Q a t → Q' a t) :
    Traced l p s tag Q' := by
  unfold Traced at *
  split at h
  · exact ⟨h.1, h.2.1, hq _ _ h.2.2⟩
  · exact h
  · exact h

/-- The rule of sequence: the rows come one after the other. -/
theorem Traced.bind {p : Proc β} {f : β → Proc α} {R : β → State → Prop} (h : Traced l p s False R)
    (hf : ∀ b t, R b t → Traced k (f b) t tag Q) : Traced (l ++ k) (p >>= f) s tag Q := by
  unfold Traced at h
  rcases hp : p s with ⟨b, t⟩ | ⟨c | r, t⟩ <;> rw [hp] at h
  · obtain ⟨hv, hd, hr⟩ := h
    have := hf b t hr
    unfold Traced at this ⊢
    rw [bind_run_ok hp, verdict_append, hv, ← hd]
    exact this
  · obtain ⟨rfl, hv⟩ := h.resolve_right fun h => h.2.1
    unfold Traced
    rw [bind_run_error hp, verdict_append, hv]
    exact Or.inl ⟨rfl, rfl⟩
  · unfold Traced
    rw [bind_run_error hp, verdict_append, h.2]
    exact ⟨h.1, rfl⟩

/-- The rule of sequence after a part that neither asks nor calls. -/
theorem Traced.quiet {p : Proc β} {f : β → Proc α} {R : β → State → Prop} (h : Traced [] p s False R)
    (hf : ∀ b t, R b t → Traced k (f b) t tag Q) : Traced k (p >>= f) s tag Q := h.bind hf

/-- The rule of sequence before a part that neither asks nor calls. -/
theorem Traced.last {p : Proc β} {f : β → Proc α} {R : β → State → Prop} (h : Traced l p s False R)
    (hf : ∀ b t, R b t → Traced [] (f b) t tag Q) : Traced l (p >>= f) s tag Q := by
  have := h.bind hf
  rwa [List.append_nil] at this

/-- A change of the state that neither asks nor calls. -/
def Still (f : State → State) : Prop :=
  ∀ u, (f u).denied = u.denied ∧ (f u).primFaults = u.primFaults ∧ (f u).primCalls = u.primCalls

theorem bcClean_still (c : CtxLoc) : Still (State.bcClean c) :=
  fun _ => ⟨State.setCtx_denied _ _ _, State.setCtx_primFaults _ _ _, State.setCtx_primCalls _ _ _⟩

theorem Traced.onExit {p : Proc α} {f : State → State} (hf : Still f) (h : Traced l p s tag fun a t => Q a (f t)) :
    Traced l (onExit f p) s tag Q := by
  unfold Traced at *
  rcases hp : p s with ⟨b, t⟩ | ⟨c | r, t⟩ <;> rw [hp] at h
  · rw [onExit_run_ok hp]
    simp only [hf t]
    exact h
  · rw [onExit_run_error hp]
    simp only [hf t]
    exact h
  · rw [onExit_run_error hp]
    exact h

theorem Traced.onRaise {p : Proc α} {f : State → State} (hf : Still f) (h : Traced l p s tag Q) :
    Traced l (onRaise f p) s tag Q := by
  unfold Traced at *
  rcases hp : p s with ⟨b, t⟩ | ⟨c | r, t⟩ <;> rw [hp] at h
  · rw [onRaise_run_ok hp]; exact h
  · rw [onRaise_run_error hp]
    simp only [hf t]
    exact h
  · rw [onRaise_run_error hp]; exact h

theorem Traced.pure {a : α} (h : Q a s) : Traced [] (pure a : Proc α) s tag Q := ⟨rfl, rfl, h⟩
theorem Traced.look {f : State → α} (h : Q (f s) s) : Traced [] (look f) s tag Q := ⟨rfl, rfl, h⟩
theorem Traced.updateHidden {Q : Unit → State → Prop} {f : Hidden → Hidden} (h : Q () { s with hidden := f s.hidden }) :
    Traced [] (updateHidden f) s tag Q := ⟨rfl, rfl, h⟩
theorem Traced.invalidTag : Traced [] (raise .invalidTag : Proc α) s True Q := Or.inr ⟨rfl, trivial, rfl⟩

theorem ask_traced (a : Access) : Traced (asked a) (ask a) s tag fun _ t => t = s := by
  unfold Traced ask
  cases h : s.admitsAccess a with
  | true =>
    have : ¬ (a.len ≠ 0 ∧ a ∈ s.denied) := by rw [State.admitsAccess_iff] at h; tauto
    simp [asked, verdict, this]
  | false =>
    have : a.len ≠ 0 ∧ a ∈ s.denied := by
      have h' : ¬ s.admitsAccess a = true := by simp [h]
      rw [State.admitsAccess_iff] at h'; tauto
    simp [asked, verdict, this]

theorem memRead_traced (a n : Nat) {Q : List Byte → State → Prop} (h : Q (s.mem.read a n) s) :
    Traced (asked ⟨a, n, .read⟩) (memRead a n) s tag Q :=
  (ask_traced ⟨a, n, .read⟩).last (fun _ t ht => by subst ht; exact .look h)

theorem memWrite_traced (a : Nat) (bs : List Byte) {Q : Unit → State → Prop} (h : Q () { s with mem := s.mem.write a bs }) :
    Traced (asked ⟨a, bs.length, .write⟩) (memWrite a bs) s tag Q :=
  (ask_traced ⟨a, bs.length, .write⟩).last (fun _ t ht => by subst ht; exact ⟨rfl, rfl, h⟩)

/-- How a row of one call comes out. -/
theorem verdict_call (s : State) : verdict s.denied (calls 1) s.primFaults s.primCalls =
    if s.nextFault = true then .failed s.drawFault.primFaults s.drawFault.primCalls
    else .ended s.drawFault.primFaults s.drawFault.primCalls := rfl

theorem bcEnc_traced (P : Params) {c : CtxLoc} (x : Block) (hr : (s.ctxAt c).state = .ready) {Q : Block → State → Prop}
    (h : ∀ y, Q y s.drawFault) : Traced (calls 1) (bcEnc P c x) s tag Q := by
  unfold Traced bcEnc
  rw [if_neg (by simp [hr])]
  rw [verdict_call]
  split <;> rename_i hp <;> split at hp <;> rename_i hf <;> cases hp
  · rw [if_neg hf]; exact ⟨rfl, rfl, h _⟩
  · rw [if_pos hf]; exact Or.inl ⟨rfl, rfl⟩

theorem bcDec_traced (P : Params) {c : CtxLoc} (x : Block) (hr : (s.ctxAt c).state = .ready) {Q : Block → State → Prop}
    (h : ∀ y, Q y s.drawFault) : Traced (calls 1) (bcDec P c x) s tag Q := by
  unfold Traced bcDec
  rw [if_neg (by simp [hr])]
  rw [verdict_call]
  split <;> rename_i hp <;> split at hp <;> rename_i hf <;> cases hp
  · rw [if_neg hf]; exact ⟨rfl, rfl, h _⟩
  · rw [if_pos hf]; exact Or.inl ⟨rfl, rfl⟩

theorem bcLoad_traced (c : CtxLoc) (k : Block) :
    Traced (calls 1) (bcLoad c k) s tag fun _ t => t = s.drawFault.setCtx c ⟨.ready, .loaded, k⟩ := by
  unfold Traced bcLoad
  rw [verdict_call]
  split <;> rename_i hp <;> split at hp <;> rename_i hf <;> cases hp
  · rw [if_neg hf]; exact ⟨by cases c <;> rfl, by cases c <;> rfl, rfl⟩
  · rw [if_pos hf]; exact Or.inl ⟨rfl, by cases c <;> rfl⟩

theorem bcLoadDev_traced (c : CtxLoc) :
    Traced (calls 1) (bcLoadDev c) s tag fun _ t => t = s.drawFault.setCtx c ⟨.ready, .device, 0⟩ := by
  unfold Traced bcLoadDev
  rw [verdict_call]
  split <;> rename_i hp <;> split at hp <;> rename_i hf <;> cases hp
  · rw [if_neg hf]; exact ⟨by cases c <;> rfl, by cases c <;> rfl, rfl⟩
  · rw [if_pos hf]; exact Or.inl ⟨rfl, by cases c <;> rfl⟩

/-! ## The engines -/

/-- The contexts and `KBUF` are as before: what a CMAC computation or an XTS block keeps. -/
def Keeps (s t : State) : Prop := t.hidden.kbuf = s.hidden.kbuf ∧ ∀ c, t.ctxAt c = s.ctxAt c

theorem Keeps.refl (s : State) : Keeps s s := ⟨rfl, fun _ => rfl⟩

theorem Keeps.of {s t : State} (h : Keeps s t) {u : State} (hk : u.hidden.kbuf = t.hidden.kbuf) (hb : u.bc = t.bc) (hx : u.xc = t.xc)
    (h0 : u.hidden.tbc0 = t.hidden.tbc0) (h1 : u.hidden.tbc1 = t.hidden.tbc1) : Keeps s u :=
  ⟨hk.trans h.1, fun c => (State.ctxAt_congr hb hx h0 h1 c).trans (h.2 c)⟩

theorem Keeps.ready {s t : State} (h : Keeps s t) {c : CtxLoc} (hr : (s.ctxAt c).state = .ready) : (t.ctxAt c).state = .ready := by
  rw [h.2]; exact hr

theorem bcEnc_keeps (P : Params) {c : CtxLoc} (x : Block) (hr : (s.ctxAt c).state = .ready) {u : State} (hu : Keeps s u) :
    Traced (calls 1) (bcEnc P c x) u tag fun _ t => Keeps s t :=
  bcEnc_traced P x (hu.ready hr) fun _ => hu.of rfl rfl rfl rfl rfl

theorem updateHidden_keeps {f : Hidden → Hidden} {u : State} (hu : Keeps s u) (hf : ∀ h : Hidden, (f h).kbuf = h.kbuf ∧
    (f h).tbc0 = h.tbc0 ∧ (f h).tbc1 = h.tbc1) : Traced [] (Machine.updateHidden f) u tag fun _ t => Keeps s t :=
  .updateHidden (hu.of (hf _).1 rfl rfl (hf _).2.1 (hf _).2.2)

theorem cmacChain_traced (P : Params) {c : CtxLoc} (hr : (s.ctxAt c).state = .ready) (n : Nat) (m : List Byte)
    (hn : m.length ≤ 16 * n + 16) {u : State} (hu : Keeps s u) :
    Traced (calls (chained m.length)) (cmacChain P c n m) u False fun _ t => Keeps s t := by
  induction n generalizing m u with
  | zero => rw [show chained m.length = 0 by unfold chained; omega]; exact .pure hu
  | succ n ih =>
    unfold cmacChain
    split_ifs with h
    · have hc : chained m.length = 1 + chained (m.drop 16).length := by
        unfold chained; rw [List.length_drop]; omega
      rw [hc, ← calls_add]
      exact Traced.quiet (Traced.look (Q := fun _ t => Keeps s t) hu) fun x t ht =>
        (bcEnc_keeps P _ hr ht).bind fun y t ht => Traced.quiet
          (updateHidden_keeps ht fun _ => ⟨rfl, rfl, rfl⟩) fun _ t ht => ih _ (by rw [List.length_drop]; omega) ht
    · rw [show chained m.length = 0 by unfold chained; omega]; exact .pure hu

/-- A CMAC computation makes its calls and asks nothing (41_cmac.md R145). -/
theorem cmacBytes_traced (P : Params) {c : CtxLoc} (m : List Byte) (hr : (s.ctxAt c).state = .ready) :
    Traced (calls (cmacCalls m.length)) (cmacBytes P c m) s False fun _ t => Keeps s t := by
  rw [show cmacCalls m.length = 1 + (chained m.length + 1) by unfold cmacCalls chained; omega, ← calls_add, ← calls_add]
  refine Traced.onExit (fun _ => ⟨rfl, rfl, rfl⟩) (Traced.mono (Q := fun _ t => Keeps s t) ?_ fun _ t h => h.of rfl rfl rfl rfl rfl)
  refine (bcEnc_keeps P 0 hr (.refl s)).bind fun k t ht => ?_
  refine Traced.quiet (updateHidden_keeps ht fun _ => ⟨rfl, rfl, rfl⟩) fun _ t ht => ?_
  refine Traced.quiet (updateHidden_keeps ht fun _ => ⟨rfl, rfl, rfl⟩) fun _ t ht => ?_
  refine Traced.quiet (updateHidden_keeps ht fun _ => ⟨rfl, rfl, rfl⟩) fun _ t ht => ?_
  refine (cmacChain_traced P hr m.length m (by omega) ht).bind fun r t ht => ?_
  refine Traced.quiet (R := fun _ t => Keeps s t) ?_ fun _ t ht =>
    Traced.quiet (Traced.look (Q := fun _ t => Keeps s t) ht) fun x t ht => bcEnc_keeps P x hr ht
  unfold cmacLast
  split_ifs
  · exact updateHidden_keeps ht fun _ => ⟨rfl, rfl, rfl⟩
  · exact Traced.quiet (updateHidden_keeps ht fun _ => ⟨rfl, rfl, rfl⟩) fun _ t ht =>
      updateHidden_keeps ht fun _ => ⟨rfl, rfl, rfl⟩

/-- `CMAC_Dev` makes one call more (R148); `KBUF` is as before. -/
theorem cmacDev_traced (P : Params) (m : List Byte) :
    Traced (calls (1 + cmacCalls m.length)) (cmacDev P m) s False fun _ t => t.hidden.kbuf = s.hidden.kbuf := by
  rw [← calls_add]
  refine Traced.onExit (bcClean_still _) ((bcLoadDev_traced _).bind fun _ t ht => ?_)
  subst ht
  exact (cmacBytes_traced P m rfl).mono fun _ t h => h.1

/-- The iteration of R163: per segment the calls of its tag, then what its sink asks. -/
theorem kdfLoop_traced (P : Params) (keyLen inLen : Nat) {sink : Nat → List Byte → Proc Unit} {e : Nat → List Event}
    (hs : ∀ i bs u, bs.length = min 16 (keyLen - 16 * i) →
      Traced (e i) (sink (16 * i) bs) u False fun _ t => t.hidden.kbuf = u.hidden.kbuf)
    (n i : Nat) (hn : n = (keyLen + 15) / 16 - i) (hk : inLen ≤ s.hidden.kbuf.length) :
    Traced ((List.range' i n).flatMap fun i => calls (1 + cmacCalls inLen) ++ e i) (kdfLoop P keyLen inLen sink n (16 * i)) s False
      fun _ _ => True := by
  induction n generalizing i s with
  | zero => exact .pure trivial
  | succ n ih =>
    rw [List.range'_succ, List.flatMap_cons, List.append_assoc]
    unfold kdfLoop
    rw [if_pos (by omega)]
    refine Traced.quiet (Traced.look (Q := fun b t => b.length = inLen ∧ inLen ≤ t.hidden.kbuf.length)
      ⟨by simp [hk], hk⟩) ?_
    rintro buf t ⟨rfl, ht⟩
    refine (cmacDev_traced P buf).bind fun tag u hu => ?_
    refine (hs i _ u (by simp)).bind fun _ v hv => ?_
    refine Traced.quiet (Traced.updateHidden (Q := fun _ t => buf.length ≤ t.hidden.kbuf.length) ?_) fun _ w hw =>
      ih (i + 1) (by omega) hw
    have hl : ∀ b : List Byte, (bumpCounter b).length = b.length := fun b => by cases b <;> rfl
    simp only [hl, hv, hu]
    exact ht

/-- A derivation (R165), its check passed. -/
theorem kdfRun_traced (P : Params) (keyLen : Nat) (label context : List Byte) {sink : Nat → List Byte → Proc Unit} {e : Nat → List Event}
    (hr : kdfRejects keyLen label.length context.length = false)
    (hs : ∀ i bs u, bs.length = min 16 (keyLen - 16 * i) →
      Traced (e i) (sink (16 * i) bs) u False fun _ t => t.hidden.kbuf = u.hidden.kbuf) :
    Traced ((List.range ((keyLen + 15) / 16)).flatMap fun i => calls (1 + cmacCalls (label.length + context.length + 6)) ++ e i)
      (kdfRun P keyLen label context sink) s False fun _ _ => True := by
  unfold kdfRun
  rw [hr, List.range_eq_range']
  refine Traced.onExit (fun _ => ⟨rfl, rfl, rfl⟩) (Traced.quiet
    (Traced.updateHidden (Q := fun _ t => label.length + context.length + 6 ≤ t.hidden.kbuf.length) ?_)
    fun _ t ht => kdfLoop_traced P keyLen _ hs _ 0 rfl ht)
  simp [bufStore, kdfInput_eq]

/-- A derivation into `DKEY` asks nothing. -/
theorem kdfToDkey_traced (P : Params) (keyLen : Nat) (label context : List Byte)
    (hr : kdfRejects keyLen label.length context.length = false) :
    Traced (calls (kdfCalls keyLen label.length context.length)) (kdfToDkey P keyLen label context) s False fun _ _ => True := by
  have := kdfRun_traced (s := s) P keyLen label context (e := fun _ => [])
    (sink := fun off bs => updateHidden fun h => { h with dkey := bufStore h.dkey off bs }) hr fun _ _ _ _ => .updateHidden rfl
  simp only [List.append_nil, calls_flatMap, List.length_range] at this
  exact this

/-- `DA_Load` (44_data_auth.md R200). -/
theorem daLoad_traced (P : Params) (c : CtxLoc) : Traced (calls (kdfCalls 16 27 4 + 1)) (daLoad P c) s False
    fun _ t => c = .tbc1 → (t.ctxAt .tbc1).state = .ready := by
  rw [← calls_add]
  refine Traced.onExit (fun _ => ⟨rfl, rfl, rfl⟩) ?_
  refine (kdfToDkey_traced P 16 Config.daLabel (beBytes 4 P.daContext.toNat) (daRejects P)).bind fun _ t _ => ?_
  refine Traced.quiet (Traced.look (Q := fun _ _ => True) trivial) fun k t _ => (bcLoad_traced c _).mono ?_
  rintro _ _ rfl rfl
  rfl

/-- `XTS_Load` (40_context_lifecycle.md R124). -/
theorem xtsLoad_traced (j : Nat) (k1 k2 : Block) : Traced (calls 2) (xtsLoad j k1 k2) s False fun _ _ => True := by
  rw [show calls 2 = calls 1 ++ calls 1 from rfl]
  exact Traced.onRaise (fun _ => ⟨rfl, rfl, rfl⟩)
    ((bcLoad_traced _ k1).bind fun _ _ _ => (bcLoad_traced _ k2).mono fun _ _ _ => trivial)

/-- `ME_Load` (45_mem_encrypt.md R220). -/
theorem meLoad_traced (P : Params) (j : Nat) (label context : List Byte)
    (hr : kdfRejects 32 label.length context.length = false) :
    Traced (calls (kdfCalls 32 label.length context.length + 2)) (meLoad P j label context) s False fun _ _ => True := by
  rw [← calls_add]
  refine Traced.onExit (fun _ => ⟨rfl, rfl, rfl⟩) ((kdfToDkey_traced P 32 label context hr).bind fun _ t _ => ?_)
  exact Traced.quiet (Traced.look (Q := fun _ _ => True) trivial) fun k t _ => xtsLoad_traced j _ _

/-- One block of an XTS run (43_xts.md R185). -/
theorem xtsBlock_traced (P : Params) (j : Nat) (d : Direction) (address inp out i : Nat)
    (ht : (s.ctxAt (.xcTweak j)).state = .ready) (hd : (s.ctxAt (.xcData j)).state = .ready) {u : State} (hu : Keeps s u) :
    Traced (xtsBlockEvents address inp out i) (xtsBlock P j d address inp out i) u False fun _ t => Keeps s t := by
  unfold xtsBlockEvents
  simp only [List.append_assoc]
  refine Traced.bind (R := fun _ t => Keeps s t) ?_ fun _ v hv => ?_
  · unfold xtsTweak
    split_ifs
    · exact (bcEnc_keeps P _ ht hu).last fun _ v hv => updateHidden_keeps hv fun _ => ⟨rfl, rfl, rfl⟩
    · exact .pure hu
  refine (memRead_traced _ _ (Q := fun _ t => Keeps s t) hv).bind fun x v hv => ?_
  refine Traced.quiet (Traced.look (Q := fun _ t => Keeps s t) hv) fun t v hv => ?_
  refine Traced.bind (R := fun _ t => Keeps s t) ?_ fun y v hv => ?_
  · cases d
    · exact bcEnc_keeps P _ hd hv
    · exact bcDec_traced P _ (hv.ready hd) fun _ => hv.of rfl rfl rfl rfl rfl
  have hw := memWrite_traced (s := v) (tag := False) (out + 16 * i) (bytesOfBlock (y ^^^ t)) (Q := fun _ t => Keeps s t)
    (hv.of rfl rfl rfl rfl rfl)
  rw [length_bytesOfBlock] at hw
  exact hw.last fun _ v hv => updateHidden_keeps hv fun _ => ⟨rfl, rfl, rfl⟩

theorem xtsLoop_traced (P : Params) (j : Nat) (d : Direction) (address inp out : Nat)
    (ht : (s.ctxAt (.xcTweak j)).state = .ready) (hd : (s.ctxAt (.xcData j)).state = .ready) (n i : Nat) {u : State} (hu : Keeps s u) :
    Traced (xtsEventsFrom address inp out n i) (xtsLoop P j d address inp out n i) u False fun _ t => Keeps s t := by
  induction n generalizing i u with
  | zero => exact .pure hu
  | succ n ih => exact (xtsBlock_traced P j d address inp out i ht hd hu).bind fun _ v hv => ih (i + 1) hv

/-! ## The works of the commands -/

theorem xtsWork_traced (P : Params) (j : Nat) (d : Direction) (r : OperandRegs) (ht : (s.ctxAt (.xcTweak j)).state = .ready)
    (hd : (s.ctxAt (.xcData j)).state = .ready) : Traced (xtsEvents r) (xtsWork P j d r) s False fun _ _ => True := by
  rw [xtsEvents_eq]
  exact (xtsLoop_traced P j d _ _ _ ht hd _ 0 (.refl s)).last fun _ _ _ => .updateHidden trivial

theorem bcInitKeyWork_traced (c : Nat) (r : OperandRegs) :
    Traced (asked (readAt r.a0 16) ++ calls 1) (bcInitKeyWork c r) s False fun _ _ => True :=
  (memRead_traced _ _ (Q := fun _ _ => True) trivial).bind fun _ _ _ => (bcLoad_traced _ _).mono fun _ _ _ => trivial

theorem xtsInitWork_traced (j : Nat) (r : OperandRegs) :
    Traced (asked (readAt r.a0 16) ++ asked (readAt r.a1 16) ++ calls 2) (xtsInitWork j r) s False fun _ _ => True := by
  rw [List.append_assoc]
  exact (memRead_traced _ _ (Q := fun _ _ => True) trivial).bind fun _ _ _ =>
    (memRead_traced _ _ (Q := fun _ _ => True) trivial).bind fun _ _ _ => xtsLoad_traced j _ _

/-- A tag is computed over the message and written (41_cmac.md R146). -/
theorem tagWork_traced (P : Params) {c : CtxLoc} (r : OperandRegs) (hr : (s.ctxAt c).state = .ready) :
    Traced (asked (readAt r.a0 r.a1.toNat) ++ calls (cmacCalls r.a1.toNat) ++ asked (writeAt r.a2 16)) (tagWork P c r) s False
      fun _ _ => True := by
  rw [List.append_assoc]
  refine (memRead_traced _ _ (Q := fun b t => t = s ∧ b.length = r.a1.toNat) ⟨rfl, by simp⟩).bind ?_
  rintro m _ ⟨rfl, hm⟩
  rw [← hm]
  refine (cmacBytes_traced P m hr).bind fun tag t _ => ?_
  have hw := memWrite_traced (s := t) (tag := False) r.a2.toNat (bytesOfBlock tag) (Q := fun _ _ => True) trivial
  rwa [length_bytesOfBlock] at hw

/-- A tag is computed over the message and compared (44_data_auth.md R203). -/
theorem verifyWork_traced (P : Params) {c : CtxLoc} (r : OperandRegs) (hr : (s.ctxAt c).state = .ready) :
    Traced (asked (readAt r.a0 r.a1.toNat) ++ calls (cmacCalls r.a1.toNat) ++ asked (readAt r.a2 16)) (verifyWork P c r) s True
      fun _ _ => True := by
  rw [List.append_assoc]
  refine (memRead_traced _ _ (Q := fun b t => t = s ∧ b.length = r.a1.toNat) ⟨rfl, by simp⟩).bind ?_
  rintro m _ ⟨rfl, hm⟩
  rw [← hm]
  refine (cmacBytes_traced P m hr).bind fun tag t _ => ?_
  refine Traced.quiet (Traced.updateHidden (Q := fun _ _ => True) trivial) fun _ t _ => ?_
  refine (memRead_traced _ _ (Q := fun _ _ => True) trivial).last fun given t _ => ?_
  refine Traced.quiet (Traced.look (Q := fun _ _ => True) trivial) fun own t _ => ?_
  split_ifs
  · exact .pure trivial
  · exact .invalidTag

theorem cmacKeyWork_traced (P : Params) (r : OperandRegs) :
    Traced (asked (readAt r.a3 16) ++ calls 1 ++ asked (readAt r.a0 r.a1.toNat) ++ calls (cmacCalls r.a1.toNat) ++
      asked (writeAt r.a2 16)) (cmacKeyWork P r) s False fun _ _ => True := by
  simp only [List.append_assoc]
  refine Traced.onExit (bcClean_still _) ((memRead_traced _ _ (Q := fun _ _ => True) trivial).bind fun k t _ =>
    (bcLoad_traced _ _).bind ?_)
  rintro _ _ rfl
  simpa only [List.append_assoc] using tagWork_traced P r rfl

theorem cmacDevkeyWork_traced (P : Params) (r : OperandRegs) :
    Traced (asked (readAt r.a0 r.a1.toNat) ++ calls (1 + cmacCalls r.a1.toNat) ++ asked (writeAt r.a2 16))
      (cmacDevkeyWork P r) s False fun _ _ => True := by
  rw [List.append_assoc]
  refine (memRead_traced _ _ (Q := fun b _ => b.length = r.a1.toNat) (by simp)).bind fun m t hm => ?_
  rw [← hm]
  refine (cmacDev_traced P m).bind fun tag t _ => ?_
  have hw := memWrite_traced (s := t) (tag := False) r.a2.toNat (bytesOfBlock tag) (Q := fun _ _ => True) trivial
  rwa [length_bytesOfBlock] at hw

/-- Each segment is stored as it is produced (42_kdf.md R166). -/
theorem kdfDeriveWork_traced (P : Params) (r : OperandRegs) (hr : kdfRejects r.a1.toNat r.a3.toNat r.a5.toNat = false) :
    Traced (asked (readAt r.a2 r.a3.toNat) ++ asked (readAt r.a4 r.a5.toNat) ++
      (kdfSegments r.a0 r.a1.toNat).flatMap fun a => calls (1 + cmacCalls (r.a3.toNat + r.a5.toNat + 6)) ++ asked a)
      (kdfDeriveWork P r) s False fun _ _ => True := by
  rw [List.append_assoc]
  refine (memRead_traced _ _ (Q := fun b _ => b.length = r.a3.toNat) (by simp)).bind fun label t hl => ?_
  refine (memRead_traced _ _ (Q := fun b _ => b.length = r.a5.toNat) (by simp)).bind fun context t hc => ?_
  rw [kdfSegments, List.flatMap_map, ← hl, ← hc]
  refine kdfRun_traced P _ label context (e := fun i => asked ⟨r.a0.toNat + 16 * i, min 16 (r.a1.toNat - 16 * i), .write⟩)
    (by rw [hl, hc]; exact hr) fun i bs u hb => ?_
  rw [← hb]
  exact memWrite_traced _ _ rfl

theorem meInitWork_traced (P : Params) (j : Nat) (r : OperandRegs) (hr : kdfRejects 32 r.a3.toNat r.a5.toNat = false) :
    Traced (asked (readAt r.a2 r.a3.toNat) ++ asked (readAt r.a4 r.a5.toNat) ++ calls (kdfCalls 32 r.a3.toNat r.a5.toNat + 2))
      (meInitWork P j r) s False fun _ _ => True := by
  rw [List.append_assoc]
  refine (memRead_traced _ _ (Q := fun b _ => b.length = r.a3.toNat) (by simp)).bind fun label t hl => ?_
  refine (memRead_traced _ _ (Q := fun b _ => b.length = r.a5.toNat) (by simp)).bind fun context t hc => ?_
  rw [← hl, ← hc] at hr ⊢
  exact meLoad_traced P j label context hr

theorem daComputeEasyWork_traced (P : Params) (r : OperandRegs) :
    Traced (calls (kdfCalls 16 27 4 + 1) ++ asked (readAt r.a0 r.a1.toNat) ++ calls (cmacCalls r.a1.toNat) ++
      asked (writeAt r.a2 16)) (daComputeEasyWork P r) s False fun _ _ => True := by
  simp only [List.append_assoc]
  refine Traced.onExit (bcClean_still _) ((daLoad_traced P .tbc1).bind fun _ t ht => ?_)
  simpa only [List.append_assoc] using tagWork_traced P r (ht rfl)

theorem daVerifyEasyWork_traced (P : Params) (r : OperandRegs) :
    Traced (calls (kdfCalls 16 27 4 + 1) ++ asked (readAt r.a0 r.a1.toNat) ++ calls (cmacCalls r.a1.toNat) ++
      asked (readAt r.a2 16)) (daVerifyEasyWork P r) s True fun _ _ => True := by
  simp only [List.append_assoc]
  refine Traced.onExit (bcClean_still _) ((daLoad_traced P .tbc1).bind fun _ t ht => ?_)
  simpa only [List.append_assoc] using verifyWork_traced P r (ht rfl)

/-! ## Launching -/

/-- How a command ends whose work's row comes out as `v`. -/
def EndsAs (v : Verdict) (i : Instr) (o : Host.Outcome State Fault Refusal) : Prop :=
  match v with
  | .ended f n => ∃ t, o = .next t ∧ t.primFaults = f ∧ t.primCalls = n ∧
      (t.status = Status.ok.word ∨ (.invalidTag ∈ mayEndWith i ∧ t.status = Status.invalidTag.word))
  | .failed f n => ∃ t, o = .next t ∧ t.primFaults = f ∧ t.primCalls = n ∧ t.status = Status.failure.word
  | .refused => o = .refused .accessNotAdmitted

/-- A command whose checks pass ends as the row of its work does (60_exceptions.md R244, R246). -/
theorem run_traced {i : Instr} {g : Gate} {w : Proc Unit} (hgo : g = .go) (hs : s.InSpace i) (ht : tag → .invalidTag ∈ mayEndWith i)
    (hw : Traced l w s tag fun _ _ => True) : EndsAs (verdict s.denied l s.primFaults s.primCalls) i (run i g w s) := by
  rw [run_go hgo hs]
  unfold Traced at hw
  rcases hp : w s with ⟨b, t⟩ | ⟨c | r, t⟩ <;> rw [hp] at hw
  · rw [hw.1]; exact ⟨_, rfl, rfl, rfl, Or.inl rfl⟩
  · rcases hw with ⟨rfl, hv⟩ | ⟨rfl, htag, hv⟩ <;> rw [hv]
    · exact ⟨_, rfl, by simp, by simp, rfl⟩
    · exact ⟨_, rfl, rfl, rfl, Or.inr ⟨ht htag, rfl⟩⟩
  · rw [hw.2, hw.1]; rfl

end Sys2Proof.Machine
end

