-- ==== Sys2Proof/Tests/Slice0.lean ====
section
/-! SUPPORT. The model's own tests: ill-formed terms refused, command words decoded, at most two runs per command, and a
witness for the hypotheses of every statement. Expected results are the spec's (95_test_vectors.md, the vector named in the
comment) or computed with its Appendix A script, never with the model. `TOY` is the spec's toy cipher. -/

namespace Sys2Proof.Tests

open Machine

/-! ## WellFormed -/

theorem test_wf_slot_index_256_is_no_field : ¬ (Instr.cmac 256).WellFormed := by decide
theorem test_wf_slot_index_255_is_a_field : (Instr.cmac 255).WellFormed := by decide
theorem test_wf_xts_slot_index_1000 : ¬ (Instr.meDec 1000).WellFormed := by decide
theorem test_wf_no_context : Instr.cmacKey.WellFormed := by decide

/-! ## Decoding: words written out from 30_encoding.md R80, R84 (and R88, 95 §3 to §7 where they occur there) -/

/-- Does the word decode to the instruction? -/
def reads (w : Word) (i : Instr) : Bool :=
  match decode w with
  | .ok j => i == j
  | .error _ => false

/-- Is the word illegal? -/
def illegal (w : Word) : Bool :=
  match decode w with
  | .ok _ => false
  | .error _ => true

theorem test_decode_bcInitKey : reads 0b00000000000000000000000000000001 (.bcInitKey 0) = true := by decide
theorem test_decode_bcInitDevkey : reads 0b00000000000000000000001000000010 (.bcInitDevkey 2) = true := by decide
theorem test_decode_bcCleanup : reads 0b00000000000000000000001100000011 (.bcCleanup 3) = true := by decide
theorem test_decode_bcIsInit : reads 0b00000000000000000000010000000100 (.bcIsInit 4) = true := by decide
theorem test_decode_xtsInit : reads 0b00000000000000000000000100000101 (.xtsInit 1) = true := by decide
theorem test_decode_xtsCleanup : reads 0b00000000000000000000000000000110 (.xtsCleanup 0) = true := by decide
theorem test_decode_xtsIsInit : reads 0b00000000000000000000000100000111 (.xtsIsInit 1) = true := by decide
theorem test_decode_cmac : reads 0b00000000000000000000000100010000 (.cmac 1) = true := by decide
theorem test_decode_cmacKey : reads 0b00000000000000000000000000010001 .cmacKey = true := by decide
theorem test_decode_cmacDevkey : reads 0b00000000000000000000000000010010 .cmacDevkey = true := by decide
theorem test_decode_kdfDerive : reads 0b00000000000000000000000000100000 .kdfDerive = true := by decide
theorem test_decode_xtsEnc : reads 0b00000000000000000000001000110000 (.xtsEnc 2) = true := by decide
theorem test_decode_xtsDec : reads 0b00000000000000000000000000110001 (.xtsDec 0) = true := by decide
theorem test_decode_daInit : reads 0b00000000000000000000000101000000 (.daInit 1) = true := by decide
theorem test_decode_daCompute : reads 0b00000000000000000000001001000001 (.daCompute 2) = true := by decide
theorem test_decode_daVerify : reads 0b00000000000000001111111101000010 (.daVerify 255) = true := by decide
theorem test_decode_daComputeEasy : reads 0b00000000000000000000000001000011 .daComputeEasy = true := by decide
theorem test_decode_daVerifyEasy : reads 0b00000000000000000000000001000100 .daVerifyEasy = true := by decide
theorem test_decode_meInit : reads 0b00000000000000000000000001010000 (.meInit 0) = true := by decide
theorem test_decode_meEnc : reads 0b00000000000000000000000001010001 (.meEnc 0) = true := by decide
theorem test_decode_meDec : reads 0b00000000000000000000000101010010 (.meDec 1) = true := by decide

/-- F13 and the gaps of the operation codes (30_encoding.md R85). -/
theorem test_decode_illegal :
    [0x00000000, 0x00000008, 0x00010010, 0x00000111, 0x00000013, 0x00000021, 0x00000045, 0x000000ff, 0x80000001].all illegal
      = true := by decide

theorem test_decodeTableWord : decodeTableWord 32 0x00000230 = some (.xtsEnc 2) ∧ decodeTableWord 32 0x00000013 = none := by
  decide

/-! ## Bytes and the doublings (B3 to B5, L7) -/

theorem test_dblBE :
    dblBE 0x80000000000000000000000000000000 = 0x00000000000000000000000000000087 ∧
    dblBE 0xffffffffffffffffffffffffffffffff = 0xffffffffffffffffffffffffffffff79 ∧
    dblBE 0x40000000000000000000000000000080 = 0x80000000000000000000000000000100 := by decide

theorem test_dblLE : dblLE 0x80000000000000000000000000000000 = 0x00010000000000000000000000000000 := by decide

theorem test_byte_orders : beBytes 4 0x01020304 = [1, 2, 3, 4] ∧ leBytes 4 0x01020304 = [4, 3, 2, 1] ∧
    bytesOfBlock 0x000102030405060708090a0b0c0d0e0f = [0, 1, 2, 3, 4, 5, 6, 7, 8, 9, 10, 11, 12, 13, 14, 15] := by decide

/-! ## The states of the tests -/

/-- The toy cipher of 95_test_vectors.md: `E(k, x) = rotl8(x xor k)`. -/
def toyEnc (k x : Block) : Block := (x ^^^ k).rotateLeft 8

/-- `D(k, y) = rotr8(y) xor k`. -/
def toyDec (k y : Block) : Block := y.rotateRight 8 ^^^ k

/-- TOY, with the illustrative `DA_CONTEXT = 00 00 00 00`. -/
def toy : Params := { enc := toyEnc, dec := toyDec, daContext := 0 }

/-- `KA`. -/
def ka : Block := 0x000102030405060708090a0b0c0d0e0f

/-- `KB`. -/
def kb : Block := 0x101112131415161718191a1b1c1d1e1f

/-- The bytes `00 01 02 ..`, and `10 11 12 ..` from 16 on. -/
def bytesFrom (a n : Nat) : List Byte := (List.range n).map fun i => BitVec.ofNat 8 (a + i)

/-- "hello". -/
def hello : List Byte := [0x68, 0x65, 0x6c, 0x6c, 0x6f]

/-- After reset, `DEVKEY = KA`, every access admitted, the first primitive calls answered: none fails. -/
def base : State := { State.reset with denied := [], primFaults := List.replicate 40 false, devKey := ka }

/-- A context loaded with a key. -/
def loaded (k : Block) : BlockCtx := ⟨.ready, .loaded, k⟩

/-- "hello" at 0x2000, a tag at 0x3000, a key pointer at 0x1000; slot 3 loaded with `KA`, slot 1 on the device key. -/
def msg : State :=
  { base with regs := ⟨0x2000, 5, 0x3000, 0x1000, 0, 0⟩, mem := base.mem.write 0x2000 hello
              bc := #v[.clear, ⟨.ready, .device, 0⟩, .clear, loaded ka] }

/-- `I(32)` at 0x4000, in place, at address 1008; XTS slot 1 loaded with `KA`, `KB`. -/
def span : State :=
  { base with regs := ⟨0x4000, 32, 0x4000, 1008, 0, 0⟩, mem := base.mem.write 0x4000 (bytesFrom 0 32)
              xc := #v[.clear, ⟨loaded ka, loaded kb⟩] }

/-- The outcome's next state, as far as the test looks at it. -/
def after {α : Type} (f : State → α) : Host.Outcome State Fault Refusal → Option α
  | .next t => some (f t)
  | .fault _ => none
  | .refused _ => none

/-- `STATUS` and the bytes of a range. -/
def statusAnd (a n : Nat) (t : State) : Nat × List Byte := (t.status.toNat, t.mem.read a n)

/-! ## Runs -/

/-- P1 step 2. -/
theorem test_bcInitKey : after (fun t => (t.status, t.ctxAt (.bc 0)))
    (exec (.bcInitKey 0) { base with regs := ⟨0x1000, 0, 0, 0, 0, 0⟩, mem := base.mem.write 0x1000 (bytesOfBlock kb) })
    = some (0, loaded kb) := by decide

/-- F11. -/
theorem test_bcInitKey_failure : after (fun t => (t.status, t.ctxAt (.bc 0)))
    (exec (.bcInitKey 0) { base with regs := ⟨0x1000, 0, 0, 0, 0, 0⟩, primFaults := [true] }) = some (1, .clear) := by decide

theorem test_bcInitDevkey : after (fun t => (t.status, t.ctxAt (.bc 3), t.keyOf (t.ctxAt (.bc 3)))) (exec (.bcInitDevkey 3) base)
    = some (0, ⟨.ready, .device, 0⟩, ka) := by decide

/-- P1 step 5. -/
theorem test_bcCleanup : after (fun t => (t.status, t.bc)) (exec (.bcCleanup 3) { msg with status := 4 })
    = some (0, #v[.clear, ⟨.ready, .device, 0⟩, .clear, .clear]) := by decide

/-- F1. -/
theorem test_bcIsInit : (after (fun t => (t.result, t.status)) (exec (.bcIsInit 3) msg),
    after (fun t => (t.result, t.status)) (exec (.bcIsInit 4) { msg with result := 1 })) = (some (1, 0), some (0, 2)) := by decide

/-- P5 step 2. -/
theorem test_xtsInit : after (fun t => (t.status, t.xc)) (exec (.xtsInit 0)
    { base with regs := ⟨0x1000, 0x1010, 0, 0, 0, 0⟩, mem := base.mem.write 0x1000 (bytesFrom 0 32) })
    = some (0, #v[⟨loaded ka, loaded kb⟩, .clear]) := by decide

/-- F12. -/
theorem test_xtsInit_failure : after (fun t => (t.status, t.xc)) (exec (.xtsInit 0)
    { base with regs := ⟨0x1000, 0x1010, 0, 0, 0, 0⟩, primFaults := [false, true] }) = some (1, #v[.clear, .clear]) := by decide

/-- P2 step 5. -/
theorem test_xtsCleanup : after (fun t => (t.status, t.xc)) (exec (.xtsCleanup 1) span) = some (0, #v[.clear, .clear]) := by decide

theorem test_xtsIsInit : (after (fun t => (t.result, t.status)) (exec (.xtsIsInit 1) span),
    after (fun t => (t.result, t.status)) (exec (.xtsIsInit 0) span)) = (some (1, 0), some (0, 0)) := by decide

/-- `CMAC` of "hello" under `KA` (Appendix A). -/
theorem test_cmac : after (statusAnd 0x3000 16) (cmacWith toy 3 msg) = some (0, bytesOfBlock 0x6c627f7f9d1a272c21263b3835320f6c) := by
  decide

/-- C13: the second primitive call fails; the slot is unchanged. -/
theorem test_cmac_failure : after (fun t => (t.status, t.bc == msg.bc)) (cmacWith toy 3 { msg with primFaults := [false, true] })
    = some (1, true) := by decide

/-- M11, `J(16)`: the `K1` path. -/
theorem test_cmacKey_full_block : after (statusAnd 0x3000 16) (cmacKeyWith toy { msg with
    regs := ⟨0x2000, 16, 0x3000, 0x1000, 0, 0⟩, mem := (base.mem.write 0x2000 (bytesFrom 16 16)).write 0x1000 (bytesOfBlock ka) })
    = some (0, bytesOfBlock 0x1416181a1c1e00020406080a0c0e1012) := by decide

/-- M10, P5 step 1: the empty message. -/
theorem test_cmacKey_empty : after (statusAnd 0x3000 16) (cmacKeyWith toy { msg with
    regs := ⟨0, 0, 0x3000, 0x1000, 0, 0⟩, mem := base.mem.write 0x1000 (bytesOfBlock ka) })
    = some (0, bytesOfBlock 0x090e13101d1a272c21263b3835320f84) := by decide

/-- M11, `J(17)` under `DEVKEY = KA`: one chained block. -/
theorem test_cmacDevkey : after (statusAnd 0x3000 16) (cmacDevkeyWith toy { msg with
    regs := ⟨0x2000, 17, 0x3000, 0, 0, 0⟩, mem := base.mem.write 0x2000 (bytesFrom 16 17) })
    = some (0, bytesOfBlock 0x991e03000d0a373c31362b2825221f34) := by decide

/-- The label "label" and the context "ctx" of 95 §4. -/
def kdf : State :=
  { base with regs := ⟨0x200, 20, 0x100, 5, 0x108, 3⟩
              mem := (base.mem.write 0x100 [0x6c, 0x61, 0x62, 0x65, 0x6c]).write 0x108 [0x63, 0x74, 0x78] }

/-- K12: a second, partial segment. -/
theorem test_kdfDerive : after (statusAnd 0x200 20) (kdfDeriveWith toy kdf)
    = some (0, bytesOfBlock 0x656f7175711a445859863b3835b20f04 ++ [0x65, 0x6f, 0x71, 0x75]) := by decide

/-- K11. -/
theorem test_kdfDerive_rejects : after (statusAnd 0x200 20) (kdfDeriveWith toy { kdf with regs := { kdf.regs with a1 := 8 } })
    = some (2, zeroBytes 20) := by decide

set_option maxRecDepth 100000 in
/-- X5: the second block lies in the next data unit. -/
theorem test_xtsEnc : after (statusAnd 0x4000 32) (xtsEncWith toy 1 span)
    = some (0, bytesOfBlock 0x01c34ac244c356b385808380818087a8 ++ bytesOfBlock 0x1311171113111f111311171113111e10) := by decide

/-- X14. -/
theorem test_xtsEnc_rejects : after (fun t => (t.status, t.mem == span.mem))
    (xtsEncWith toy 1 { span with regs := ⟨0x4000, 16, 0x5000, 1, 0, 0⟩ }) = some (2, true) := by decide

set_option maxRecDepth 100000 in
/-- Appendix A, `I(32)` at 1008. -/
theorem test_xtsDec : after (statusAnd 0x4000 32) (xtsDecWith toy 1 span)
    = some (0, bytesOfBlock 0xa700c04bc545c057bc84838287808386 ++ bytesOfBlock 0x1f1212161612121e1e1212161612121f) := by decide

/-- Appendix A: the derived key. -/
theorem test_daInit : after (fun t => (t.status, t.ctxAt (.bc 2))) (daInitWith toy 2 msg)
    = some (0, loaded 0x9f1e160e905416273b2e1a7a413d372c) := by decide

/-- F5, and `DA_COMPUTE` under a loaded key. -/
theorem test_daCompute : (after (fun t => (t.status, t.mem == msg.mem)) (daComputeWith toy 2 msg),
    after (statusAnd 0x3000 16) (daComputeWith toy 3 msg))
    = (some (3, true), some (0, bytesOfBlock 0x6c627f7f9d1a272c21263b3835320f6c)) := by decide

theorem test_daVerify : after (fun t => t.status)
    (daVerifyWith toy 3 { msg with mem := msg.mem.write 0x3000 (bytesOfBlock 0x6c627f7f9d1a272c21263b3835320f6c) }) = some 0 := by
  decide

/-- One bit of the tag flipped. -/
theorem test_daVerify_rejects : after (fun t => t.status)
    (daVerifyWith toy 3 { msg with mem := msg.mem.write 0x3000 (bytesOfBlock 0x6c627f7f9d1a272c21263b3835320f6d) }) = some 4 := by
  decide

/-- Appendix A: the tag of "hello" under the derived key; no slot is used. -/
theorem test_daComputeEasy : after (fun t => (statusAnd 0x3000 16 t, t.bc == msg.bc)) (daComputeEasyWith toy msg)
    = some ((0, bytesOfBlock 0x234023af8c8acb8347f37eb5e185508f), true) := by decide

theorem test_daVerifyEasy : (after (fun t => t.status)
    (daVerifyEasyWith toy { msg with mem := msg.mem.write 0x3000 (bytesOfBlock 0x234023af8c8acb8347f37eb5e185508f) }),
    after (fun t => t.status) (daVerifyEasyWith toy msg)) = (some 0, some 4) := by decide

/-- Appendix A, label "flash", context "bank0": both keys of one derivation of 32 bytes. -/
theorem test_meInit : after (fun t => (t.status, t.xc)) (meInitWith toy 0 {
    base with
    regs := ⟨0, 0, 0x100, 5, 0x108, 5⟩
    mem := (base.mem.write 0x100 [0x66, 0x6c, 0x61, 0x73, 0x68]).write 0x108 [0x62, 0x61, 0x6e, 0x6b, 0x30] })
    = some (0, #v[⟨loaded 0x63686a7d6108757b7377231610100f02, loaded 0x63686a7d6108757b7377231610100f03⟩, .clear]) := by decide

set_option maxRecDepth 100000 in
/-- Appendix A, under those keys. -/
theorem test_meEnc : after (statusAnd 0x4000 32) (meEncWith toy 0 { span with
    xc := #v[⟨loaded 0x63686a7d6108757b7377231610100f02, loaded 0x63686a7d6108757b7377231610100f03⟩, .clear] })
    = some (0, bytesOfBlock 0x6178fae4e3666f03e72293a82306097b ++ bytesOfBlock 0x7b6f721c606d646f3a0c0b0c121d7c79) := by decide

set_option maxRecDepth 100000 in
/-- P2 step 3 under those keys. -/
theorem test_meDec : after (statusAnd 0x4000 32) (meDecWith toy 0 { span with
    mem := base.mem.write 0x4000 (bytesOfBlock 0x6178fae4e3666f03e72293a82306097b ++ bytesOfBlock 0x7b6f721c606d646f3a0c0b0c121d7c79),
    xc := #v[⟨loaded 0x63686a7d6108757b7377231610100f02, loaded 0x63686a7d6108757b7377231610100f03⟩, .clear] })
    = some (0, bytesFrom 0 32) := by decide

/-! ## The machine around the commands -/

/-- F13, F2 from reset: the first step runs the word. -/
theorem test_step_from_reset : (after (fun t => t.status) (step (State.reset.withFetchWord 32 0x00000000)),
    after (fun t => t.status) (step (State.reset.withFetchWord 32 0x00000303))) = (some 2, some 0) := by decide

/-- 10_state.md R20, R21, R33: the host reads back what it wrote; CMD reads as zero. -/
theorem test_host : (after (fun t => t.busData) (Host.Core.run
      ⟨State, Fault, Refusal, step, { base with bus := [.writeReg (.a .a4) 7, .readReg (.a .a4)] }⟩ 2
      { base with bus := [.writeReg (.a .a4) 7, .readReg (.a .a4)] }),
    after (fun t => t.busData) (hostAccess (.readReg .cmd) msg),
    after (fun t => t.busData) (hostAccess (.readMem 0x2004) msg)) = (some 7, some 0, some 0x6f) := by decide

/-- 20_memory.md R58, R60, 60_exceptions.md R244: a call that fails before a tag range that is not admitted ends with FAILURE; a
tag range that is reached is refused. -/
theorem test_failure_before_a_denied_access :
    after (fun t => t.status) (exec (.cmacDevkey) { msg with denied := [⟨0x3000, 16, .write⟩], primFaults := [false, true] }) = some 1 ∧
    exec (.cmacDevkey) { msg with denied := [⟨0x3000, 16, .write⟩] } = .refused .accessNotAdmitted := ⟨by decide, rfl⟩

/-! ## Witnesses: for each statement with hypotheses a state and operands that meet them, at the ends of the ranges -/

theorem admitsAll {s : State} {l : List Access} (h : l.all s.admitsAccess = true) : s.AdmitsAll l :=
  fun a ha => State.admitsAccess_iff.mp (List.all_eq_true.mp h a ha)

theorem admits {s : State} {i : Instr}
    (h : topGate (operandRanges i s.regs) = .go ∧ (accessesOf i s.regs).all s.admitsAccess = true) : s.Admits i :=
  ⟨topGate_eq_go.mp h.1, admitsAll h.2⟩

theorem noFault {s : State} {n : Nat} (h : s.primFaults.take n = List.replicate n false) : s.NoFault n := h

theorem given {p n : Word} (h : n = 0 ∨ p ≠ 0) : Given p n := h

/-- The empty message behind a null pointer, the tag at the top of the address space. -/
def top : State := { msg with regs := ⟨0, 0, 0xfffffff0, 0xfffffff0, 0, 0⟩ }

theorem witness_DecodeOfEncode : (Instr.cmac 255).WellFormed ∧ (Instr.bcInitKey 0).WellFormed ∧ Instr.cmacKey.WellFormed := by decide

theorem witness_EncodeOfDecode : decode 0x0000ff52 = .ok (.meDec 255) ∧ decode 0x00000011 = .ok .cmacKey := ⟨rfl, rfl⟩

theorem witness_ResetLeavesEveryContextCleaned : 3 < Config.nbc ∧ 1 < Config.nxc := by decide

theorem witness_StepRunsTheDecodedCommand :
    { msg with bus := [.writeReg .cmd 0x00000310] }.bus = .writeReg .cmd 0x00000310 :: [] ∧ decode 0x00000310 = .ok (.cmac 3) :=
  ⟨rfl, rfl⟩

theorem witness_IllegalWordOnlyWritesInvalidArgs :
    { msg with bus := [.writeReg .cmd 0] }.bus = .writeReg .cmd 0 :: [] ∧ ∀ i : Instr, (0 : Word) &&& i.rowMask ≠ i.rowMatch := by
  refine ⟨rfl, fun i => ?_⟩
  cases i <;> simp [Instr.rowMatch]

theorem witness_HostAccessRights : msg.mem.wf = true ∧ OpReg.a0 ≠ OpReg.a5 ∧ (0 : Nat) ≠ (0xffffffff : Word).toNat := by decide

theorem witness_AssemblerLineLaunchesItsCommand : (Instr.cmac 3).WellFormed ∧
    { base with bus := asmLine (.cmac 3) [0x2000, 5, 0x3000] }.bus =
      asmLine (.cmac 3) ((operandRegs (.cmac 3)).map fun r => match r with | .a0 => 0x2000 | .a1 => 5 | _ => 0x3000) ++ [] := by decide

theorem witness_BcInitKeyLoadsTheKey : 3 < Config.nbc ∧ ({ base with regs := { base.regs with a0 := 0xfffffff0 } } : State).regs.a0 ≠ 0 ∧
    ({ base with regs := { base.regs with a0 := 0xfffffff0 } } : State).Admits (.bcInitKey 3) ∧
    (base.ctxAt (.bc 3)).state = .uninit ∧ base.nextFault = false ∧ ({ base with primFaults := [true] } : State).nextFault = true ∧
    (2 : Nat) ≠ 3 :=
  ⟨by decide, by decide, admits (by decide), by decide, by decide, by decide, by decide⟩

theorem witness_BcInitDevkeySelectsTheDeviceKey : 3 < Config.nbc ∧ (base.ctxAt (.bc 3)).state = .uninit ∧
    base.nextFault = false ∧ ({ base with primFaults := [true] } : State).nextFault = true ∧ (2 : Nat) ≠ 3 := by decide

theorem witness_BcCleanupCleansTheSlot : 3 < Config.nbc ∧ (msg.ctxAt (.bc 3)).state = .ready ∧ (base.ctxAt (.bc 3)).state = .uninit ∧
    (2 : Nat) ≠ 3 := by decide

theorem witness_BcIsInitReportsTheFlag : 3 < Config.nbc ∧ Config.nbc ≤ 4 := by decide

theorem witness_XtsInitLoadsBothKeysOrNeither : 1 < Config.nxc ∧ (0x1000 : Word) ≠ 0 ∧ (0xfffffff0 : Word) ≠ 0 ∧
    ({ base with regs := { base.regs with a0 := 0x1000, a1 := 0xfffffff0 } } : State).Admits (.xtsInit 1) ∧
    (base.ctxAt (.xcData 1)).state = .uninit ∧ (base.ctxAt (.xcTweak 1)).state = .uninit ∧
    base.nextFault = false ∧ base.drawFault.nextFault = false ∧ ({ base with primFaults := [true] } : State).nextFault = true ∧
    ({ base with primFaults := [false, true] } : State).drawFault.nextFault = true ∧ (0 : Nat) ≠ 1 :=
  ⟨by decide, by decide, by decide, admits (by decide), by decide, by decide, by decide, by decide, by decide, by decide, by decide⟩

theorem witness_XtsCleanupCleansBothContexts : 1 < Config.nxc ∧ (0 : Nat) ≠ 1 ∧ Config.nxc ≤ 2 := by decide

theorem witness_XtsIsInitReportsBothFlags : 1 < Config.nxc ∧ Config.nxc ≤ 2 := by decide

theorem witness_InitOfAReadySlotIsRefused :
    (3 < Config.nbc ∧ (msg.ctxAt (.bc 3)).state = .ready ∧ msg.regs.a0 ≠ 0) ∧
    (1 < Config.nxc ∧ (span.ctxAt (.xcData 1)).state = .ready ∧ span.regs.a0 ≠ 0 ∧ span.regs.a1 ≠ 0) ∧
    (({ span with xc := #v[.clear, ⟨.clear, loaded kb⟩] } : State).ctxAt (.xcTweak 1)).state = .ready ∧
    Given (0x100 : Word) 250 ∧ Given (0 : Word) 0 ∧ (250 : Word).toNat + (0 : Word).toNat ≤ 250 :=
  ⟨by decide, by decide, by decide, given (by decide), given (by decide), by decide⟩

theorem witness_LifecycleRejectsBadArguments : Config.nbc ≤ 4 ∧ Config.nxc ≤ 2 ∧ base.regs.a0 = 0 ∧
    ({ base with regs := { base.regs with a0 := 1 } } : State).regs.a1 = 0 := by decide

theorem witness_CmacWritesTheTag :
    (3 < Config.nbc ∧ (msg.ctxAt (.bc 3)).state = .ready ∧ msg.regs.a2 ≠ 0 ∧ Given msg.regs.a0 msg.regs.a1 ∧ msg.Admits (.cmac 3) ∧
      msg.Admits (.daCompute 3) ∧ msg.NoFault (callsOf (.cmac 3) msg.regs) ∧ msg.NoFault (callsOf (.daCompute 3) msg.regs) ∧
      msg.mem.wf = true) ∧
    ((top.ctxAt (.bc 1)).state = .ready ∧ top.regs.a2 ≠ 0 ∧ Given top.regs.a0 top.regs.a1 ∧ top.Admits (.cmac 1) ∧
      top.NoFault (callsOf (.cmac 1) top.regs)) :=
  ⟨⟨by decide, by decide, by decide, given (by decide), admits (by decide), admits (by decide), noFault (by decide),
    noFault (by decide), by decide⟩, by decide, by decide, given (by decide), admits (by decide), noFault (by decide)⟩

theorem witness_CmacOfEmptyAndFullBlock :
    (3 < Config.nbc ∧ (top.ctxAt (.bc 3)).state = .ready ∧ top.regs.a2 ≠ 0 ∧ top.Admits (.cmac 3) ∧ top.NoFault 2 ∧
      top.mem.wf = true ∧ top.regs.a1 = 0) ∧
    (({ msg with regs := { msg.regs with a1 := 16 } } : State).Admits (.cmac 3) ∧ msg.NoFault 2 ∧ msg.regs.a0 ≠ 0) :=
  ⟨⟨by decide, by decide, by decide, admits (by decide), noFault (by decide), by decide, by decide⟩, admits (by decide),
    noFault (by decide), by decide⟩

theorem witness_CmacKeyWritesTheTag :
    (msg.regs.a3 ≠ 0 ∧ msg.regs.a2 ≠ 0 ∧ Given msg.regs.a0 msg.regs.a1 ∧ msg.Admits .cmacKey ∧
      msg.NoFault (callsOf .cmacKey msg.regs) ∧ msg.mem.wf = true) ∧
    (top.regs.a3 ≠ 0 ∧ Given top.regs.a0 top.regs.a1 ∧ top.Admits .cmacKey ∧ top.NoFault (callsOf .cmacKey top.regs)) :=
  ⟨⟨by decide, by decide, given (by decide), admits (by decide), noFault (by decide), by decide⟩, by decide, given (by decide),
    admits (by decide), noFault (by decide)⟩

theorem witness_CmacDevkeyWritesTheTag :
    (msg.regs.a2 ≠ 0 ∧ Given msg.regs.a0 msg.regs.a1 ∧ msg.Admits .cmacDevkey ∧ msg.NoFault (callsOf .cmacDevkey msg.regs) ∧
      msg.mem.wf = true) ∧
    (top.regs.a2 ≠ 0 ∧ Given top.regs.a0 top.regs.a1 ∧ top.Admits .cmacDevkey ∧ top.NoFault (callsOf .cmacDevkey top.regs)) :=
  ⟨⟨by decide, given (by decide), admits (by decide), noFault (by decide), by decide⟩, by decide, given (by decide),
    admits (by decide), noFault (by decide)⟩

theorem witness_CmacChecksInOrder : Config.nbc ≤ 4 ∧ base.regs.a2 = 0 ∧
    (3 < Config.nbc ∧ msg.regs.a2 ≠ 0 ∧ (msg.ctxAt (.bc 2)).state = .uninit) ∧
    ((msg.ctxAt (.bc 3)).state = .ready ∧ ({ msg with regs := { msg.regs with a0 := 0 } } : State).regs.a0 = 0 ∧ msg.regs.a1 ≠ 0) := by
  decide

theorem witness_TransientCommandsRejectNullPointers : base.regs.a2 = 0 ∧
    (({ msg with regs := { msg.regs with a0 := 0 } } : State).regs.a0 = 0 ∧ msg.regs.a1 ≠ 0) ∧
    ({ msg with regs := { msg.regs with a3 := 0 } } : State).regs.a3 = 0 := by decide

theorem witness_DevkeySlotTagIsTheWrappersTag : 3 < Config.nbc ∧ (({ msg with bc := base.bc } : State).ctxAt (.bc 3)).state = .uninit ∧
    msg.regs.a2 ≠ 0 ∧ Given msg.regs.a0 msg.regs.a1 ∧ ({ msg with bc := base.bc } : State).Admits .cmacDevkey ∧
    ({ msg with bc := base.bc } : State).NoFault (callsOf .cmacDevkey msg.regs) :=
  ⟨by decide, by decide, by decide, given (by decide), admits (by decide), noFault (by decide)⟩

theorem witness_KdfDeriveWritesTheDerivedBytes :
    (kdf.regs.a0 ≠ 0 ∧ Given kdf.regs.a2 kdf.regs.a3 ∧ Given kdf.regs.a4 kdf.regs.a5 ∧ 16 ≤ kdf.regs.a1.toNat ∧
      kdf.regs.a1.toNat ≤ 4096 ∧ kdf.regs.a3.toNat + kdf.regs.a5.toNat ≤ 250 ∧ kdf.Admits .kdfDerive ∧
      kdf.NoFault (callsOf .kdfDerive kdf.regs) ∧ kdf.mem.wf = true) ∧
    (({ base with regs := ⟨0xfffffff0, 16, 0x100, 250, 0, 0⟩ } : State).Admits .kdfDerive ∧
      base.NoFault (callsOf .kdfDerive ⟨0xfffffff0, 16, 0x100, 250, 0, 0⟩)) :=
  ⟨⟨by decide, given (by decide), given (by decide), by decide, by decide, by decide, admits (by decide), noFault (by decide),
    by decide⟩, admits (by decide), noFault (by decide)⟩

theorem witness_KdfCheckRejects : base.regs.a0 = 0 ∧ ((0 : Word) = 0 ∧ (1 : Word) ≠ 0) ∧ (15 : Word).toNat < 16 ∧
    4096 < (4097 : Word).toNat ∧ 256 < 1 + (251 : Word).toNat + 1 + (0 : Word).toNat + 4 := by decide

theorem xtsArgs {s : State} (h : s.regs.a0 ≠ 0 ∧ s.regs.a2 ≠ 0 ∧ s.regs.a1 ≠ 0 ∧ s.regs.a3.toNat % 16 = 0 ∧
    s.regs.a1.toNat % 16 = 0 ∧ s.regs.a3.toNat + s.regs.a1.toNat ≤ Config.space ∧
    (s.regs.a0 = s.regs.a2 ∨ s.regs.a0.toNat + s.regs.a1.toNat ≤ s.regs.a2.toNat ∨
      s.regs.a2.toNat + s.regs.a1.toNat ≤ s.regs.a0.toNat)) : s.XtsArgs := h

/-- The last block of the address space and of the span's addresses (X17), to an adjacent buffer. -/
def spanTop : State := { span with regs := ⟨0xffffffe0, 16, 0xfffffff0, 0xfffffff0, 0, 0⟩ }

theorem witness_XtsEncWritesTheCiphertext :
    (1 < Config.nxc ∧ span.XtsArgs ∧ (span.ctxAt (.xcData 1)).state = .ready ∧ (span.ctxAt (.xcTweak 1)).state = .ready ∧
      span.Admits (.xtsEnc 1) ∧ span.Admits (.meEnc 1) ∧ span.NoFault (callsOf (.xtsEnc 1) span.regs) ∧ span.mem.wf = true) ∧
    (spanTop.XtsArgs ∧ spanTop.Admits (.xtsEnc 1) ∧ spanTop.NoFault (callsOf (.xtsEnc 1) spanTop.regs)) :=
  ⟨⟨by decide, xtsArgs (by decide), by decide, by decide, admits (by decide), admits (by decide), noFault (by decide), by decide⟩,
    xtsArgs (by decide), admits (by decide), noFault (by decide)⟩

theorem witness_XtsDecWritesThePlaintext :
    (1 < Config.nxc ∧ span.XtsArgs ∧ (span.ctxAt (.xcData 1)).state = .ready ∧ (span.ctxAt (.xcTweak 1)).state = .ready ∧
      span.Admits (.xtsDec 1) ∧ span.Admits (.meDec 1) ∧ span.NoFault (callsOf (.xtsDec 1) span.regs) ∧ span.mem.wf = true) ∧
    (spanTop.XtsArgs ∧ spanTop.Admits (.xtsDec 1) ∧ spanTop.NoFault (callsOf (.xtsDec 1) spanTop.regs)) :=
  ⟨⟨by decide, xtsArgs (by decide), by decide, by decide, admits (by decide), admits (by decide), noFault (by decide), by decide⟩,
    xtsArgs (by decide), admits (by decide), noFault (by decide)⟩

theorem witness_XtsChecksInOrder : Config.nxc ≤ 2 ∧ base.regs.a0 = 0 ∧ base.regs.a1 = 0 ∧ base.regs.a2 = 0 ∧
    (1 : Word).toNat % 16 ≠ 0 ∧ (24 : Word).toNat % 16 ≠ 0 ∧
    (1 < Config.nxc ∧ span.regs.a0 ≠ 0 ∧ span.regs.a2 ≠ 0 ∧ span.regs.a1 ≠ 0 ∧ span.regs.a3.toNat % 16 = 0 ∧
      span.regs.a1.toNat % 16 = 0) ∧
    (span.ctxAt (.xcData 0)).state = .uninit ∧
    (({ span with xc := #v[.clear, ⟨loaded ka, .clear⟩] } : State).ctxAt (.xcTweak 1)).state = .uninit ∧
    ((span.ctxAt (.xcData 1)).state = .ready ∧ (span.ctxAt (.xcTweak 1)).state = .ready ∧
      2 ^ 32 < (0xfffffff0 : Word).toNat + (32 : Word).toNat ∧ (0xffffffe0 : Word).toNat + (32 : Word).toNat ≤ 2 ^ 32 ∧
      (0x4000 : Word) ≠ 0x4010 ∧ (0x4000 : Word).toNat < (0x4010 : Word).toNat + (32 : Word).toNat ∧
      (0x4010 : Word).toNat < (0x4000 : Word).toNat + (32 : Word).toNat) := by decide

theorem witness_XtsSpanSplitsAnywhere : 1 < Config.nxc ∧ span.regs.a1.toNat = (16 : Word).toNat + (16 : Word).toNat ∧
    (16 : Word) ≠ 0 ∧ (16 : Word).toNat % 16 = 0 ∧ span.XtsArgs ∧ (span.ctxAt (.xcData 1)).state = .ready ∧
    (span.ctxAt (.xcTweak 1)).state = .ready ∧ span.Admits (.xtsEnc 1) ∧ span.NoFault (callsOf (.xtsEnc 1) span.regs + 1) :=
  ⟨by decide, by decide, by decide, by decide, xtsArgs (by decide), by decide, by decide, admits (by decide), noFault (by decide)⟩

theorem witness_XtsRoundTrip : 1 < Config.nxc ∧ spanTop.XtsArgs ∧
    ({ spanTop with regs := { spanTop.regs with a0 := spanTop.regs.a2, a2 := 0x10 } } : State).XtsArgs ∧
    (spanTop.ctxAt (.xcData 1)).state = .ready ∧ (spanTop.ctxAt (.xcTweak 1)).state = .ready ∧ spanTop.Admits (.xtsEnc 1) ∧
    ({ spanTop with regs := { spanTop.regs with a0 := spanTop.regs.a2, a2 := 0x10 } } : State).Admits (.meDec 1) ∧
    spanTop.NoFault (callsOf (.xtsEnc 1) spanTop.regs + callsOf (.meDec 1) spanTop.regs) ∧ spanTop.mem.wf = true :=
  ⟨by decide, xtsArgs (by decide), xtsArgs (by decide), by decide, by decide, admits (by decide), admits (by decide),
    noFault (by decide), by decide⟩

theorem witness_DaInitLoadsTheDerivedKey : 3 < Config.nbc ∧ (base.ctxAt (.bc 3)).state = .uninit ∧
    base.NoFault (callsOf (.daInit 3) base.regs) ∧ (2 : Nat) ≠ 3 := ⟨by decide, by decide, noFault (by decide), by decide⟩

theorem witness_DaVerifyComparesTheTag : 3 < Config.nbc ∧ (top.ctxAt (.bc 3)).state = .ready ∧ top.regs.a2 ≠ 0 ∧
    Given top.regs.a0 top.regs.a1 ∧ top.Admits (.daVerify 3) ∧ top.NoFault (callsOf (.daVerify 3) top.regs) :=
  ⟨by decide, by decide, by decide, given (by decide), admits (by decide), noFault (by decide)⟩

theorem witness_DaComputeEasyWritesTheTag : top.regs.a2 ≠ 0 ∧ Given top.regs.a0 top.regs.a1 ∧ top.Admits .daComputeEasy ∧
    top.NoFault (callsOf .daComputeEasy top.regs) ∧ top.mem.wf = true :=
  ⟨by decide, given (by decide), admits (by decide), noFault (by decide), by decide⟩

theorem witness_DaVerifyEasyComparesTheTag : top.regs.a2 ≠ 0 ∧ Given top.regs.a0 top.regs.a1 ∧ top.Admits .daVerifyEasy ∧
    top.NoFault (callsOf .daVerifyEasy top.regs) := ⟨by decide, given (by decide), admits (by decide), noFault (by decide)⟩

theorem witness_MeInitLoadsTheDerivedKeys : 1 < Config.nxc ∧ Given (0x100 : Word) 250 ∧ Given (0 : Word) 0 ∧
    (250 : Word).toNat + (0 : Word).toNat ≤ 250 ∧
    ({ base with regs := ⟨0, 0, 0x100, 250, 0, 0⟩ } : State).Admits (.meInit 1) ∧ (base.ctxAt (.xcData 1)).state = .uninit ∧
    (base.ctxAt (.xcTweak 1)).state = .uninit ∧
    ({ base with primFaults := List.replicate 60 false } : State).NoFault (callsOf (.meInit 1) ⟨0, 0, 0x100, 250, 0, 0⟩) ∧ (0 : Nat) ≠ 1 :=
  ⟨by decide, given (by decide), given (by decide), by decide, admits (by decide), by decide, by decide, noFault (by decide), by decide⟩

theorem witness_DaRoundTrip :
    (3 < Config.nbc ∧ (msg.ctxAt (.bc 3)).state = .ready ∧ msg.regs.a2 ≠ 0 ∧ Given msg.regs.a0 msg.regs.a1 ∧ msg.Admits (.daCompute 3) ∧
      msg.Admits (.daVerify 3) ∧ msg.regs.a0.toNat + msg.regs.a1.toNat ≤ msg.regs.a2.toNat ∧
      msg.NoFault (callsOf (.daCompute 3) msg.regs + callsOf (.daVerify 3) msg.regs) ∧ msg.mem.wf = true) ∧
    (top.Admits (.daCompute 3) ∧ top.Admits (.daVerify 3) ∧ top.regs.a1 = 0) :=
  ⟨⟨by decide, by decide, by decide, given (by decide), admits (by decide), admits (by decide), by decide, noFault (by decide),
    by decide⟩, admits (by decide), admits (by decide), by decide⟩

theorem witness_EasyTagIsTheSlotsTag : 2 < Config.nbc ∧ msg.ctxAt (.bc 2) = .clear ∧ msg.regs.a2 ≠ 0 ∧ Given msg.regs.a0 msg.regs.a1 ∧
    msg.Admits .daComputeEasy ∧ msg.NoFault (callsOf .daComputeEasy msg.regs) :=
  ⟨by decide, by decide, by decide, given (by decide), admits (by decide), noFault (by decide)⟩

theorem witness_EveryCommandAnswersOutsideTheOpenCases :
    (base.Admits (.meInit 1) ∧ ∀ l ∈ initTargets (.meInit 1), (base.ctxAt l).state = .uninit) ∧
    (spanTop.Admits (.xtsDec 1) ∧ isXts (.xtsDec 1) = true ∧ spanTop.XtsDefined) :=
  ⟨⟨admits (by decide), by decide⟩, admits (by decide), by decide,
    (xtsArgs (s := spanTop) (by decide)).2.2.2.2.2⟩

/-- `msg` with the tag's last byte at `2^32`. -/
def pastTop : State := { msg with regs := { msg.regs with a2 := 0xfffffff1 } }

theorem witness_StopsAreTheOpenCases :
    exec (.cmac 3) pastTop = .refused .accessPastTop ∧
    exec (.cmac 3) { msg with denied := [⟨0x3000, 16, .write⟩] } = .refused .accessNotAdmitted ∧
    exec (.bcInitDevkey 3) msg = .refused .contextAlreadyReady ∧
    exec (.xtsEnc 1) { span with regs := { span.regs with a3 := 0xfffffff0 } } = .refused .spanPastTop ∧
    exec (.xtsEnc 1) { span with regs := { span.regs with a2 := 0x401f } } = .refused .partialOverlap ∧
    (pastTop.Passes (.cmac 3) ∧ ∃ q ∈ operandRanges (.cmac 3) pastTop.regs, q.2 ≠ 0 ∧ 2 ^ 32 < q.1 + q.2) :=
  ⟨rfl, rfl, rfl, rfl, rfl, ⟨by decide, by decide, by decide, given (by decide)⟩, by decide⟩

theorem witness_CommandsEndWithTheirCodes : (∃ t, exec (.bcCleanup 3) msg = .next t) ∧
    decode 0x00000013 = .error .unassignedOp ∧ ∃ t, launchWord 0x00000013 msg = .next t := ⟨⟨_, rfl⟩, rfl, _, rfl⟩

theorem witness_StatusHoldsACode : (∃ t, launchWord 0x00000303 msg = .next t) ∧
    ((∀ w, HostAccess.writeReg .status 7 ≠ .writeReg .cmd w ∧ HostAccess.writeReg .status 7 ≠ .cmdReset w) ∧
      HostAccess.writeReg .status 7 ≠ .reset ∧ ∃ t, hostAccess (.writeReg .status 7) msg = .next t) :=
  ⟨⟨_, rfl⟩, fun _ => ⟨nofun, nofun⟩, nofun, _, rfl⟩

theorem witness_ResultIsWrittenByIsInitOnly : (∃ t, exec (.bcIsInit 3) msg = .next t) ∧ (∃ t, exec (.bcIsInit 4) msg = .next t) ∧
    (∃ t, exec (.xtsIsInit 1) span = .next t) ∧
    ((∀ i, decode 0x00000303 = .ok i → isIsInit i = false) ∧ ∃ t, launchWord 0x00000303 msg = .next t) ∧
    (∀ w, HostAccess.readMem 0 ≠ .writeReg .cmd w ∧ HostAccess.readMem 0 ≠ .cmdReset w) ∧ HostAccess.readMem 0 ≠ .reset ∧
    ∃ t, hostAccess (.readMem 0) msg = .next t :=
  ⟨⟨_, rfl⟩, ⟨_, rfl⟩, ⟨_, rfl⟩, ⟨fun i h => by cases h; rfl, _, rfl⟩, fun _ => ⟨nofun, nofun⟩, nofun, _, rfl⟩

theorem witness_CommandsKeepOperandsAndDevkey : ∃ t, exec (.cmac 3) { msg with primFaults := [false, true] } = .next t := ⟨_, rfl⟩

theorem witness_RejectedCommandChangesStatusAlone :
    (∃ t, exec (.cmac 4) msg = .next t ∧ t.status = Status.invalidArgs.word) ∧
    (∃ t, exec (.cmac 2) msg = .next t ∧ t.status = Status.ctxNotInitialized.word) ∧ isIsInit (.cmac 2) = false ∧
    (∃ t, exec (.bcIsInit 4) msg = .next t ∧ t.status = Status.invalidArgs.word) ∧ isIsInit (.bcIsInit 4) = true :=
  ⟨⟨_, rfl, rfl⟩, ⟨_, rfl, rfl⟩, rfl, ⟨_, rfl, rfl⟩, rfl⟩

theorem witness_VerifyCommandsWriteStatusAlone : (∃ t, exec (.daVerify 3) { msg with primFaults := [false, true] } = .next t) ∧
    ∃ t, exec .daVerifyEasy { msg with primFaults := [true] } = .next t := ⟨⟨_, rfl⟩, _, rfl⟩

theorem witness_FailureLeavesTheRest :
    (∃ t, exec (.cmac 3) { msg with primFaults := [false, true] } = .next t ∧ t.status = Status.failure.word) ∧
    outRange (.cmac 3) msg.regs = some (0x3000, 16) ∧ (0x2fff < 0x3000 ∨ 0x3000 + 16 ≤ 0x2fff) ∧
    (∃ t, exec (.bcInitKey 3) { base with regs := { base.regs with a0 := 1 }, primFaults := [true] } = .next t ∧
      t.status = Status.failure.word) ∧ CtxLoc.bc 3 ∈ initTargets (.bcInitKey 3) ∧ CtxLoc.bc 2 ∉ initTargets (.bcInitKey 3) :=
  ⟨⟨_, rfl, rfl⟩, rfl, by decide, ⟨_, rfl, rfl⟩, by decide, by decide⟩

theorem quiet_base : base.hidden.Quiet := ⟨rfl, rfl, rfl, rfl, rfl, rfl, rfl⟩

theorem witness_KeyBuffersAreWipedOnEveryExit : msg.hidden.Quiet ∧
    ∃ t, exec .cmacKey { msg with primFaults := [false, false, true] } = .next t := ⟨quiet_base, _, rfl⟩

theorem inv_msg : msg.Inv := by
  refine ⟨by decide, quiet_base, ?_, ?_, by decide, by decide⟩
  · intro c hc
    have : c = .clear ∨ c = ⟨.ready, .device, 0⟩ ∨ c = loaded ka := by
      revert c; decide
    rcases this with rfl | rfl | rfl
    exacts [Or.inl rfl, Or.inr ⟨rfl, Or.inr rfl⟩, Or.inr ⟨rfl, Or.inl rfl⟩]
  · intro c hc
    have : c = .clear := by revert c; decide
    subst this
    exact ⟨Or.inl rfl, Or.inl rfl, rfl⟩

theorem witness_XtsInnerContextsAgree : (∀ j, (base.ctxAt (.xcData j)).state = (base.ctxAt (.xcTweak j)).state) ∧
    ∃ t, step { base with bus := [.writeReg .cmd 0x00000106] } = .next t := by
  refine ⟨fun j => ?_, _, rfl⟩
  match j with
  | 0 => rfl
  | 1 => rfl
  | n + 2 => rfl

theorem witness_StepKeepsTheInvariant : State.Inv { msg with bus := [.writeReg .cmd 0x00000303] } ∧
    ∃ t, step { msg with bus := [.writeReg .cmd 0x00000303] } = .next t := ⟨inv_msg, _, rfl⟩

theorem witness_UnnamedRegistersAreNotRead :
    ∀ r ∈ operandRegs (.cmac 3), OperandRegs.get { msg.regs with a3 := 9, a4 := 9, a5 := 9 } r = msg.regs.get r := by decide

theorem witness_DevkeyIsUsedThroughKeyofOnly : (msg.ctxAt (.bc 3)).ksel = .loaded ∧
    (span.ctxAt (.xcData 1)).ksel = .loaded ∧ (span.ctxAt (.xcTweak 1)).ksel = .loaded := by decide

theorem witness_ResetDuringACommandEndsIt : decode 0x00000310 = .ok (.cmac 3) ∧
    (∃ t, exec (.cmac 3) { msg with primFaults := [false, true] } = .next t) ∧
    outRange (.cmac 3) msg.regs = some (0x3000, 16) ∧ (0x3010 < 0x3000 ∨ 0x3000 + 16 ≤ 0x3010) := ⟨rfl, ⟨_, rfl⟩, rfl, by decide⟩

theorem notAdmitsAll {s : State} {l : List Access} (a : Access) (hl : a ∈ l) (hn : a.len ≠ 0) (hd : a ∈ s.denied) : ¬ s.AdmitsAll l :=
  fun h => (h a hl).elim hn fun h => h hd

/-- `msg` with the write of the tag denied, and `span` with the write of its second block denied. -/
def deniedTag : State := { msg with denied := [⟨0x3000, 16, .write⟩] }
def deniedBlock : State := { span with denied := [⟨0x4010, 16, .write⟩] }

/-- The three ways a row can come out; the first and the last call of CMAC (95 C13) and of XTS_ENC; a denied tag and a denied
block. -/
theorem witness_AccessesAndCallsComeInOrder :
    (msg.Passes (.cmac 3) ∧ msg.InSpace (.cmac 3) ∧ callsOf (.cmac 3) msg.regs = 2 ∧ msg.AdmitsAll (accessesOf (.cmac 3) msg.regs) ∧
      verdict [] (eventsOf (.cmac 3) msg.regs) [false, false] 0 = .ended [] 2 ∧
      verdict [] (eventsOf (.cmac 3) msg.regs) [true, false] 0 = .failed [false] 1 ∧
      verdict [] (eventsOf (.cmac 3) msg.regs) [false, true] 0 = .failed [] 2 ∧
      verdict deniedTag.denied (eventsOf (.cmac 3) msg.regs) [false, false] 0 = .refused) ∧
    (deniedTag.Passes (.cmac 3) ∧ deniedTag.InSpace (.cmac 3) ∧ deniedTag.NoFault (callsOf (.cmac 3) deniedTag.regs) ∧
      ¬ deniedTag.AdmitsAll (accessesOf (.cmac 3) deniedTag.regs)) ∧
    (span.Passes (.xtsEnc 1) ∧ span.InSpace (.xtsEnc 1) ∧ callsOf (.xtsEnc 1) span.regs = 4 ∧
      span.AdmitsAll (accessesOf (.xtsEnc 1) span.regs) ∧
      verdict [] (eventsOf (.xtsEnc 1) span.regs) [false, false, false, true] 0 = .failed [] 4) ∧
    (deniedBlock.Passes (.xtsEnc 1) ∧ deniedBlock.InSpace (.xtsEnc 1) ∧ deniedBlock.NoFault (callsOf (.xtsEnc 1) deniedBlock.regs) ∧
      ¬ deniedBlock.AdmitsAll (accessesOf (.xtsEnc 1) deniedBlock.regs)) ∧
    top.Passes .cmacKey ∧ top.InSpace .cmacKey :=
  ⟨⟨⟨by decide, by decide, by decide, given (by decide)⟩, topGate_eq_go.mp (by decide), rfl, admitsAll (by decide), rfl, rfl, rfl, by decide⟩,
    ⟨⟨by decide, by decide, by decide, given (by decide)⟩, topGate_eq_go.mp (by decide), noFault (by decide),
      notAdmitsAll ⟨0x3000, 16, .write⟩ (by decide) (by decide) (by decide)⟩,
    ⟨⟨by decide, xtsArgs (by decide), by decide, by decide⟩, topGate_eq_go.mp (by decide), by decide, admitsAll (by decide), by decide⟩,
    ⟨⟨by decide, xtsArgs (by decide), by decide, by decide⟩, topGate_eq_go.mp (by decide), noFault (by decide),
      notAdmitsAll ⟨0x4010, 16, .write⟩ (by decide) (by decide) (by decide)⟩,
    ⟨by decide, by decide, given (by decide)⟩, topGate_eq_go.mp (by decide)⟩

end Sys2Proof.Tests
end

section
/-! SUPPORT. An XTS command that meets no failure, as one equation, and the round trip of encryption and decryption. -/

namespace Sys2Proof.Machine

open Spec

/-! ## Byte strings cut into blocks -/

/-- The `i`-th sixteen bytes of a long enough string are the bytes of its `i`-th block. -/
theorem bytesOfBlock_blockAt {m : List Byte} {i : Nat} (h : 16 * i + 16 ≤ m.length) :
    bytesOfBlock (blockAt m i) = (m.drop (16 * i)).take 16 :=
  bytesOfBlock_blockOfBytes (by simp; omega)

/-- A byte of a string of whole blocks, read off its block. -/
theorem getElem_eq_getElem_blockAt {m : List Byte} (h : m.length % 16 = 0) (k : Nat) (hk : k < m.length) :
    m[k] = (bytesOfBlock (blockAt m (k / 16)))[k % 16]'(by simp; omega) := by
  have hb : bytesOfBlock (blockAt m (k / 16)) = (m.drop (16 * (k / 16))).take 16 := bytesOfBlock_blockAt (by omega)
  have hk' : 16 * (k / 16) + k % 16 = k := Nat.div_add_mod k 16
  simp only [hb, List.getElem_take, List.getElem_drop, hk']

/-- Strings of whole blocks are equal when their blocks are. -/
theorem ext_blockAt {m m' : List Byte} (hl : m.length = m'.length) (h : m.length % 16 = 0)
    (hb : ∀ i, i < m.length / 16 → blockAt m i = blockAt m' i) : m = m' := by
  apply List.ext_getElem hl
  intro k hk hk'
  simp only [getElem_eq_getElem_blockAt h k hk, getElem_eq_getElem_blockAt (hl ▸ h) k hk', hb (k / 16) (by omega)]

/-- The blocks of a string put together from blocks. -/
theorem blockAt_flatMap_bytes (g : Nat → Block) {n i : Nat} (hi : i < n) :
    blockAt ((List.range n).flatMap fun k => bytesOfBlock (g k)) i = g i := by
  have hlen := length_flatMap_bytes
  induction n with
  | zero => omega
  | succ n ih =>
    rw [List.range_succ, List.flatMap_append, List.flatMap_singleton]
    rcases Nat.lt_succ_iff_lt_or_eq.mp hi with hlt | rfl
    · rw [← ih hlt]
      unfold blockAt
      rw [List.drop_append_of_le_length (by rw [hlen]; omega),
        List.take_append_of_le_length (by rw [List.length_drop, hlen]; omega)]
    · unfold blockAt
      rw [List.drop_left' (hlen i g), List.take_of_length_le (by simp), blockOfBytes_bytesOfBlock]

/-! ## The round trip of the bytes -/

/-- Each output block of an XTS run depends on the input block at its place alone (43_xts.md R185). -/
theorem blockAt_xtsBytes (F E2 : Block → Block) (address : Nat) (input : List Byte) {i : Nat} (hi : i < input.length / 16) :
    blockAt (xtsBytes F E2 address input) i =
      F (blockAt input i ^^^ tweak E2 (address + 16 * i)) ^^^ tweak E2 (address + 16 * i) :=
  blockAt_flatMap_bytes _ hi

/-- A run with the inverse block function at the same address undoes a run (43_xts.md R189). -/
theorem xtsBytes_xtsBytes {F G : Block → Block} (hGF : ∀ x, G (F x) = x) (E2 : Block → Block) (address : Nat)
    {input : List Byte} (h : input.length % 16 = 0) :
    xtsBytes G E2 address (xtsBytes F E2 address input) = input := by
  have hF : (xtsBytes F E2 address input).length = input.length := length_xtsBytes F E2 address input h
  have hG : (xtsBytes G E2 address (xtsBytes F E2 address input)).length = input.length := by
    rw [length_xtsBytes _ _ _ _ (hF ▸ h), hF]
  refine ext_blockAt hG (hG ▸ h) fun i hi => ?_
  rw [hG] at hi
  rw [blockAt_xtsBytes _ _ _ _ (hF ▸ hi), blockAt_xtsBytes _ _ _ _ hi, BitVec.xor_assoc _ (tweak _ _) (tweak _ _),
    BitVec.xor_self, BitVec.xor_zero, hGF, BitVec.xor_assoc, BitVec.xor_self, BitVec.xor_zero]

/-- `D` inverts `E` (00_scope.md R7). -/
theorem dec_enc (k x : Block) : Config.params.dec k (Config.params.enc k x) = x := (Config.cipher k).symm_apply_apply x

/-! ## An XTS command that meets no failure -/

/-- The instruction is an XTS command of the direction on slot `j`: the engine's or the facade's, which is the same command
under another operation code (45_mem_encrypt.md R222, R223). -/
def Direction.IsCommand (d : Direction) (j : Nat) (i : Instr) : Prop :=
  match d with
  | .enc => i = .xtsEnc j ∨ i = .meEnc j
  | .dec => i = .xtsDec j ∨ i = .meDec j

/-- The bytes that a command of the direction writes (43_xts.md R185, R187, R188). -/
def State.xtsOutput (s : State) (d : Direction) (j : Nat) : List Byte :=
  xtsBytes (d.fn Config.params (s.keyOf (s.ctxAt (.xcData j)))) (s.encUnder (.xcTweak j)) s.regs.a3.toNat
    (s.mem.read s.regs.a0.toNat s.regs.a1.toNat)

/-- The state that such a command leaves: its output written, its primitive calls made, `T` wiped, `STATUS` OK. -/
def State.afterXts (s : State) (d : Direction) (j : Nat) (i : Instr) : State :=
  (s.xtsMoved (callsOf i s.regs) (s.mem.write s.regs.a2.toNat (s.xtsOutput d j)) 0).exit .ok

section
variable {d : Direction} {j : Nat} {i : Instr} (hi : d.IsCommand j i)
include hi

theorem Direction.IsCommand.exec_eq (s : State) :
    exec i s = run i (xtsGate j s) (xtsWork Config.params j d s.regs) s := by
  cases d <;> rcases hi with rfl | rfl <;> rfl

theorem Direction.IsCommand.accessesOf_eq (r : OperandRegs) : accessesOf i r = xtsAccesses r.a0 r.a2 r.a1.toNat := by
  cases d <;> rcases hi with rfl | rfl <;> rfl

theorem Direction.IsCommand.callsOf_eq (r : OperandRegs) :
    callsOf i r = unitsTouched r.a3.toNat r.a1.toNat + r.a1.toNat / 16 := by
  cases d <;> rcases hi with rfl | rfl <;> rfl

theorem Direction.IsCommand.outRange_eq (r : OperandRegs) : outRange i r = some (r.a2.toNat, r.a1.toNat) := by
  cases d <;> rcases hi with rfl | rfl <;> rfl

/-- The output range of an XTS command that passes its checks ends inside the address space. -/
theorem Direction.IsCommand.out_le {s : State} (ha : s.XtsArgs) (hs : s.InSpace i) :
    s.regs.a2.toNat + s.regs.a1.toNat ≤ Config.space := by
  obtain ⟨-, -, hlen, -⟩ := ha
  exact (hs.out (hi.outRange_eq s.regs)).resolve_left fun h => hlen (BitVec.eq_of_toNat_eq h)

/-- The one next state of an XTS command whose checks pass, whose accesses are admitted and whose calls do not fail. -/
theorem Direction.IsCommand.exec_ok {s : State} (hg : xtsGate j s = .go) (ha : s.Admits i)
    (hf : s.NoFault (callsOf i s.regs)) :
    exec i s = .next (s.afterXts d j i) := by
  obtain ⟨-, ⟨-, -, hlen, hadr, hsize, -, hsep⟩, hdata, htweak⟩ := xtsGate_go.mp hg
  obtain ⟨hs, hall⟩ := ha
  rw [hi.accessesOf_eq] at hall
  rw [hi.callsOf_eq] at hf
  rw [State.afterXts, hi.callsOf_eq, hi.exec_eq, run_go hg hs,
    xtsWork_ok Config.params j d s.regs hadr (fun h => hlen (BitVec.eq_of_toNat_eq h)) hsize
      (hsep.imp_left (congrArg BitVec.toNat)) htweak hdata hall hf, finish_ok]
  rfl

end

@[simp] theorem State.afterXts_status (s : State) (d : Direction) (j : Nat) (i : Instr) :
    (s.afterXts d j i).status = Status.ok.word := rfl
@[simp] theorem State.afterXts_mem (s : State) (d : Direction) (j : Nat) (i : Instr) :
    (s.afterXts d j i).mem = s.mem.write s.regs.a2.toNat (s.xtsOutput d j) := rfl
@[simp] theorem State.afterXts_primFaults (s : State) (d : Direction) (j : Nat) (i : Instr) :
    (s.afterXts d j i).primFaults = s.primFaults.drop (callsOf i s.regs) := rfl
@[simp] theorem State.afterXts_ctxAt (s : State) (d : Direction) (j : Nat) (i : Instr) (l : CtxLoc) :
    (s.afterXts d j i).ctxAt l = s.ctxAt l := by simp [afterXts]

/-- A command writes as many bytes as it reads (43_xts.md R180). -/
theorem State.length_xtsOutput {s : State} (ha : s.XtsArgs) (d : Direction) (j : Nat) :
    (s.xtsOutput d j).length = s.regs.a1.toNat := by
  obtain ⟨-, -, -, -, hsize, -⟩ := ha
  rw [xtsOutput, length_xtsBytes _ _ _ _ (by rwa [Memory.length_read]), Memory.length_read]

/-- The memory that a command leaves is canonical. -/
theorem State.afterXts_wf {s : State} (hm : s.mem.wf = true) (ha : s.XtsArgs)
    (ho : s.regs.a2.toNat + s.regs.a1.toNat ≤ Config.space) (d : Direction) (j : Nat) (i : Instr) :
    (s.afterXts d j i).mem.wf = true :=
  Memory.write_wf hm _ _ (by rwa [length_xtsOutput ha])

/-- The output range reads as the output after the command. -/
theorem State.afterXts_read {s : State} (hm : s.mem.wf = true) (ha : s.XtsArgs)
    (ho : s.regs.a2.toNat + s.regs.a1.toNat ≤ Config.space) (d : Direction) (j : Nat) (i : Instr) :
    (s.afterXts d j i).mem.read s.regs.a2.toNat s.regs.a1.toNat = s.xtsOutput d j := by
  have h := Memory.read_write_self hm s.regs.a2.toNat (s.xtsOutput d j) (by rwa [length_xtsOutput ha])
  rwa [length_xtsOutput ha] at h

/-- Decrypting an output of encryption at its address, under the same contexts and device key, gives the input back. -/
theorem State.xtsOutput_dec_of_enc {s t : State} {j : Nat} (ha : s.XtsArgs) (hctx : ∀ l, t.ctxAt l = s.ctxAt l)
    (hdev : t.devKey = s.devKey) (hadr : t.regs.a3 = s.regs.a3)
    (hin : t.mem.read t.regs.a0.toNat t.regs.a1.toNat = s.xtsOutput .enc j) :
    t.xtsOutput .dec j = s.mem.read s.regs.a0.toNat s.regs.a1.toNat := by
  obtain ⟨-, -, -, -, hsize, -⟩ := ha
  simp only [xtsOutput, encUnder, hin, hadr, hctx, keyOf_congr hdev]
  exact xtsBytes_xtsBytes (dec_enc _) _ _ (by rwa [Memory.length_read])

/-- Settles O35: the encryption leaves its output at `A2`, the decryption reads it there under the same contexts and writes
its own output at `dst`, and the second output is the first one's input. -/
theorem xtsRoundTrip : Obligations.XtsRoundTrip := by
  intro j e d s dst he hd hj hargs hargs' hdata htweak hadm hadm' hf hm
  replace he : Direction.enc.IsCommand j e := he
  replace hd : Direction.dec.IsCommand j d := hd
  have hout := he.out_le hargs hadm.1
  have henc := he.exec_ok (xtsGate_go.mpr ⟨hj, hargs, hdata, htweak⟩) hadm (hf.of_le (Nat.le_add_right _ _))
  set t : State := { s.afterXts .enc j e with regs := { s.regs with a0 := s.regs.a2, a2 := dst } }
  have hctx (l : CtxLoc) : t.ctxAt l = s.ctxAt l := s.afterXts_ctxAt .enc j e l
  have hcalls : callsOf d t.regs = callsOf d s.regs := by rw [hd.callsOf_eq, hd.callsOf_eq]
  have hdec := hd.exec_ok (s := t) (xtsGate_go.mpr ⟨hj, hargs', hctx _ ▸ hdata, hctx _ ▸ htweak⟩) hadm'
    (hf.tail (s.afterXts_primFaults .enc j e) (by rw [hcalls]))
  refine ⟨_, _, henc, hdec, t.afterXts_status .dec j d, ?_⟩
  calc (t.afterXts .dec j d).mem.read dst.toNat s.regs.a1.toNat
    _ = t.xtsOutput .dec j :=
        State.afterXts_read (s := t) (State.afterXts_wf hm hargs hout .enc j e) hargs' (hd.out_le hargs' hadm'.1) .dec j d
    _ = s.mem.read s.regs.a0.toNat s.regs.a1.toNat :=
        State.xtsOutput_dec_of_enc hargs hctx rfl rfl (State.afterXts_read hm hargs hout .enc j e)

end Sys2Proof.Machine
end

section
/-! SUPPORT. What every command leaves, read off `exec_runs`, and what every host access leaves: the reset values, the frame
rules of 10_state.md and the invariant between commands. -/

namespace Sys2Proof.Machine

variable {i : Instr} {s t u : State} {c : Status} {o : Option (Nat × Nat)}

/-! ## The context places and the slots -/

/-- A vector's entries and its lookups by index, absent ones at a default, meet the same predicates that the default meets. -/
theorem forall_mem_vector_iff {α : Type} {n : Nat} (v : Vector α n) {d : α} {p : α → Prop} (hd : p d) :
    (∀ x ∈ v.toList, p x) ↔ ∀ k : Nat, p ((v[k]?).getD d) := by
  constructor
  · intro h k
    by_cases hk : k < n
    · rw [Vector.getElem?_eq_getElem hk, Option.getD_some]
      exact h _ (by simp)
    · rw [Vector.getElem?_eq_none (Nat.le_of_not_lt hk), Option.getD_none]
      exact hd
  · intro h x hx
    obtain ⟨k, hk, rfl⟩ := Vector.mem_iff_getElem.mp (Vector.mem_toList_iff.mp hx)
    simpa [hk] using h k

theorem State.forall_bc_legal_iff (s : State) : (∀ c ∈ s.bc.toList, c.Legal) ↔ ∀ k, (s.ctxAt (.bc k)).Legal :=
  forall_mem_vector_iff s.bc BlockCtx.legal_clear

theorem State.forall_xc_legal_iff (s : State) :
    (∀ c ∈ s.xc.toList, c.data.Legal ∧ c.tweak.Legal ∧ c.data.state = c.tweak.state) ↔
      (∀ k, (s.ctxAt (.xcData k)).Legal ∧ (s.ctxAt (.xcTweak k)).Legal) ∧
      ∀ k, (s.ctxAt (.xcData k)).state = (s.ctxAt (.xcTweak k)).state := by
  rw [← forall_and]
  refine (forall_mem_vector_iff s.xc (d := .clear) (p := fun c => c.data.Legal ∧ c.tweak.Legal ∧ c.data.state = c.tweak.state)
    ⟨BlockCtx.legal_clear, BlockCtx.legal_clear, rfl⟩).trans (forall_congr' fun k => ?_)
  exact and_assoc.symm

/-- The invariant, its slots read through the context places (10_state.md R26, R28). -/
theorem State.inv_iff (s : State) : s.Inv ↔ s.mem.wf = true ∧ s.hidden.Quiet ∧ (∀ k, (s.ctxAt (.bc k)).Legal) ∧
    ((∀ k, (s.ctxAt (.xcData k)).Legal ∧ (s.ctxAt (.xcTweak k)).Legal) ∧
      ∀ k, (s.ctxAt (.xcData k)).state = (s.ctxAt (.xcTweak k)).state) ∧
    s.status.toNat ≤ 4 ∧ s.result.toNat ≤ 1 := by
  rw [State.Inv, State.forall_bc_legal_iff, State.forall_xc_legal_iff]

/-! ## Reset -/

theorem Hidden.quiet_clear : Hidden.clear.Quiet := ⟨rfl, rfl, rfl, rfl, rfl, rfl, rfl⟩

/-- Where all slots and the hidden state are cleared, every place holds a cleaned context (10_state.md R35). -/
theorem State.ctxAt_of_clear (hb : s.bc = Vector.replicate Config.nbc .clear) (hx : s.xc = Vector.replicate Config.nxc .clear)
    (hh : s.hidden = .clear) (l : CtxLoc) : s.ctxAt l = .clear := by
  cases l with
  | bc k => by_cases hk : k < Config.nbc <;> simp [State.ctxAt, hb, hk]
  | xcData k => by_cases hk : k < Config.nxc <;> simp [State.ctxAt, hx, hk, XtsCtx.clear]
  | xcTweak k => by_cases hk : k < Config.nxc <;> simp [State.ctxAt, hx, hk, XtsCtx.clear]
  | tbc0 => rw [State.ctxAt, hh]; rfl
  | tbc1 => rw [State.ctxAt, hh]; rfl

theorem State.ctxAt_reset (l : CtxLoc) : State.reset.ctxAt l = .clear := State.ctxAt_of_clear rfl rfl rfl l

@[simp] theorem State.ctxAt_resetEvent (s : State) (l : CtxLoc) : s.resetEvent.ctxAt l = .clear :=
  State.ctxAt_of_clear rfl rfl rfl l

/-- A state with its slots and hidden state cleared meets the invariant when its memory and its two result registers do. -/
theorem State.inv_of_clear (hc : ∀ l, s.ctxAt l = .clear) (hh : s.hidden = .clear) (hm : s.mem.wf = true)
    (hst : s.status = 0) (hr : s.result = 0) : s.Inv := by
  rw [State.inv_iff, hh, hst, hr]
  simp only [hc]
  exact ⟨hm, Hidden.quiet_clear, fun _ => BlockCtx.legal_clear,
    ⟨fun _ => ⟨BlockCtx.legal_clear, BlockCtx.legal_clear⟩, fun _ => trivial⟩, by decide, by decide⟩

theorem State.resetEvent_inv (hm : s.mem.wf = true) : s.resetEvent.Inv :=
  State.inv_of_clear s.ctxAt_resetEvent rfl hm rfl rfl

/-- Settles O5: every place of the reset state is a cleaned one. -/
theorem resetLeavesEveryContextCleaned : Obligations.ResetLeavesEveryContextCleaned :=
  ⟨fun _ _ => State.ctxAt_reset _, fun _ _ => ⟨State.ctxAt_reset _, State.ctxAt_reset _⟩, Hidden.quiet_clear, rfl, rfl, rfl, rfl⟩

/-- Settles O6: the reset event clears all slots and the hidden state and touches neither `DEVKEY` nor memory. -/
theorem resetEventCleansAndKeeps : Obligations.ResetEventCleansAndKeeps := fun s =>
  ⟨s.resetEvent, rfl, s.ctxAt_resetEvent, Hidden.quiet_clear, rfl, rfl, rfl, rfl, rfl⟩

/-- Settles O54: the empty memory is canonical, and all else is cleared or zero. -/
theorem invariantHoldsAtReset : Obligations.InvariantHoldsAtReset :=
  State.inv_of_clear State.ctxAt_reset rfl rfl rfl rfl

/-! ## The end of a command -/

/-- The draws after FAILURE keep every context place. -/
theorem State.ctxAt_scribble (s : State) (o : Option (Nat × Nat)) (l : CtxLoc) : (s.scribble o).ctxAt l = s.ctxAt l :=
  State.ctxAt_congr (s.scribble_bc o) (s.scribble_xc o) (by rw [s.scribble_hidden]) (by rw [s.scribble_hidden]) l

@[simp] theorem ended_regs : (ended o c s).regs = s.regs := by unfold ended; split_ifs <;> simp
@[simp] theorem ended_status : (ended o c s).status = c.word := by unfold ended; split_ifs <;> rfl
@[simp] theorem ended_result : (ended o c s).result = s.result := by unfold ended; split_ifs <;> simp
@[simp] theorem ended_devKey : (ended o c s).devKey = s.devKey := by unfold ended; split_ifs <;> simp
@[simp] theorem ended_hidden : (ended o c s).hidden = s.hidden := by unfold ended; split_ifs <;> simp
@[simp] theorem ended_bus : (ended o c s).bus = s.bus := by unfold ended; split_ifs <;> simp
@[simp] theorem ended_busData : (ended o c s).busData = s.busData := by unfold ended; split_ifs <;> simp
@[simp] theorem ended_denied : (ended o c s).denied = s.denied := by unfold ended; split_ifs <;> simp
@[simp] theorem ctxAt_ended (l : CtxLoc) : (ended o c s).ctxAt l = s.ctxAt l := by
  unfold ended; split_ifs <;> simp [State.ctxAt_scribble]

theorem ended_wf (hm : s.mem.wf = true) (ho : ∀ a n, o = some (a, n) → n = 0 ∨ a + n ≤ Config.space) :
    (ended o c s).mem.wf = true := by
  unfold ended
  split_ifs
  · exact s.scribble_wf o hm ho
  · exact hm

/-- Every way a command can answer a next state: rejected, with STATUS alone written, or its work done and ended
(60_exceptions.md R246, R247). -/
theorem exec_next_cases (h : exec i s = .next t) :
    (∃ c, (c = .invalidArgs ∨ c = .ctxNotInitialized) ∧ t = s.exit c) ∨
      (s.InSpace i ∧ ∃ u c, Effect i s u c ∧ t = ended (outRange i s.regs) c u) := by
  rcases exec_runs h with ⟨c, hc, -, -, rfl⟩ | ⟨hs, u, c, he, rfl⟩
  · exact Or.inl ⟨c, hc, rfl⟩
  · refine Or.inr ⟨hs, u, c, he, ?_⟩
    unfold ended
    split_ifs <;> rfl

theorem exec_status (h : exec i s = .next t) : ∃ c : Status, t.status = c.word := by
  rcases exec_next_cases h with ⟨c, -, rfl⟩ | ⟨-, u, c, -, rfl⟩
  · exact ⟨c, rfl⟩
  · exact ⟨c, ended_status⟩

/-- Only the two `*_IS_INIT` commands write RESULT (10_state.md R24). -/
theorem exec_result (hi : isIsInit i = false) (h : exec i s = .next t) : t.result = s.result := by
  rcases exec_next_cases h with ⟨c, -, rfl⟩ | ⟨-, u, c, he, rfl⟩
  · rfl
  · exact ended_result.trans (he.result hi)

/-- Settles O48: a rejected command writes STATUS alone, a work keeps what is outside, and so does its end. -/
theorem commandsKeepOperandsAndDevkey : Obligations.CommandsKeepOperandsAndDevkey := by
  intro i s t h
  rcases exec_next_cases h with ⟨c, -, rfl⟩ | ⟨-, u, c, he, rfl⟩
  · exact ⟨rfl, rfl, rfl, rfl, rfl⟩
  · simpa [SameOutside] using he.outside

/-- Settles O52: a rejected command leaves the hidden state, a work wipes what it used, and its end adds nothing. -/
theorem keyBuffersAreWipedOnEveryExit : Obligations.KeyBuffersAreWipedOnEveryExit := by
  intro i s t hq h
  rcases exec_next_cases h with ⟨c, -, rfl⟩ | ⟨-, u, c, he, rfl⟩
  · exact hq
  · rw [ended_hidden]
    exact he.quiet hq

/-! ## Commands keep the invariant -/

theorem State.Inv.exit (h : s.Inv) (c : Status) : (s.exit c).Inv := by
  obtain ⟨hm, hq, hb, hx, -, hr⟩ := h
  exact ⟨hm, hq, hb, hx, c.word_le, hr⟩

/-- A work that has a command's effect leaves a state whose end meets the invariant. -/
theorem Effect.ended_inv (h : Effect i s u c) (hs : s.InSpace i) (hi : s.Inv) : (ended (outRange i s.regs) c u).Inv := by
  obtain ⟨hm, hq, hb, ⟨hx, hagree⟩, -, hr⟩ := s.inv_iff.mp hi
  rw [State.inv_iff]
  simp only [ctxAt_ended, ended_hidden, ended_status, ended_result]
  exact ⟨ended_wf (h.mem.wf hm) fun _ _ => hs.out, h.quiet hq, h.legalBc hb, ⟨h.legalXc hx, h.agree hagree⟩, c.word_le, h.bit hr⟩

theorem exec_inv (h : exec i s = .next t) (hs : s.Inv) : t.Inv := by
  rcases exec_next_cases h with ⟨c, -, rfl⟩ | ⟨hin, u, c, he, rfl⟩
  · exact hs.exit c
  · exact he.ended_inv hin hs

/-! ## The host's accesses -/

/-- Every way a launched word can answer a next state: an illegal word, or its command (30_encoding.md R85, R86). -/
theorem launchWord_next {w : Word} (h : launchWord w s = .next t) :
    (t = s.exit .invalidArgs ∧ ∃ e, decode w = .error e) ∨ ∃ i, decode w = .ok i ∧ exec i s = .next t := by
  unfold launchWord at h
  cases hw : decode w with
  | ok i => rw [hw] at h; exact Or.inr ⟨i, rfl, h⟩
  | error e => rw [hw] at h; cases h; exact Or.inl ⟨rfl, e, rfl⟩

theorem launchWord_inv {w : Word} (h : launchWord w s = .next t) (hs : s.Inv) : t.Inv := by
  rcases launchWord_next h with ⟨rfl, -⟩ | ⟨i, -, he⟩
  · exact hs.exit _
  · exact exec_inv he hs

/-- Every way a reset during a command can answer a next state (70_reset_and_hazards.md R271). -/
theorem abortByReset_next {w : Word} (h : abortByReset w s = .next t) :
    t = s.resetEvent ∨ ∃ i u, exec i s = .next u ∧ t = (u.scribble (touchedRange i s.regs u.status)).resetEvent := by
  unfold abortByReset at h
  cases hw : decode w with
  | error e => rw [hw] at h; cases h; exact Or.inl rfl
  | ok i =>
    simp only [hw] at h
    cases he : exec i s with
    | next u => rw [he] at h; cases h; exact Or.inr ⟨i, u, he, rfl⟩
    | fault f => rw [he] at h; cases h
    | refused r => rw [he] at h; cases h

/-- The range that a reset during a command draws lies inside the address space: a command that touches it got past its
checks. -/
theorem touchedRange_inSpace (h : exec i s = .next u) {a n : Nat} (ht : touchedRange i s.regs u.status = some (a, n)) :
    n = 0 ∨ a + n ≤ Config.space := by
  unfold touchedRange at ht
  split_ifs at ht with hst
  rcases exec_next_cases h with ⟨c, hc, rfl⟩ | ⟨hs, -⟩
  · rcases hst.imp Status.word_inj Status.word_inj with rfl | rfl <;> simp at hc
  · exact hs.out ht

theorem abortByReset_inv {w : Word} (h : abortByReset w s = .next t) (hs : s.Inv) : t.Inv := by
  rcases abortByReset_next h with rfl | ⟨i, u, he, rfl⟩
  · exact State.resetEvent_inv hs.1
  · exact State.resetEvent_inv (u.scribble_wf _ (exec_inv he hs).1 fun _ _ => touchedRange_inSpace he)

/-- Every other access of the host moves the operand registers, its own data and memory alone (10_state.md R20 to R24, R33,
R34). -/
theorem hostAccess_other {h : HostAccess} (hc : ∀ w, h ≠ .writeReg .cmd w ∧ h ≠ .cmdReset w) (hr : h ≠ .reset)
    (ht : hostAccess h s = .next t) :
    ∃ q d m, t = { s with regs := q, busData := d, mem := m } ∧ (s.mem.wf = true → m.wf = true) := by
  cases h with
  | readReg r => cases ht; exact ⟨s.regs, _, s.mem, rfl, id⟩
  | writeReg r v =>
    cases r with
    | a n => cases ht; exact ⟨_, s.busData, s.mem, rfl, id⟩
    | cmd => exact absurd rfl (hc v).1
    | status => cases ht; exact ⟨s.regs, s.busData, s.mem, rfl, id⟩
    | result => cases ht; exact ⟨s.regs, s.busData, s.mem, rfl, id⟩
  | readMem a => cases ht; exact ⟨s.regs, _, s.mem, rfl, id⟩
  | writeMem a v => cases ht; exact ⟨s.regs, s.busData, _, rfl, fun hm => Memory.set_wf hm v a.isLt⟩
  | reset => exact absurd rfl hr
  | cmdReset w => exact absurd rfl (hc w).2

theorem hostAccess_inv {h : HostAccess} (ht : hostAccess h s = .next t) (hs : s.Inv) : t.Inv := by
  by_cases hr : h = .reset
  · subst hr
    cases ht
    exact State.resetEvent_inv hs.1
  by_cases hc : ∀ w, h ≠ .writeReg .cmd w ∧ h ≠ .cmdReset w
  · obtain ⟨q, d, m, rfl, hm⟩ := hostAccess_other hc hr ht
    obtain ⟨hw, hrest⟩ := hs
    exact ⟨hm hw, hrest⟩
  · simp only [not_forall, ← or_iff_not_and_not] at hc
    obtain ⟨w, rfl | rfl⟩ := hc
    · exact launchWord_inv ht hs
    · exact abortByReset_inv ht hs

/-- Settles O55: an idle step changes nothing, and each access of the host keeps the invariant: a launched command, a reset,
a reset during a command, and the accesses that move registers and memory. -/
theorem stepKeepsTheInvariant : Obligations.StepKeepsTheInvariant := by
  intro s t hs h
  unfold step at h
  cases hb : s.bus with
  | nil => rw [hb] at h; cases h; exact hs
  | cons a rest =>
    rw [hb] at h
    exact hostAccess_inv h hs

/-- Settles O46: a launched word ends with a code of the enum, and the other accesses do not reach STATUS. -/
theorem statusHoldsACode : Obligations.StatusHoldsACode := by
  refine ⟨fun w s t h => ?_, fun h s t hc hr ht => ?_⟩
  · rcases launchWord_next h with ⟨rfl, -⟩ | ⟨i, -, he⟩
    · exact Status.word_le _
    · obtain ⟨c, hc⟩ := exec_status he
      rw [hc]
      exact c.word_le
  · obtain ⟨q, d, m, rfl, -⟩ := hostAccess_other hc hr ht
    rfl

/-! ## The two commands that write RESULT -/

/-- BC_IS_INIT writes RESULT and STATUS, in every state (40_context_lifecycle.md R123). -/
theorem exec_bcIsInit (k : Nat) (s : State) : exec (.bcIsInit k) s =
    .next (if k < Config.nbc then (s.setResult (s.bcReady k)).exit .ok else (s.setResult false).exit .invalidArgs) := by
  refine (run_go (i := .bcIsInit k) (w := bcIsInitWork k) rfl fun _ h => absurd h List.not_mem_nil).trans ?_
  unfold bcIsInitWork
  by_cases hk : k < Config.nbc
  · rw [if_neg (Nat.not_le_of_lt hk), if_pos hk]; rfl
  · rw [if_pos (Nat.le_of_not_lt hk), if_neg hk]; rfl

/-- XTS_IS_INIT writes RESULT and STATUS, in every state (R126). -/
theorem exec_xtsIsInit (j : Nat) (s : State) : exec (.xtsIsInit j) s =
    .next (if j < Config.nxc then (s.setResult (s.xcReady j)).exit .ok else (s.setResult false).exit .invalidArgs) := by
  refine (run_go (i := .xtsIsInit j) (w := xtsIsInitWork j) rfl fun _ h => absurd h List.not_mem_nil).trans ?_
  unfold xtsIsInitWork
  by_cases hj : j < Config.nxc
  · rw [if_neg (Nat.not_le_of_lt hj), if_pos hj]; rfl
  · rw [if_pos (Nat.le_of_not_lt hj), if_neg hj]; rfl

/-- Settles O47: the two `*_IS_INIT` commands by their equations, every other command by its frame, every other access by
what it moves. -/
theorem resultIsWrittenByIsInitOnly : Obligations.ResultIsWrittenByIsInitOnly := by
  refine ⟨fun k s t h => ?_, fun j s t h => ?_, fun w s t hi h => ?_, fun h s t hc hr ht => ?_, fun _ _ => rfl⟩
  · rw [exec_bcIsInit] at h
    cases h
    by_cases hk : k < Config.nbc <;> simp [hk, State.bcReady, BlockCtx.isReady]
  · rw [exec_xtsIsInit] at h
    cases h
    by_cases hj : j < Config.nxc <;> simp [hj, State.xcReady, BlockCtx.isReady]
  · rcases launchWord_next h with ⟨rfl, -⟩ | ⟨i, hd, he⟩
    · rfl
    · exact exec_result (hi i hd) he
  · obtain ⟨q, d, m, rfl, -⟩ := hostAccess_other hc hr ht
    rfl

/-! ## Steps and accesses by their equations -/

theorem step_cons {h : HostAccess} {rest : List HostAccess} (hb : s.bus = h :: rest) :
    step s = hostAccess h { s with bus := rest } := by
  rw [step, hb]

theorem launchWord_ok {w : Word} (h : decode w = .ok i) (s : State) : launchWord w s = exec i s := by
  rw [launchWord, h]

/-- Settles O7: the next access is a write of CMD, which launches the decoded command; the placed word is the word itself. -/
theorem stepRunsTheDecodedCommand : Obligations.StepRunsTheDecodedCommand := by
  refine ⟨fun s w rest i hb hd => (step_cons hb).trans (launchWord_ok hd _), fun s w i hd => ?_⟩
  have hw : BitVec.ofNat 32 (w.toNat % 2 ^ 32) = w := by
    rw [Nat.mod_eq_of_lt w.isLt, BitVec.ofNat_toNat, BitVec.setWidth_eq]
  have hb : (s.withFetchWord 32 w.toNat).bus = .writeReg .cmd w :: s.bus := by rw [State.withFetchWord, hw]
  exact (step_cons hb).trans (launchWord_ok hd _)

/-- Settles O9: each access by its equation, the writes by the laws of the register file and of memory. -/
theorem hostAccessRights : Obligations.HostAccessRights := by
  refine fun s => ⟨rfl, rfl, rfl, fun _ => rfl, fun _ => rfl, fun _ => rfl, fun r v => ?_, fun a => ?_, fun hm a v => ?_⟩
  · exact ⟨s.regs.set r v, rfl, s.regs.get_set_self r v, fun r' h => s.regs.get_set_other h v⟩
  · exact ⟨_, rfl, BitVec.toNat_setWidth_of_le (by decide)⟩
  · exact ⟨s.mem.set a.toNat v, rfl, Memory.get_set_self hm _ v, fun p h => Memory.get_set_other _ v h⟩

end Sys2Proof.Machine
end

section
/-! SUPPORT. What no command reads: STATUS, RESULT, the operand registers that its format does not name and, but for a device
context and a derivation, DEVKEY. The procedures are followed once, as in Laws/Asks.lean, for any change of these four. -/

namespace Sys2Proof.Machine

/-! ## A change of what is not read -/

/-- A change of the operand registers, STATUS, RESULT and `DEVKEY`. -/
structure Recast where
  regs   : OperandRegs → OperandRegs
  status : Word → Word
  result : Word → Word
  devKey : Block → Block

/-- The state with the change made. -/
def State.recast (s : State) (v : Recast) : State :=
  { s with regs := v.regs s.regs, status := v.status s.status, result := v.result s.result, devKey := v.devKey s.devKey }

/-- What is left of a change at the end of a command, which writes STATUS itself (60_exceptions.md R246). -/
def Recast.atEnd (v : Recast) : Recast := { v with status := id }

/-- The contexts at these places name the same keys before and after the change (10_state.md R25). -/
def Recast.KeepsKeys (v : Recast) (L : List CtxLoc) (s : State) : Prop :=
  ∀ l ∈ L, (s.recast v).keyOf (s.ctxAt l) = s.keyOf (s.ctxAt l)

variable {v : Recast} {L L' : List CtxLoc} {s t : State} {α β : Type}

@[simp] theorem State.ctxAt_recast (s : State) (v : Recast) (l : CtxLoc) : (s.recast v).ctxAt l = s.ctxAt l := by
  cases l <;> rfl

theorem State.setCtx_recast (s : State) (v : Recast) (l : CtxLoc) (c : BlockCtx) :
    (s.recast v).setCtx l c = (s.setCtx l c).recast v := by
  cases l <;> rfl

theorem State.scribble_recast (s : State) (v : Recast) (o : Option (Nat × Nat)) :
    (s.recast v).scribble o = (s.scribble o).recast v := by
  cases o <;> rfl

theorem ended_recast (s : State) (v : Recast) (o : Option (Nat × Nat)) (c : Status) :
    ended o c (s.recast v) = (ended o c s).recast v.atEnd := by
  unfold ended
  rw [State.scribble_recast]
  split_ifs <;> rfl

/-- A key is changed through a device context alone. -/
theorem Recast.keepsKeys_of_loaded (h : ∀ l ∈ L, (s.ctxAt l).ksel = .loaded) : v.KeepsKeys L s := by
  intro l hl
  simp only [State.keyOf, h l hl]

/-- A change that leaves `DEVKEY` leaves every key. -/
theorem Recast.keepsKeys_of_devKey (h : v.devKey = id) (L : List CtxLoc) (s : State) : v.KeepsKeys L s :=
  fun l _ => State.keyOf_congr (by simp [State.recast, h]) (s.ctxAt l)

theorem Recast.KeepsKeys.congr (h : v.KeepsKeys L s) (hc : ∀ l, t.ctxAt l = s.ctxAt l) (hd : t.devKey = s.devKey) :
    v.KeepsKeys L t := by
  intro l hl
  have hd' : (t.recast v).devKey = (s.recast v).devKey := congrArg v.devKey hd
  rw [hc, State.keyOf_congr hd, State.keyOf_congr hd']
  exact h l hl

/-- A place holds what was put there, or what it held before. -/
theorem State.ctxAt_setCtx_cases (s : State) (l l' : CtxLoc) (c : BlockCtx) :
    (s.setCtx l c).ctxAt l' = c ∨ (s.setCtx l c).ctxAt l' = s.ctxAt l' := by
  by_cases h : l' = l
  · subst h
    by_cases he : l'.Exists
    · exact Or.inl (s.ctxAt_setCtx_self he c)
    · right
      cases l' <;> simp_all [State.ctxAt, State.setCtx, CtxLoc.Exists]
  · exact Or.inr (s.ctxAt_setCtx_other h c)

/-- A context with a loaded key may be put anywhere. -/
theorem Recast.KeepsKeys.setCtx (h : v.KeepsKeys L s) (l : CtxLoc) {c : BlockCtx} (hc : c.ksel = .loaded) :
    v.KeepsKeys L (s.setCtx l c) := by
  intro l' hl'
  rcases s.ctxAt_setCtx_cases l l' c with he | he
  · simp only [State.keyOf, he, hc]
  · have hd : ((s.setCtx l c).recast v).devKey = (s.recast v).devKey := congrArg v.devKey (s.setCtx_devKey l c)
    rw [he, State.keyOf_congr (s.setCtx_devKey l c), State.keyOf_congr hd]
    exact h l' hl'

/-- The place where a key is loaded names the same key after the change. -/
theorem Recast.KeepsKeys.cons_setCtx (h : v.KeepsKeys L s) {l : CtxLoc} (hl : l.Exists) {c : BlockCtx} (hc : c.ksel = .loaded) :
    v.KeepsKeys (l :: L) (s.setCtx l c) := by
  intro l' hl'
  rcases List.mem_cons.mp hl' with rfl | hl'
  · rw [s.ctxAt_setCtx_self hl]
    simp only [State.keyOf, hc]
  · exact h.setCtx l hc l' hl'

/-! ## Procedures that do not see the change -/

/-- An update of the state that neither sees the change nor touches the keys. -/
def Recast.Commutes (v : Recast) (L : List CtxLoc) (f : State → State) : Prop :=
  ∀ s, f (s.recast v) = (f s).recast v ∧ (v.KeepsKeys L s → v.KeepsKeys L (f s))

theorem Recast.commutes_of_ctxAt {f : State → State} (hf : ∀ s, f (s.recast v) = (f s).recast v)
    (hc : ∀ s l, (f s).ctxAt l = s.ctxAt l) (hd : ∀ s, (f s).devKey = s.devKey) : v.Commutes L f :=
  fun s => ⟨hf s, fun h => h.congr (hc s) (hd s)⟩

theorem Recast.commutes_hidden {f : Hidden → Hidden} (hf : ∀ h, (f h).tbc0 = h.tbc0 ∧ (f h).tbc1 = h.tbc1) :
    v.Commutes L fun s => { s with hidden := f s.hidden } :=
  commutes_of_ctxAt (fun _ => rfl)
    (fun s l => State.ctxAt_congr (s := s) (t := { s with hidden := f s.hidden }) rfl rfl (hf _).1 (hf _).2 l) fun _ => rfl

theorem Recast.commutes_wipeSubkeys : v.Commutes L State.wipeSubkeys :=
  commutes_hidden (f := fun h => { h with k0 := 0, k1 := 0, k2 := 0 }) fun _ => ⟨rfl, rfl⟩

theorem Recast.commutes_wipeKbuf : v.Commutes L State.wipeKbuf :=
  commutes_hidden (f := fun h => { h with kbuf := zeroBytes Config.kdfBufCap }) fun _ => ⟨rfl, rfl⟩

theorem Recast.commutes_wipeDkey : v.Commutes L State.wipeDkey :=
  commutes_hidden (f := fun h => { h with dkey := zeroBytes Config.dkeyBytes }) fun _ => ⟨rfl, rfl⟩

theorem Recast.commutes_bcClean (l : CtxLoc) : v.Commutes L (State.bcClean l) :=
  fun s => ⟨s.setCtx_recast v l .clear, fun h => h.setCtx l rfl⟩

theorem Recast.commutes_xcClean (j : Nat) : v.Commutes L (State.xcClean j) := fun s =>
  ⟨(congrArg (State.bcClean _) (s.setCtx_recast v _ _)).trans (State.setCtx_recast _ v _ _),
    fun h => (h.setCtx _ rfl).setCtx _ rfl⟩

theorem Recast.commutes_setResult (h : v.result = id) (g : State → Bool) (hg : ∀ s, g (s.recast v) = g s) :
    v.Commutes L fun s => s.setResult (g s) :=
  commutes_of_ctxAt (fun s => by simp [State.setResult, State.recast, h, ← hg s]) (fun _ l => by cases l <;> rfl) fun _ => rfl

/-- Where the contexts at `L` keep their keys under the change, `p` does the same before and after it, and those at `L'` keep
theirs then. -/
def BlindTo {α : Type} (v : Recast) (L L' : List CtxLoc) (p : Proc α) : Prop :=
  ∀ s, v.KeepsKeys L s → match p s with
    | .ok a t => p (s.recast v) = .ok a (t.recast v) ∧ v.KeepsKeys L' t
    | .error c t => p (s.recast v) = .error c (t.recast v)

theorem BlindTo.ok {p : Proc α} (h : BlindTo v L L' p) (hk : v.KeepsKeys L s) {a : α} (hp : p s = .ok a t) :
    p (s.recast v) = .ok a (t.recast v) ∧ v.KeepsKeys L' t := by
  simpa only [hp] using h s hk

theorem BlindTo.error {p : Proc α} (h : BlindTo v L L' p) (hk : v.KeepsKeys L s) {c : Halt} (hp : p s = .error c t) :
    p (s.recast v) = .error c (t.recast v) := by
  simpa only [hp] using h s hk

theorem BlindTo.bind {M : List CtxLoc} {p : Proc β} {f : β → Proc α} (h : BlindTo v L M p) (hf : ∀ b, BlindTo v M L' (f b)) :
    BlindTo v L L' (p >>= f) := by
  intro s hk
  cases hp : p s with
  | ok b t =>
    obtain ⟨hp', ht⟩ := h.ok hk hp
    rw [bind_run_ok hp, bind_run_ok hp']
    exact hf b t ht
  | error c t =>
    rw [bind_run_error hp]
    exact bind_run_error (h.error hk hp)

theorem BlindTo.mono {M : List CtxLoc} {p : Proc α} (h : BlindTo v L L' p) (hM : ∀ l ∈ M, l ∈ L') : BlindTo v L M p := by
  intro s hk
  cases hp : p s with
  | ok a t =>
    obtain ⟨hp', ht⟩ := h.ok hk hp
    exact ⟨hp', fun l hl => ht l (hM l hl)⟩
  | error c t => exact h.error hk hp

/-- `p` does not see the change, and keeps the keys at `L` from it. -/
def Blind {α : Type} (v : Recast) (L : List CtxLoc) (p : Proc α) : Prop := BlindTo v L L p

theorem Blind.bind {p : Proc β} {f : β → Proc α} (h : Blind v L p) (hf : ∀ b, Blind v L (f b)) : Blind v L (p >>= f) :=
  BlindTo.bind h hf

theorem Blind.pure (a : α) : Blind v L (pure a : Proc α) := fun _ hk => ⟨rfl, hk⟩

theorem Blind.raise (c : Status) : Blind v L (raise c : Proc α) := fun _ _ => rfl

theorem Blind.look {f : State → α} (hf : ∀ s, f (s.recast v) = f s) : Blind v L (look f) :=
  fun s hk => ⟨congrArg (EStateM.Result.ok · (s.recast v)) (hf s), hk⟩

theorem Blind.update {f : State → State} (hf : v.Commutes L f) : Blind v L (update f) :=
  fun s hk => ⟨congrArg (EStateM.Result.ok ()) (hf s).1, (hf s).2 hk⟩

/-- A change of the hidden buffers; every one that the procedures make leaves the transient contexts. -/
theorem Blind.updateHidden {f : Hidden → Hidden}
    (hf : ∀ h, (f h).tbc0 = h.tbc0 ∧ (f h).tbc1 = h.tbc1 := by exact fun _ => ⟨rfl, rfl⟩) :
    Blind v L (updateHidden f) := .update (Recast.commutes_hidden hf)

theorem Blind.onExit {p : Proc α} (h : Blind v L p) {f : State → State} (hf : v.Commutes L f) : Blind v L (onExit f p) := by
  intro s hk
  cases hp : p s with
  | ok a t =>
    obtain ⟨hp', ht⟩ := BlindTo.ok h hk hp
    rw [onExit_run_ok hp, onExit_run_ok hp', (hf t).1]
    exact ⟨rfl, (hf t).2 ht⟩
  | error c t =>
    rw [onExit_run_error hp, onExit_run_error (BlindTo.error h hk hp), (hf t).1]

theorem Blind.onRaise {p : Proc α} (h : Blind v L p) {f : State → State} (hf : v.Commutes L f) : Blind v L (onRaise f p) := by
  intro s hk
  cases hp : p s with
  | ok a t =>
    obtain ⟨hp', ht⟩ := BlindTo.ok h hk hp
    rw [onRaise_run_ok hp]
    exact ⟨onRaise_run_ok hp', ht⟩
  | error c t =>
    rw [onRaise_run_error hp, onRaise_run_error (BlindTo.error h hk hp), (hf t).1]

theorem Blind.ite {P : Prop} [Decidable P] {p q : Proc α} (hp : Blind v L p) (hq : Blind v L q) :
    Blind v L (if P then p else q) := by
  split_ifs <;> assumption

theorem ask_blind (a : Access) : Blind v L (ask a) := by
  intro s hk
  have ha : (s.recast v).admitsAccess a = s.admitsAccess a := rfl
  unfold ask
  rw [ha]
  cases s.admitsAccess a
  · rfl
  · exact ⟨rfl, hk⟩

theorem memRead_blind (a n : Nat) : Blind v L (memRead a n) := (ask_blind _).bind fun _ => .look fun _ => rfl

theorem memWrite_blind (a : Nat) (bs : List Byte) : Blind v L (memWrite a bs) :=
  (ask_blind _).bind fun _ => .update
    (Recast.commutes_of_ctxAt (fun _ => rfl) (fun _ l => by cases l <;> rfl) fun _ => rfl)

theorem State.nextFault_recast (s : State) (v : Recast) : (s.recast v).nextFault = s.nextFault := rfl

theorem Recast.KeepsKeys.drawFault (h : v.KeepsKeys L s) : v.KeepsKeys L s.drawFault := h.congr s.ctxAt_drawFault rfl

/-- What `BC_Enc` and `BC_Dec` have in common: the call of a cipher function under the key of a context (R113, R114). -/
def cipherCall (F : Block → Block → Block) (l : CtxLoc) (x : Block) : Proc Block := fun s =>
  if (s.ctxAt l).state ≠ .ready then .error (.raise .ctxNotInitialized) s
  else if s.nextFault then .error (.raise .failure) s.drawFault
  else .ok (F (s.keyOf (s.ctxAt l)) x) s.drawFault

theorem bcEnc_eq_cipherCall (P : Params) : bcEnc P = cipherCall P.enc := rfl

theorem bcDec_eq_cipherCall (P : Params) : bcDec P = cipherCall P.dec := rfl

theorem cipherCall_blind (F : Block → Block → Block) {l : CtxLoc} (hl : l ∈ L) (x : Block) : Blind v L (cipherCall F l x) := by
  intro s hk
  unfold cipherCall
  rw [State.ctxAt_recast, State.nextFault_recast, hk l hl]
  by_cases hr : (s.ctxAt l).state ≠ .ready
  · rw [if_pos hr, if_pos hr]
  · rw [if_neg hr, if_neg hr]
    cases s.nextFault
    · exact ⟨rfl, hk.drawFault⟩
    · rfl

theorem bcEnc_blind (P : Params) {l : CtxLoc} (hl : l ∈ L) (x : Block) : Blind v L (bcEnc P l x) :=
  bcEnc_eq_cipherCall P ▸ cipherCall_blind P.enc hl x

theorem bcDec_blind (P : Params) {l : CtxLoc} (hl : l ∈ L) (x : Block) : Blind v L (bcDec P l x) :=
  bcDec_eq_cipherCall P ▸ cipherCall_blind P.dec hl x

/-- What `BC_Load` and `BC_LoadDev` have in common: a context put at a place, which is cleaned when the call fails (R115,
R116). -/
def loadCtx (l : CtxLoc) (c : BlockCtx) : Proc Unit := fun s =>
  if s.nextFault then .error (.raise .failure) (s.drawFault.bcClean l) else .ok () (s.drawFault.setCtx l c)

theorem bcLoad_eq_loadCtx (l : CtxLoc) (k : Block) : bcLoad l k = loadCtx l ⟨.ready, .loaded, k⟩ := rfl

theorem bcLoadDev_eq_loadCtx (l : CtxLoc) : bcLoadDev l = loadCtx l ⟨.ready, .device, 0⟩ := rfl

theorem loadCtx_blindTo {l : CtxLoc} {c : BlockCtx} (hc : ∀ s, v.KeepsKeys L s → v.KeepsKeys L' (s.setCtx l c)) :
    BlindTo v L L' (loadCtx l c) := by
  intro s hk
  unfold loadCtx
  rw [State.nextFault_recast]
  cases s.nextFault
  · exact ⟨congrArg (EStateM.Result.ok ()) (s.drawFault.setCtx_recast v l c), hc _ hk.drawFault⟩
  · exact congrArg (EStateM.Result.error _) (s.drawFault.setCtx_recast v l .clear)

theorem bcLoad_blind (l : CtxLoc) (k : Block) : Blind v L (bcLoad l k) :=
  bcLoad_eq_loadCtx l k ▸ loadCtx_blindTo fun _ h => h.setCtx l rfl

/-- After a load of a key the place of the load keeps its key too. -/
theorem bcLoad_blindTo {l : CtxLoc} (hl : l.Exists) (k : Block) : BlindTo v L (l :: L) (bcLoad l k) :=
  bcLoad_eq_loadCtx l k ▸ loadCtx_blindTo fun _ h => h.cons_setCtx hl rfl

/-- A load of the device key, where the change leaves the keys at `L` whatever the contexts are. -/
theorem bcLoadDev_blind (h : ∀ s, v.KeepsKeys L s) (l : CtxLoc) : Blind v L (bcLoadDev l) :=
  bcLoadDev_eq_loadCtx l ▸ loadCtx_blindTo fun _ _ => h _

/-! ## The engines -/

theorem cmacChain_blind (P : Params) {c : CtxLoc} (hc : c ∈ L) (n : Nat) (m : List Byte) : Blind v L (cmacChain P c n m) := by
  induction n generalizing m with
  | zero => exact .pure _
  | succ n ih =>
    exact .ite ((Blind.look fun _ => rfl).bind fun _ => (bcEnc_blind P hc _).bind fun _ =>
      (Blind.updateHidden).bind fun _ => ih _) (.pure _)

theorem cmacLast_blind (r : List Byte) : Blind v L (cmacLast r) :=
  .ite .updateHidden ((Blind.updateHidden).bind fun _ => .updateHidden)

theorem cmacBytes_blind (P : Params) {c : CtxLoc} (hc : c ∈ L) (m : List Byte) : Blind v L (cmacBytes P c m) := by
  refine Blind.onExit ?_ Recast.commutes_wipeSubkeys
  exact (bcEnc_blind P hc 0).bind fun _ => (Blind.updateHidden).bind fun _ =>
    (Blind.updateHidden).bind fun _ => (Blind.updateHidden).bind fun _ =>
    (cmacChain_blind P hc _ m).bind fun r => (cmacLast_blind r).bind fun _ => (Blind.look fun _ => rfl).bind fun _ =>
    bcEnc_blind P hc _

theorem cmacDev_blind (h : ∀ s, v.KeepsKeys L s) (h0 : .tbc0 ∈ L) (P : Params) (m : List Byte) : Blind v L (cmacDev P m) :=
  ((bcLoadDev_blind h _).bind fun _ => cmacBytes_blind P h0 m).onExit (Recast.commutes_bcClean _)

theorem kdfLoop_blind (h : ∀ s, v.KeepsKeys L s) (h0 : .tbc0 ∈ L) (P : Params) (keyLen inLen : Nat)
    {sink : Nat → List Byte → Proc Unit} (hs : ∀ off bs, Blind v L (sink off bs)) (n off : Nat) :
    Blind v L (kdfLoop P keyLen inLen sink n off) := by
  induction n generalizing off with
  | zero => exact .pure _
  | succ n ih =>
    exact .ite ((Blind.look fun _ => rfl).bind fun _ => (cmacDev_blind h h0 P _).bind fun _ => (hs _ _).bind fun _ =>
      (Blind.updateHidden).bind fun _ => ih _) (.pure _)

theorem kdfRun_blind (h : ∀ s, v.KeepsKeys L s) (h0 : .tbc0 ∈ L) (P : Params) (keyLen : Nat) (label context : List Byte)
    {sink : Nat → List Byte → Proc Unit} (hs : ∀ off bs, Blind v L (sink off bs)) :
    Blind v L (kdfRun P keyLen label context sink) :=
  .ite (.raise _) (((Blind.updateHidden).bind fun _ => kdfLoop_blind h h0 P keyLen _ hs _ 0).onExit
    Recast.commutes_wipeKbuf)

theorem kdfToDkey_blind (h : ∀ s, v.KeepsKeys L s) (h0 : .tbc0 ∈ L) (P : Params) (keyLen : Nat) (label context : List Byte) :
    Blind v L (kdfToDkey P keyLen label context) :=
  kdfRun_blind h h0 P keyLen label context fun _ _ => .updateHidden

theorem daLoad_blind (h : ∀ s, v.KeepsKeys L s) (h0 : .tbc0 ∈ L) (P : Params) (l : CtxLoc) : Blind v L (daLoad P l) :=
  ((kdfToDkey_blind h h0 P 16 _ _).bind fun _ => (Blind.look fun _ => rfl).bind fun _ => bcLoad_blind l _).onExit
    Recast.commutes_wipeDkey

theorem xtsLoad_blind (j : Nat) (k1 k2 : Block) : Blind v L (xtsLoad j k1 k2) :=
  ((bcLoad_blind _ k1).bind fun _ => bcLoad_blind _ k2).onRaise (Recast.commutes_xcClean j)

theorem meLoad_blind (h : ∀ s, v.KeepsKeys L s) (h0 : .tbc0 ∈ L) (P : Params) (j : Nat) (label context : List Byte) :
    Blind v L (meLoad P j label context) :=
  ((kdfToDkey_blind h h0 P 32 label context).bind fun _ => (Blind.look fun _ => rfl).bind fun _ => xtsLoad_blind j _ _).onExit
    Recast.commutes_wipeDkey

theorem xtsTweak_blind (P : Params) {j : Nat} (hw : .xcTweak j ∈ L) (a i : Nat) : Blind v L (xtsTweak P j a i) :=
  .ite ((bcEnc_blind P hw _).bind fun _ => .updateHidden) (.pure _)

theorem xtsCipher_blind (P : Params) {j : Nat} (hd : .xcData j ∈ L) (d : Direction) (x : Block) :
    Blind v L (xtsCipher P j d x) := by
  cases d with
  | enc => exact bcEnc_blind P hd x
  | dec => exact bcDec_blind P hd x

theorem xtsLoop_blind (P : Params) {j : Nat} (hd : .xcData j ∈ L) (hw : .xcTweak j ∈ L) (d : Direction) (address inp out n i : Nat) :
    Blind v L (xtsLoop P j d address inp out n i) := by
  induction n generalizing i with
  | zero => exact .pure _
  | succ n ih =>
    refine Blind.bind ?_ fun _ => ih (i + 1)
    exact (xtsTweak_blind P hw _ i).bind fun _ => (memRead_blind _ _).bind fun _ => (Blind.look fun _ => rfl).bind fun _ =>
      (xtsCipher_blind P hd d _).bind fun _ => (memWrite_blind _ _).bind fun _ => .updateHidden

/-! ## The works of the commands -/

theorem bcInitKeyWork_blind (c : Nat) (r : OperandRegs) : Blind v L (bcInitKeyWork c r) :=
  (memRead_blind _ _).bind fun _ => bcLoad_blind _ _

theorem xtsInitWork_blind (j : Nat) (r : OperandRegs) : Blind v L (xtsInitWork j r) :=
  (memRead_blind _ _).bind fun _ => (memRead_blind _ _).bind fun _ => xtsLoad_blind j _ _

theorem bcIsInitWork_blind (hr : v.result = id) (c : Nat) : Blind v L (bcIsInitWork c) :=
  .ite ((Blind.update (Recast.commutes_setResult hr _ fun _ => rfl)).bind fun _ => .raise _)
    (.update (Recast.commutes_setResult hr _ fun _ => rfl))

theorem xtsIsInitWork_blind (hr : v.result = id) (j : Nat) : Blind v L (xtsIsInitWork j) :=
  .ite ((Blind.update (Recast.commutes_setResult hr _ fun _ => rfl)).bind fun _ => .raise _)
    (.update (Recast.commutes_setResult hr _ fun _ => rfl))

theorem tagWork_blind (P : Params) {c : CtxLoc} (hc : c ∈ L) (r : OperandRegs) : Blind v L (tagWork P c r) :=
  (memRead_blind _ _).bind fun m => (cmacBytes_blind P hc m).bind fun _ => memWrite_blind _ _

theorem verifyWork_blind (P : Params) {c : CtxLoc} (hc : c ∈ L) (r : OperandRegs) : Blind v L (verifyWork P c r) :=
  (memRead_blind _ _).bind fun m => (cmacBytes_blind P hc m).bind fun _ => (Blind.updateHidden).bind fun _ =>
    (memRead_blind _ _).bind fun _ => (Blind.look fun _ => rfl).bind fun _ => .ite (.pure _) (.raise _)

/-- CMAC_KEY uses no key but the one it has just loaded (41_cmac.md R147). -/
theorem cmacKeyWork_blind (P : Params) (r : OperandRegs) : Blind v L (cmacKeyWork P r) :=
  Blind.onExit ((memRead_blind _ _).bind fun _ =>
    ((bcLoad_blindTo (l := .tbc0) trivial _).bind fun _ => tagWork_blind P (List.mem_cons_self ..) r).mono
      fun _ => List.mem_cons_of_mem _) (Recast.commutes_bcClean _)

theorem cmacDevkeyWork_blind (h : ∀ s, v.KeepsKeys L s) (h0 : .tbc0 ∈ L) (P : Params) (r : OperandRegs) :
    Blind v L (cmacDevkeyWork P r) :=
  (memRead_blind _ _).bind fun m => (cmacDev_blind h h0 P m).bind fun _ => memWrite_blind _ _

theorem kdfDeriveWork_blind (h : ∀ s, v.KeepsKeys L s) (h0 : .tbc0 ∈ L) (P : Params) (r : OperandRegs) :
    Blind v L (kdfDeriveWork P r) :=
  (memRead_blind _ _).bind fun _ => (memRead_blind _ _).bind fun _ => kdfRun_blind h h0 P _ _ _ fun _ _ => memWrite_blind _ _

theorem meInitWork_blind (h : ∀ s, v.KeepsKeys L s) (h0 : .tbc0 ∈ L) (P : Params) (j : Nat) (r : OperandRegs) :
    Blind v L (meInitWork P j r) :=
  (memRead_blind _ _).bind fun _ => (memRead_blind _ _).bind fun _ => meLoad_blind h h0 P j _ _

theorem daComputeEasyWork_blind (h : ∀ s, v.KeepsKeys L s) (h0 : .tbc0 ∈ L) (h1 : .tbc1 ∈ L) (P : Params) (r : OperandRegs) :
    Blind v L (daComputeEasyWork P r) :=
  ((daLoad_blind h h0 P .tbc1).bind fun _ => tagWork_blind P h1 r).onExit (Recast.commutes_bcClean _)

theorem daVerifyEasyWork_blind (h : ∀ s, v.KeepsKeys L s) (h0 : .tbc0 ∈ L) (h1 : .tbc1 ∈ L) (P : Params) (r : OperandRegs) :
    Blind v L (daVerifyEasyWork P r) :=
  ((daLoad_blind h h0 P .tbc1).bind fun _ => verifyWork_blind P h1 r).onExit (Recast.commutes_bcClean _)

theorem xtsWork_blind (P : Params) {j : Nat} (hd : .xcData j ∈ L) (hw : .xcTweak j ∈ L) (d : Direction) (r : OperandRegs) :
    Blind v L (xtsWork P j d r) :=
  (xtsLoop_blind P hd hw d _ _ _ _ 0).bind fun _ => .updateHidden

/-! ## The commands as checks and a work -/

/-- The checks of a command (60_exceptions.md R244). -/
def gateOf (i : Instr) (s : State) : Gate :=
  match i with
  | .bcInitKey c => bcInitKeyGate c s
  | .bcInitDevkey c => (bcSlotGate c).andThen (bcFreshGate c s)
  | .bcCleanup c => bcSlotGate c
  | .bcIsInit _ => .go
  | .xtsInit j => xtsInitGate j s
  | .xtsCleanup j => xcSlotGate j
  | .xtsIsInit _ => .go
  | .cmac c => ctxMsgGate c s
  | .cmacKey => cmacKeyGate s
  | .cmacDevkey => msgGate s
  | .kdfDerive => kdfDeriveGate s
  | .xtsEnc j => xtsGate j s
  | .xtsDec j => xtsGate j s
  | .daInit c => (bcSlotGate c).andThen (bcFreshGate c s)
  | .daCompute c => ctxMsgGate c s
  | .daVerify c => ctxMsgGate c s
  | .daComputeEasy => msgGate s
  | .daVerifyEasy => msgGate s
  | .meInit j => meInitGate j s
  | .meEnc j => xtsGate j s
  | .meDec j => xtsGate j s

/-- The work of a command, from its operand registers. -/
def workOf (i : Instr) (r : OperandRegs) : Proc Unit :=
  match i with
  | .bcInitKey c => bcInitKeyWork c r
  | .bcInitDevkey c => bcLoadDev (.bc c)
  | .bcCleanup c => update (State.bcClean (.bc c))
  | .bcIsInit c => bcIsInitWork c
  | .xtsInit j => xtsInitWork j r
  | .xtsCleanup j => update (State.xcClean j)
  | .xtsIsInit j => xtsIsInitWork j
  | .cmac c => tagWork Config.params (.bc c) r
  | .cmacKey => cmacKeyWork Config.params r
  | .cmacDevkey => cmacDevkeyWork Config.params r
  | .kdfDerive => kdfDeriveWork Config.params r
  | .xtsEnc j => xtsWork Config.params j .enc r
  | .xtsDec j => xtsWork Config.params j .dec r
  | .daInit c => daLoad Config.params (.bc c)
  | .daCompute c => tagWork Config.params (.bc c) r
  | .daVerify c => verifyWork Config.params (.bc c) r
  | .daComputeEasy => daComputeEasyWork Config.params r
  | .daVerifyEasy => daVerifyEasyWork Config.params r
  | .meInit j => meInitWork Config.params j r
  | .meEnc j => xtsWork Config.params j .enc r
  | .meDec j => xtsWork Config.params j .dec r

/-- Every command is its checks and its work, launched with the ranges of its row (30_encoding.md R86). -/
theorem exec_eq_run (i : Instr) (s : State) : exec i s = run i (gateOf i s) (workOf i s.regs) s := by cases i <;> rfl

/-- The registers of a list, every other one zero. -/
def OperandRegs.only (l : List OpReg) (r : OperandRegs) : OperandRegs where
  a0 := if .a0 ∈ l then r.a0 else 0
  a1 := if .a1 ∈ l then r.a1 else 0
  a2 := if .a2 ∈ l then r.a2 else 0
  a3 := if .a3 ∈ l then r.a3 else 0
  a4 := if .a4 ∈ l then r.a4 else 0
  a5 := if .a5 ∈ l then r.a5 else 0

theorem OperandRegs.only_congr {l : List OpReg} {q r : OperandRegs} (h : ∀ x ∈ l, q.get x = r.get x) : q.only l = r.only l := by
  have hx : ∀ x, (if x ∈ l then q.get x else 0) = if x ∈ l then r.get x else 0 := by
    intro x
    split_ifs with hm
    · exact h x hm
    · rfl
  simpa only [OperandRegs.only, OperandRegs.get, OperandRegs.mk.injEq] using
    And.intro (hx .a0) ⟨hx .a1, hx .a2, hx .a3, hx .a4, hx .a5⟩

/-- The work of a command is made from the registers that its format names (30_encoding.md R82). -/
theorem workOf_only (i : Instr) (r : OperandRegs) : workOf i (r.only (operandRegs i)) = workOf i r := by cases i <;> rfl

/-- So are its operand ranges (20_memory.md R65). -/
theorem operandRanges_only (i : Instr) (r : OperandRegs) : operandRanges i (r.only (operandRegs i)) = operandRanges i r := by
  cases i <;> rfl

theorem outRange_only (i : Instr) (r : OperandRegs) : outRange i (r.only (operandRegs i)) = outRange i r := by cases i <;> rfl

/-- Its checks look at those registers and at contexts. -/
theorem gateOf_only (i : Instr) (s : State) (v : Recast) :
    gateOf i { s.recast v with regs := s.regs.only (operandRegs i) } = gateOf i s := by
  cases i <;> rfl

/-! ## The commands -/

/-- The places whose keys a command calls the cipher under (40_context_lifecycle.md R113, R114), but for a place that it has just
loaded a key of memory into. -/
def usedKeys : Instr → List CtxLoc
  | .cmac c | .daCompute c | .daVerify c => [.bc c]
  | .xtsEnc j | .xtsDec j | .meEnc j | .meDec j => [.xcData j, .xcTweak j]
  | .cmacDevkey | .kdfDerive | .daInit _ | .meInit _ => [.tbc0]
  | .daComputeEasy | .daVerifyEasy => [.tbc0, .tbc1]
  | _ => []

/-- The command computes under the device key in a transient context (41_cmac.md R148, 42_kdf.md R165). -/
def usesDevkey : Instr → Bool
  | .cmacDevkey | .kdfDerive | .daInit _ | .meInit _ | .daComputeEasy | .daVerifyEasy => true
  | _ => false

/-- The work of a command does not see a change that keeps the keys it uses. -/
theorem workOf_blind (i : Instr) (r : OperandRegs) (hr : isIsInit i = true → v.result = id)
    (hd : usesDevkey i = true → v.devKey = id) : Blind v (usedKeys i) (workOf i r) := by
  have dev (h : usesDevkey i = true) (s : State) : v.KeepsKeys (usedKeys i) s := Recast.keepsKeys_of_devKey (hd h) _ s
  cases i with
  | bcInitKey c => exact bcInitKeyWork_blind c r
  | bcInitDevkey c => exact bcLoadDev_blind (fun _ _ h => absurd h List.not_mem_nil) _
  | bcCleanup c => exact .update (Recast.commutes_bcClean _)
  | bcIsInit c => exact bcIsInitWork_blind (hr rfl) c
  | xtsInit j => exact xtsInitWork_blind j r
  | xtsCleanup j => exact .update (Recast.commutes_xcClean j)
  | xtsIsInit j => exact xtsIsInitWork_blind (hr rfl) j
  | cmac c => exact tagWork_blind _ (by simp [usedKeys]) r
  | cmacKey => exact cmacKeyWork_blind _ r
  | cmacDevkey => exact cmacDevkeyWork_blind (dev rfl) (by simp [usedKeys]) _ r
  | kdfDerive => exact kdfDeriveWork_blind (dev rfl) (by simp [usedKeys]) _ r
  | xtsEnc j => exact xtsWork_blind _ (by simp [usedKeys]) (by simp [usedKeys]) _ r
  | xtsDec j => exact xtsWork_blind _ (by simp [usedKeys]) (by simp [usedKeys]) _ r
  | daInit c => exact daLoad_blind (dev rfl) (by simp [usedKeys]) _ _
  | daCompute c => exact tagWork_blind _ (by simp [usedKeys]) r
  | daVerify c => exact verifyWork_blind _ (by simp [usedKeys]) r
  | daComputeEasy => exact daComputeEasyWork_blind (dev rfl) (by simp [usedKeys]) (by simp [usedKeys]) _ r
  | daVerifyEasy => exact daVerifyEasyWork_blind (dev rfl) (by simp [usedKeys]) (by simp [usedKeys]) _ r
  | meInit j => exact meInitWork_blind (dev rfl) (by simp [usedKeys]) _ j r
  | meEnc j => exact xtsWork_blind _ (by simp [usedKeys]) (by simp [usedKeys]) _ r
  | meDec j => exact xtsWork_blind _ (by simp [usedKeys]) (by simp [usedKeys]) _ r

/-- The exit sequence after a work that does not see the change. -/
theorem finish_recast {w : Proc Unit} (hw : Blind v L w) (hk : v.KeepsKeys L s) (o : Option (Nat × Nat)) :
    finish o (w (s.recast v)) = mapNext (·.recast v.atEnd) (finish o (w s)) := by
  rcases hp : w s with ⟨_, t⟩ | ⟨c | e, t⟩
  · rw [(BlindTo.ok hw hk hp).1]; rfl
  · rw [BlindTo.error hw hk hp, finish_raise, finish_raise, ended_recast]; rfl
  · rw [BlindTo.error hw hk hp]; rfl

/-- A launch whose checks and ranges are as before the change, with a work that does not see it. -/
theorem launch_recast {w : Proc Unit} (hw : Blind v L w) (hk : v.KeepsKeys L s) (g : Gate) (ranges : List (Nat × Nat))
    (o : Option (Nat × Nat)) : launch g ranges o w (s.recast v) = mapNext (·.recast v.atEnd) (launch g ranges o w s) := by
  unfold launch
  cases g.andThen (topGate ranges) with
  | go => exact finish_recast hw hk o
  | raise c => rfl
  | refuse r => rfl

/-- A command does the same under a change that keeps the registers its format names and the keys it uses. -/
theorem exec_recast (i : Instr) (s : State) (hregs : ∀ r ∈ operandRegs i, (v.regs s.regs).get r = s.regs.get r)
    (hr : isIsInit i = true → v.result = id) (hd : usesDevkey i = true → v.devKey = id) (hk : v.KeepsKeys (usedKeys i) s) :
    exec i (s.recast v) = mapNext (·.recast v.atEnd) (exec i s) := by
  have honly : (s.recast v).regs.only (operandRegs i) = s.regs.only (operandRegs i) := OperandRegs.only_congr hregs
  have hgate : gateOf i (s.recast v) = gateOf i s := by
    rw [← gateOf_only i s v, ← honly]
    exact (gateOf_only i (s.recast v) ⟨id, id, id, id⟩).symm
  have hwork : workOf i (s.recast v).regs = workOf i s.regs := by rw [← workOf_only, honly, workOf_only]
  have hranges : operandRanges i (s.recast v).regs = operandRanges i s.regs := by
    rw [← operandRanges_only, honly, operandRanges_only]
  have hout : outRange i (s.recast v).regs = outRange i s.regs := by rw [← outRange_only, honly, outRange_only]
  rw [exec_eq_run, exec_eq_run, run, run, hgate, hwork, hranges, hout]
  exact launch_recast (workOf_blind i s.regs hr hd) hk _ _ _

/-- Settles O56: a change of the unnamed registers keeps the named ones, RESULT and every key. -/
theorem unnamedRegistersAreNotRead : Obligations.UnnamedRegistersAreNotRead := fun i s q hq =>
  exec_recast (v := ⟨fun _ => q, id, id, id⟩) i s hq (fun _ => rfl) (fun _ => rfl) (Recast.keepsKeys_of_devKey rfl _ s)

/-- Settles O57: the two `*_IS_INIT` commands by their equations, every other one because it leaves RESULT. -/
theorem statusAndResultAreNotRead : Obligations.StatusAndResultAreNotRead := by
  intro i s a b
  cases hi : isIsInit i with
  | false =>
    exact exec_recast (v := ⟨id, fun _ => a, fun _ => b, id⟩) i s (fun _ _ => rfl) (by simp [hi]) (fun _ => rfl)
      (Recast.keepsKeys_of_devKey rfl _ s)
  | true =>
    cases i with
    | bcIsInit k =>
      rw [exec_bcIsInit, exec_bcIsInit]
      by_cases hk : k < Config.nbc
      · rw [if_pos hk, if_pos hk]; rfl
      · rw [if_neg hk, if_neg hk]; rfl
    | xtsIsInit j =>
      rw [exec_xtsIsInit, exec_xtsIsInit]
      by_cases hj : j < Config.nxc
      · rw [if_pos hj, if_pos hj]; rfl
      · rw [if_neg hj, if_neg hj]; rfl
    | _ => cases hi

/-- Settles O58: a change of `DEVKEY` keeps the keys of contexts with a loaded key, and these are all that the commands use
that do not compute under the device key. -/
theorem devkeyIsUsedThroughKeyofOnly : Obligations.DevkeyIsUsedThroughKeyofOnly := by
  intro i s k hi
  have huse : usesDevkey i = false ∧ ∀ l ∈ usedKeys i, (s.ctxAt l).ksel = .loaded := by
    cases i <;> simp_all [usesDevkey, usedKeys]
  obtain ⟨hdev, hload⟩ := huse
  exact exec_recast (v := ⟨id, id, id, fun _ => k⟩) i s (fun _ _ => rfl) (fun _ => rfl) (by simp [hdev])
    (Recast.keepsKeys_of_loaded hload)

end Sys2Proof.Machine
end

section
/-! SUPPORT. How a command is refused, what a rejected one changes, and in which order its accesses and calls end it: read off
its checks (`gateOf`) and its work (`workOf`) (20_memory.md R58 to R65, 60_exceptions.md R244, R247). -/

namespace Sys2Proof.Machine

variable {i : Instr} {s t : State} {c : Status} {r : Refusal}

/-! ## A rejected command -/

/-- Settles O49: the checks raise these codes and change STATUS alone, and a work that ends with one has written RESULT. -/
theorem rejectedCommandChangesStatusAlone : Obligations.RejectedCommandChangesStatusAlone := by
  intro i s t h hst
  rcases exec_runs h with ⟨c, -, -, hi, rfl⟩ | ⟨-, u, c, he, rfl⟩
  · exact ⟨fun _ => rfl, fun hi' => absurd (hi'.symm.trans hi) nofun⟩
  · have hc : c = .invalidArgs ∨ c = .ctxNotInitialized := hst.imp Status.word_inj Status.word_inj
    obtain ⟨hi, rfl⟩ := he.rejected hc
    have hf : c ≠ .failure := by rintro rfl; simp at hc
    rw [if_neg hf]
    exact ⟨fun hi' => absurd (hi'.symm.trans hi) nofun, fun _ => rfl⟩

/-! ## Checks that pass -/

/-- The checks of a command that calls the primitive pass where `State.Passes` says so (60_exceptions.md R244). -/
theorem State.Passes.gateOf_eq_go (h : s.Passes i) : gateOf i s = .go := by
  cases i with
  | bcInitKey c => exact bcInitKeyGate_go.mpr h
  | bcInitDevkey c => exact Gate.andThen_eq_go.mpr ⟨bcSlotGate_go.mpr h.1, bcFreshGate_go.mpr h.2⟩
  | xtsInit j => exact xtsInitGate_go.mpr h
  | cmac c => exact ctxMsgGate_go.mpr h
  | cmacKey => exact cmacKeyGate_go.mpr h
  | cmacDevkey => exact msgGate_go.mpr h
  | kdfDerive =>
    obtain ⟨h0, hl, hc, hk⟩ := h
    exact kdfDeriveGate_go.mpr ⟨h0, hl, hc, kdfRejects_eq_false.mpr hk⟩
  | xtsEnc j => exact xtsGate_go.mpr h
  | xtsDec j => exact xtsGate_go.mpr h
  | daInit c => exact Gate.andThen_eq_go.mpr ⟨bcSlotGate_go.mpr h.1, bcFreshGate_go.mpr h.2⟩
  | daCompute c => exact ctxMsgGate_go.mpr h
  | daVerify c => exact ctxMsgGate_go.mpr h
  | daComputeEasy => exact msgGate_go.mpr h
  | daVerifyEasy => exact msgGate_go.mpr h
  | meInit j =>
    obtain ⟨hj, hl, hc, hk, hu⟩ := h
    exact meInitGate_go.mpr ⟨hj, hl, hc, kdfRejects_eq_false.mpr ⟨by decide, by decide, hk⟩, hu⟩
  | meEnc j => exact xtsGate_go.mpr h
  | meDec j => exact xtsGate_go.mpr h
  | bcCleanup | bcIsInit | xtsCleanup | xtsIsInit => exact h.elim

/-! ## Checks that refuse -/

/-- Whatever reason the check refuses for meets `p`. -/
def Gate.Refuses (g : Gate) (p : Refusal → Prop) : Prop := ∀ r, g = .refuse r → p r

section
variable {g h : Gate} {p q : Refusal → Prop}

theorem Gate.refuses_go : Gate.go.Refuses p := nofun
theorem Gate.refuses_raise : (Gate.raise c).Refuses p := nofun
theorem Gate.refuses_refuse (h : p r) : (Gate.refuse r).Refuses p := by rintro _ ⟨rfl⟩; exact h

theorem Gate.Refuses.andThen (hg : g.Refuses p) (hh : h.Refuses p) : (g.andThen h).Refuses p := by
  intro r hr
  cases g with
  | go => exact hh r hr
  | raise c => cases hr
  | refuse e => exact hg r hr

theorem Gate.refuses_ite {P : Prop} [Decidable P] (hg : P → g.Refuses p) (hh : ¬ P → h.Refuses p) :
    (if P then g else h).Refuses p := by
  split_ifs with hP
  exacts [hg hP, hh hP]

/-- A check that raises a status refuses only where the checks after it do. -/
theorem Gate.refuses_check {P : Prop} [Decidable P] (hh : h.Refuses p) : (if P then .raise c else h).Refuses p :=
  Gate.refuses_ite (fun _ => Gate.refuses_raise) fun _ => hh

end

/-- Why the checks of a command refuse it: 93 U2, U3, U1. -/
def CheckRefusal (i : Instr) (s : State) (r : Refusal) : Prop :=
  (r = .contextAlreadyReady ∧ ∃ l ∈ initTargets i, (s.ctxAt l).state = .ready) ∨
  (r = .spanPastTop ∧ isXts i = true ∧ 2 ^ 32 < s.regs.a3.toNat + s.regs.a1.toNat) ∨
  (r = .partialOverlap ∧ isXts i = true ∧ s.regs.a0 ≠ s.regs.a2 ∧
    s.regs.a0.toNat < s.regs.a2.toNat + s.regs.a1.toNat ∧ s.regs.a2.toNat < s.regs.a0.toNat + s.regs.a1.toNat)

/-- The slot of an init command is refused only when it is READY (40_context_lifecycle.md R127). -/
theorem bcFreshGate_refuses {k : Nat} (hi : .bc k ∈ initTargets i) : (bcFreshGate k s).Refuses (CheckRefusal i s) :=
  Gate.refuses_ite (fun h => Gate.refuses_refuse (Or.inl ⟨rfl, _, hi, BlockCtx.isReady_iff.mp h⟩)) fun _ => Gate.refuses_go

/-- The same of an XTS slot, one of whose inner contexts is READY. -/
theorem xcFreshGate_refuses {j : Nat} (hd : .xcData j ∈ initTargets i) (hw : .xcTweak j ∈ initTargets i) :
    (xcFreshGate j s).Refuses (CheckRefusal i s) := by
  refine Gate.refuses_ite (fun h => Gate.refuses_refuse (Or.inl ⟨rfl, ?_⟩)) fun _ => Gate.refuses_go
  rcases Bool.or_eq_true_iff.mp h with h | h
  · exact ⟨_, hd, BlockCtx.isReady_iff.mp h⟩
  · exact ⟨_, hw, BlockCtx.isReady_iff.mp h⟩

/-- The two conditions outside the document (43_xts.md R184, 93 U1, U3). -/
theorem xtsDomain_refuses (hi : isXts i = true) : (xtsDomain s).Refuses (CheckRefusal i s) := by
  refine Gate.refuses_ite (fun h => Gate.refuses_refuse (Or.inr (Or.inl ⟨rfl, hi, h⟩))) fun _ =>
    Gate.refuses_ite (fun h => Gate.refuses_refuse (Or.inr (Or.inr ⟨rfl, hi, ?_⟩))) fun _ => Gate.refuses_go
  simpa [partlyOverlap, BitVec.toNat_inj, and_assoc] using h

theorem xtsGate_refuses (j : Nat) (hi : isXts i = true) : (xtsGate j s).Refuses (CheckRefusal i s) :=
  Gate.Refuses.andThen (Gate.refuses_check <| Gate.refuses_check <| Gate.refuses_check <| Gate.refuses_check <|
    Gate.refuses_check Gate.refuses_go) (xtsDomain_refuses hi)

theorem ctxMsgGate_refuses (k : Nat) {p : Refusal → Prop} : (ctxMsgGate k s).Refuses p :=
  Gate.refuses_check <| Gate.refuses_check <| Gate.refuses_check Gate.refuses_go

theorem msgGate_refuses {p : Refusal → Prop} : (msgGate s).Refuses p := Gate.refuses_check <| Gate.refuses_check Gate.refuses_go

/-- The checks of a command refuse it for a case of 93 that holds of its operands. -/
theorem gateOf_refuses (i : Instr) (s : State) : (gateOf i s).Refuses (CheckRefusal i s) := by
  have check {P : Prop} [Decidable P] : (if P then .raise .invalidArgs else .go : Gate).Refuses (CheckRefusal i s) :=
    Gate.refuses_check Gate.refuses_go
  cases i with
  | bcInitKey k => exact check.andThen (check.andThen (bcFreshGate_refuses (by simp [initTargets])))
  | bcInitDevkey k => exact check.andThen (bcFreshGate_refuses (by simp [initTargets]))
  | bcCleanup k => exact check
  | bcIsInit k => exact Gate.refuses_go
  | xtsInit j => exact check.andThen (check.andThen (xcFreshGate_refuses (by simp [initTargets]) (by simp [initTargets])))
  | xtsCleanup j => exact check
  | xtsIsInit j => exact Gate.refuses_go
  | cmac k => exact ctxMsgGate_refuses k
  | cmacKey => exact Gate.refuses_check check
  | cmacDevkey => exact msgGate_refuses
  | kdfDerive => exact Gate.refuses_check <| Gate.refuses_check <| Gate.refuses_check check
  | xtsEnc j => exact xtsGate_refuses j rfl
  | xtsDec j => exact xtsGate_refuses j rfl
  | daInit k => exact check.andThen (bcFreshGate_refuses (by simp [initTargets]))
  | daCompute k => exact ctxMsgGate_refuses k
  | daVerify k => exact ctxMsgGate_refuses k
  | daComputeEasy => exact msgGate_refuses
  | daVerifyEasy => exact msgGate_refuses
  | meInit j =>
    exact check.andThen ((Gate.refuses_check <| Gate.refuses_check check).andThen
      (xcFreshGate_refuses (by simp [initTargets]) (by simp [initTargets])))
  | meEnc j => exact xtsGate_refuses j rfl
  | meDec j => exact xtsGate_refuses j rfl

/-! ## What the work of a command asks for -/

theorem Asks.update {L : List Access} {f : State → State} (hf : ∀ s, (f s).denied = s.denied) : Asks L (update f) := hf

theorem bcIsInitWork_asks {L : List Access} (k : Nat) : Asks L (bcIsInitWork k) :=
  .ite (.bind (.update fun _ => rfl) fun _ => .raise _) (.update fun _ => rfl)

theorem xtsIsInitWork_asks {L : List Access} (j : Nat) : Asks L (xtsIsInitWork j) :=
  .ite (.bind (.update fun _ => rfl) fun _ => .raise _) (.update fun _ => rfl)

/-- The work of a command asks for its own accesses (20_memory.md R65). -/
theorem workOf_asks (i : Instr) (q : OperandRegs) : Asks (accessesOf i q) (workOf i q) := by
  cases i with
  | bcInitKey k => exact bcInitKeyWork_asks k q
  | bcInitDevkey k => exact bcLoadDev_asks _
  | bcCleanup k => exact .update fun _ => rfl
  | bcIsInit k => exact bcIsInitWork_asks k
  | xtsInit j => exact xtsInitWork_asks j q
  | xtsCleanup j => exact .update fun _ => rfl
  | xtsIsInit j => exact xtsIsInitWork_asks j
  | cmac k => exact tagWork_asks _ _ q
  | cmacKey => exact cmacKeyWork_asks _ q
  | cmacDevkey => exact cmacDevkeyWork_asks _ q
  | kdfDerive => exact kdfDeriveWork_asks _ q
  | xtsEnc j => exact xtsWork_asks _ j _ q
  | xtsDec j => exact xtsWork_asks _ j _ q
  | daInit k => exact daLoad_asks _ _
  | daCompute k => exact tagWork_asks _ _ q
  | daVerify k => exact verifyWork_asks _ _ q
  | daComputeEasy => exact daComputeEasyWork_asks _ q
  | daVerifyEasy => exact daVerifyEasyWork_asks _ q
  | meInit j => exact meInitWork_asks _ j q
  | meEnc j => exact xtsWork_asks _ j _ q
  | meDec j => exact xtsWork_asks _ j _ q

/-! ## Every way a command is refused -/

theorem State.not_inSpace_iff : ¬ s.InSpace i ↔ ∃ q ∈ operandRanges i s.regs, q.2 ≠ 0 ∧ Config.space < q.1 + q.2 := by
  simp only [State.InSpace, not_forall, not_or, not_le, exists_prop]

/-- Settles O44: a refusal comes from the checks, from the judgement of the ranges or from an access of the work; and a
command whose checks pass is judged by its ranges next. -/
theorem stopsAreTheOpenCases : Obligations.StopsAreTheOpenCases := by
  intro i s
  refine ⟨nofun, fun r h => ?_, fun hp hq => ?_⟩
  · rw [exec_eq_run] at h
    rcases run_stops (workOf_asks i s.regs) h with hg | ⟨rfl, hs⟩ | hd
    · exact Or.inr (Or.inr (gateOf_refuses i s r hg))
    · exact Or.inl ⟨rfl, State.not_inSpace_iff.mp hs⟩
    · exact Or.inr (Or.inl hd)
  · rw [exec_eq_run]
    exact run_pastTop hp.gateOf_eq_go hq

/-! ## The row that a command follows -/

theorem Traced.imp_tag {α : Type} {l : List Event} {p : Proc α} {tag tag' : Prop} {Q : α → State → Prop}
    (h : Traced l p s tag Q) (ht : tag → tag') : Traced l p s tag' Q := by
  unfold Traced at *
  split at h
  · exact h
  · exact h.imp_right fun ⟨hc, htag, hv⟩ => ⟨hc, ht htag, hv⟩
  · exact h

/-- The work of a command whose checks pass follows the command's row of events; only a comparison ends with INVALID_TAG. -/
theorem workOf_traced (h : s.Passes i) :
    Traced (eventsOf i s.regs) (workOf i s.regs) s (.invalidTag ∈ mayEndWith i) fun _ _ => True := by
  cases i with
  | bcInitKey k => exact (bcInitKeyWork_traced k _).imp_tag False.elim
  | bcInitDevkey k => exact (bcLoadDev_traced (.bc k)).mono fun _ _ _ => trivial
  | xtsInit j => exact (xtsInitWork_traced j _).imp_tag False.elim
  | cmac k | daCompute k =>
    obtain ⟨-, -, hr, -⟩ := h
    exact (tagWork_traced _ _ hr).imp_tag False.elim
  | cmacKey => exact (cmacKeyWork_traced _ _).imp_tag False.elim
  | cmacDevkey => exact (cmacDevkeyWork_traced _ _).imp_tag False.elim
  | kdfDerive =>
    obtain ⟨-, -, -, hk⟩ := h
    exact (kdfDeriveWork_traced _ _ (kdfRejects_eq_false.mpr hk)).imp_tag False.elim
  | daInit k => exact ((daLoad_traced _ _).mono fun _ _ _ => trivial).imp_tag False.elim
  | daVerify k =>
    obtain ⟨-, -, hr, -⟩ := h
    exact (verifyWork_traced _ _ hr).imp_tag fun _ => by simp [mayEndWith]
  | daComputeEasy => exact (daComputeEasyWork_traced _ _).imp_tag False.elim
  | daVerifyEasy => exact (daVerifyEasyWork_traced _ _).imp_tag fun _ => by simp [mayEndWith]
  | meInit j =>
    obtain ⟨-, -, -, hk, -⟩ := h
    exact (meInitWork_traced _ j _ (kdfRejects_eq_false.mpr ⟨by decide, by decide, hk⟩)).imp_tag False.elim
  | xtsEnc j | xtsDec j | meEnc j | meDec j =>
    obtain ⟨-, -, hd, hw⟩ := h
    exact (xtsWork_traced _ j _ _ hw hd).imp_tag False.elim
  | bcCleanup | bcIsInit | xtsCleanup | xtsIsInit => exact h.elim

/-- A command whose checks pass and whose ranges lie inside the address space ends as its row of events does. -/
theorem exec_endsAs (hp : s.Passes i) (hs : s.InSpace i) :
    EndsAs (verdict s.denied (eventsOf i s.regs) s.primFaults s.primCalls) i (exec i s) := by
  rw [exec_eq_run]
  exact run_traced hp.gateOf_eq_go hs id (workOf_traced hp)

/-- Settles O60: the command ends as its row does; the row whose first failing call has number `n`, and the row none of whose
calls fails, come out as `verdict_failed` and `verdict_noFault` say. -/
theorem accessesAndCallsComeInOrder : Obligations.AccessesAndCallsComeInOrder := by
  intro i s hp hs
  have hend := exec_endsAs hp hs
  refine ⟨hend, fun n rest hn ha hf => ?_, fun hf ha => ?_⟩
  · rw [hf, verdict_failed (by rwa [accessesIn_eventsOf]) n rest _ (by rwa [callsIn_eventsOf hp])] at hend
    obtain ⟨t, he, -, hcalls, hst⟩ := hend
    exact ⟨t, he, hst, hcalls⟩
  · rw [State.AdmitsAll] at ha
    rw [verdict_noFault _ _ (by rwa [callsIn_eventsOf hp]), accessesIn_eventsOf, if_neg ha] at hend
    exact hend

end Sys2Proof.Machine
end

section
/-! SUPPORT. The command word: its three fields, what the decoder answers, and the rows of the opcode table by mask and match
(30_encoding.md R80 to R87). -/

namespace Sys2Proof

/-! ## The fields of a command word -/

theorem Instr.wellFormed_iff {i : Instr} : i.WellFormed ↔ i.ctx?.getD 0 < 256 := by
  unfold Instr.WellFormed Instr.ctxFits
  cases i.ctx? <;> simp

theorem Instr.rowMatch_toNat_lt (i : Instr) : i.rowMatch.toNat < 256 := by
  cases i <;> simp [rowMatch]

theorem ctxField_lt (w : Word) : ctxField w < 256 := Nat.mod_lt _ (by decide)

/-- A word is its three fields (R80). -/
theorem toNat_eq_fields (w : Word) : w.toNat = opField w + 256 * ctxField w + 65536 * rsvField w := by
  unfold opField ctxField rsvField
  omega

theorem encode_toNat {i : Instr} (hw : i.WellFormed) : (encode i).toNat = i.rowMatch.toNat + 256 * i.ctx?.getD 0 := by
  have hc := Instr.wellFormed_iff.mp hw
  cases h : i.ctx? with
  | none => simp only [encode, h, Option.getD_none]; omega
  | some c =>
    rw [h] at hc
    simp only [encode, h]
    exact Laws.RowSelect.word_toNat i.rowMatch_toNat_lt hc

/-! ## Decoding -/

theorem noCtx_eq_ok {ctx : Nat} {i j : Instr} : noCtx ctx i = .ok j ↔ ctx = 0 ∧ i = j := by
  unfold noCtx
  split_ifs with h <;> simp [h]

/-- The operation code is the row's `match`, and a row without a slot index wants `CTX` zero (R84, R85). -/
theorem decodeOp_eq_ok {op ctx : Nat} {i : Instr} :
    decodeOp op ctx = .ok i ↔ op = i.rowMatch.toNat ∧ ctx = i.ctx?.getD 0 := by
  constructor
  · intro h
    unfold decodeOp at h
    split at h <;> simp only [noCtx_eq_ok, Except.ok.injEq, reduceCtorEq] at h
    all_goals grind [Instr.rowMatch, Instr.ctx?]
  · rintro ⟨rfl, rfl⟩
    cases i <;> rfl

theorem decode_eq_ok {w : Word} {i : Instr} :
    decode w = .ok i ↔ rsvField w = 0 ∧ opField w = i.rowMatch.toNat ∧ ctxField w = i.ctx?.getD 0 := by
  unfold decode
  split_ifs with h
  · rw [decodeOp_eq_ok, and_iff_right h]
  · exact ⟨nofun, fun h' => absurd h'.1 h⟩

/-- A word decodes to the well-formed instruction that it encodes, and to no other (R84, R87). -/
theorem decode_eq_ok_iff_encode {w : Word} {i : Instr} : decode w = .ok i ↔ i.WellFormed ∧ encode i = w := by
  have hw := toNat_eq_fields w
  have hm := i.rowMatch_toNat_lt
  rw [decode_eq_ok]
  constructor
  · rintro ⟨hr, ho, hc⟩
    have hi : i.WellFormed := Instr.wellFormed_iff.mpr (hc ▸ ctxField_lt w)
    refine ⟨hi, BitVec.eq_of_toNat_eq ?_⟩
    rw [encode_toNat hi]
    omega
  · rintro ⟨hi, rfl⟩
    have hc := Instr.wellFormed_iff.mp hi
    have he := encode_toNat hi
    unfold rsvField opField ctxField
    omega

/-! ## The rows -/

/-- Every command word selects its own row. -/
theorem encode_selects_row : ∀ i : Instr, Laws.RowSelect.Statement i
  | .bcInitKey c => Laws.RowSelect.bcInitKey c
  | .bcInitDevkey c => Laws.RowSelect.bcInitDevkey c
  | .bcCleanup c => Laws.RowSelect.bcCleanup c
  | .bcIsInit c => Laws.RowSelect.bcIsInit c
  | .xtsInit c => Laws.RowSelect.xtsInit c
  | .xtsCleanup c => Laws.RowSelect.xtsCleanup c
  | .xtsIsInit c => Laws.RowSelect.xtsIsInit c
  | .cmac c => Laws.RowSelect.cmac c
  | .cmacKey => Laws.RowSelect.cmacKey
  | .cmacDevkey => Laws.RowSelect.cmacDevkey
  | .kdfDerive => Laws.RowSelect.kdfDerive
  | .xtsEnc c => Laws.RowSelect.xtsEnc c
  | .xtsDec c => Laws.RowSelect.xtsDec c
  | .daInit c => Laws.RowSelect.daInit c
  | .daCompute c => Laws.RowSelect.daCompute c
  | .daVerify c => Laws.RowSelect.daVerify c
  | .daComputeEasy => Laws.RowSelect.daComputeEasy
  | .daVerifyEasy => Laws.RowSelect.daVerifyEasy
  | .meInit c => Laws.RowSelect.meInit c
  | .meEnc c => Laws.RowSelect.meEnc c
  | .meDec c => Laws.RowSelect.meDec c

/-- `CTX` shifted back to its place is bits 15:8 of the word (R80). -/
theorem shifted_ctxField (w : Word) : (BitVec.ofNat 8 (ctxField w)).setWidth 32 <<< 8 = w &&& 0x0000FF00 := by
  have hs : BitVec.ofNat 8 (ctxField w) = w.extractLsb' 8 8 := by
    apply BitVec.eq_of_toNat_eq
    simp [ctxField, Nat.shiftRight_eq_div_pow]
  rw [hs]
  ext k hk
  interval_cases k <;> simp

/-- A word that selects a row by mask and match, the row's slot index in bits 15:8, is the row's command word. -/
theorem encode_of_selected {w : Word} {i : Instr} (hm : w &&& i.rowMask = i.rowMatch)
    (hc : ∀ c, i.ctx? = some c → c = ctxField w) : encode i = w := by
  cases h : i.ctx? with
  | none =>
    simp only [Instr.rowMask, h] at hm
    simp only [encode, h]
    exact hm.symm.trans BitVec.and_allOnes
  | some c =>
    simp only [Instr.rowMask, h] at hm
    simp only [encode, h, hc c h, ← hm, shifted_ctxField, ← BitVec.and_or_distrib_left]
    exact BitVec.and_allOnes

/-- Settles O2: a word decodes to exactly the instruction that it encodes. -/
theorem decodeOfEncode : Obligations.DecodeOfEncode := fun _ hw => decode_eq_ok_iff_encode.mpr ⟨hw, rfl⟩

/-- Settles O3: the other direction of the same equivalence. -/
theorem encodeOfDecode : Obligations.EncodeOfDecode := fun _ _ hd => decode_eq_ok_iff_encode.mp hd

/-- Settles O1: the command word of an instruction selects its row, and what selects a row is its command word. -/
theorem decodeSelectsTheRow : Obligations.DecodeSelectsTheRow := by
  intro w i
  rw [decode_eq_ok_iff_encode]
  constructor
  · rintro ⟨hw, rfl⟩
    obtain ⟨hm, hc⟩ := encode_selects_row i hw
    exact ⟨hw, hm, fun c h => (hc c h).symm⟩
  · rintro ⟨hw, hm, hc⟩
    exact ⟨hw, encode_of_selected hm hc⟩

/-- Settles O4: the decoder run on the eleven words. -/
theorem specWordsDecode : Obligations.SpecWordsDecode := ⟨rfl, rfl, rfl, rfl, rfl, rfl, rfl, rfl, rfl, rfl, rfl⟩

end Sys2Proof
end

section
/-! SUPPORT. What the host's accesses launch: illegal words, the steps of an assembler line, and the commands that answer a next
state (30_encoding.md R82, R85, R88; 60_exceptions.md R241). -/

namespace Sys2Proof.Machine

variable {i : Instr} {s : State} {w : Word} {rest : List HostAccess}

/-! ## Illegal words -/

theorem launchWord_error {e : Illegal} (h : decode w = .error e) (s : State) :
    launchWord w s = .next (s.exit .invalidArgs) := by
  rw [launchWord, h]

/-- Settles O8: a word that decodes selects a row, so this one is illegal, and launching it writes STATUS alone. -/
theorem illegalWordOnlyWritesInvalidArgs : Obligations.IllegalWordOnlyWritesInvalidArgs := by
  intro s w rest hb hn
  rw [step_cons hb]
  cases hd : decode w with
  | ok i =>
    obtain ⟨-, hm, -⟩ := (decodeSelectsTheRow w i).mp hd
    exact absurd hm (hn i)
  | error e => exact launchWord_error hd _

/-! ## Assembler lines -/

/-- The register file after the writes of an assembler line: each listed register holds its operand. -/
def OperandRegs.setAll (q : OperandRegs) (v : OpReg → Word) (l : List OpReg) : OperandRegs :=
  l.foldl (fun q r => q.set r (v r)) q

theorem OperandRegs.get_setAll (v : OpReg → Word) (l : List OpReg) (q : OperandRegs) (r : OpReg) :
    (q.setAll v l).get r = if r ∈ l then v r else q.get r := by
  induction l generalizing q with
  | nil => rfl
  | cons n l ih =>
    refine (ih (q.set n (v n))).trans ?_
    by_cases h : r = n
    · simp [h]
    · simp [h, q.get_set_other h]

theorem runSteps_one (s : State) : runSteps 1 s = step s := by
  rw [runSteps]
  cases step s <;> rfl

theorem runSteps_succ {n : Nat} {t : State} (h : step s = .next t) : runSteps (n + 1) s = runSteps n t := by
  rw [runSteps, h]

/-- One step per register write, then one for the word that follows them. -/
theorem runSteps_writes_then_launch (v : OpReg → Word) (l : List OpReg) (s : State)
    (hb : s.bus = List.zipWith (fun r x => .writeReg (.a r) x) l (l.map v) ++ .writeReg .cmd w :: rest) :
    runSteps (l.length + 1) s = launchWord w { s with regs := s.regs.setAll v l, bus := rest } := by
  induction l generalizing s with
  | nil => exact (runSteps_one s).trans (step_cons hb)
  | cons r l ih => exact (runSteps_succ (step_cons hb)).trans (ih { s with regs := s.regs.set r (v r), bus := _ } rfl)

/-- Settles O10: the writes come one per step, and the word of the line decodes to its instruction. -/
theorem assemblerLineLaunchesItsCommand : Obligations.AssemblerLineLaunchesItsCommand := by
  intro i s v rest hw hb
  refine ⟨s.regs.setAll v (operandRegs i), OperandRegs.get_setAll v _ _, ?_⟩
  rw [asmLine, List.append_assoc, List.singleton_append] at hb
  rw [runSteps_writes_then_launch v _ s hb, launchWord_ok (decodeOfEncode i hw)]

/-! ## Commands outside the open cases -/

/-- The checks of a command refuse nothing where the slot it loads is UNINIT and its span and buffers are defined. -/
theorem gateOf_ne_refuse (hu : ∀ l ∈ initTargets i, (s.ctxAt l).state = .uninit) (hx : isXts i = true → s.XtsDefined)
    (r : Refusal) : gateOf i s ≠ .refuse r := by
  intro hg
  rcases gateOf_refuses i s r hg with ⟨-, l, hl, hr⟩ | ⟨-, hi, hs⟩ | ⟨-, hi, hne, h1, h2⟩
  · rw [hu l hl] at hr
    cases hr
  · exact absurd (hx hi).1 (Nat.not_le.mpr hs)
  · obtain ⟨-, he | hd | hd⟩ := hx hi
    · exact hne he
    · omega
    · omega

/-- Settles O43: the checks do not refuse, and the work asks for admitted accesses alone. -/
theorem everyCommandAnswersOutsideTheOpenCases : Obligations.EveryCommandAnswersOutsideTheOpenCases := by
  intro i s ha hu hx
  rw [exec_eq_run]
  exact run_answers (workOf_asks i s.regs) (gateOf_ne_refuse hu hx) ha

end Sys2Proof.Machine
end

section
/-! SUPPORT. The context lifecycle commands (40_context_lifecycle.md R119 to R127): the checks of the init commands as one
condition, what a write of one slot leaves unchanged, and each command's outcome where its checks pass. -/

namespace Sys2Proof.Machine

open Spec

variable {i : Instr} {s t u : State} {e : Status} {c j : Nat}

/-! ## A command from its checks and its work -/

theorem exec_of_gate_raise (hg : gateOf i s = .raise e) : exec i s = .next (s.exit e) :=
  (exec_eq_run i s).trans (run_raise hg)

theorem exec_of_gate_refuse {r : Refusal} (hg : gateOf i s = .refuse r) : exec i s = .refused r :=
  (exec_eq_run i s).trans (run_refuse hg)

/-- A command whose checks pass and whose work ends with a value answers OK. -/
theorem exec_of_work_ok (hg : gateOf i s = .go) (hs : s.InSpace i) (hw : workOf i s.regs s = .ok () t) :
    exec i s = .next (t.exit .ok) := by
  rw [exec_eq_run, run_go hg hs, hw, finish_ok]

/-- A command without an output range whose checks pass and whose work raises FAILURE answers FAILURE. -/
theorem exec_of_work_failure (hg : gateOf i s = .go) (hs : s.InSpace i) (ho : outRange i s.regs = none)
    (hw : workOf i s.regs s = .error (.raise .failure) t) : exec i s = .next (t.exit .failure) := by
  rw [exec_eq_run, run_go hg hs, hw, finish_failure, ho, State.scribble_none]

/-! ## The checks of the init commands -/

/-- A check of the arguments before another check. -/
theorem Gate.check_andThen {P : Prop} [Decidable P] (g : Gate) :
    (if P then .raise e else .go : Gate).andThen g = if P then .raise e else g := by
  split_ifs <;> rfl

theorem bcSlotGate_raise (hc : Config.nbc ≤ c) : bcSlotGate c = .raise .invalidArgs := if_pos hc

theorem xcSlotGate_raise (hj : Config.nxc ≤ j) : xcSlotGate j = .raise .invalidArgs := if_pos hj

/-- BC_INIT_KEY tests the slot index and the pointer, then the slot (R120, R127). -/
theorem bcInitKeyGate_eq (c : Nat) (s : State) :
    bcInitKeyGate c s = if Config.nbc ≤ c ∨ s.regs.a0 = 0 then .raise .invalidArgs else bcFreshGate c s := by
  simp only [bcInitKeyGate, bcSlotGate, Gate.check_andThen, isNull_iff, ite_or]

/-- XTS_INIT tests the slot index and the two pointers, then the slot (R124, R127). -/
theorem xtsInitGate_eq (j : Nat) (s : State) :
    xtsInitGate j s =
      if Config.nxc ≤ j ∨ s.regs.a0 = 0 ∨ s.regs.a1 = 0 then .raise .invalidArgs else xcFreshGate j s := by
  simp only [xtsInitGate, xcSlotGate, Gate.check_andThen]
  simp only [Bool.or_eq_true, isNull_iff, ite_or]

/-- A READY slot fails the check of R127. -/
theorem bcFreshGate_refuse (h : (s.ctxAt (.bc c)).state = .ready) : bcFreshGate c s = .refuse .contextAlreadyReady :=
  if_pos (BlockCtx.isReady_iff.mpr h)

/-- So does an XTS slot one of whose inner contexts is READY (log 12). -/
theorem xcFreshGate_refuse (h : (s.ctxAt (.xcData j)).state = .ready ∨ (s.ctxAt (.xcTweak j)).state = .ready) :
    xcFreshGate j s = .refuse .contextAlreadyReady :=
  if_pos (Bool.or_eq_true_iff.mpr (h.imp BlockCtx.isReady_iff.mpr BlockCtx.isReady_iff.mpr))

/-- ME_INIT on a slot and operands that pass its argument checks tests the slot (45_mem_encrypt.md R221). -/
theorem meInitGate_of_args (hj : j < Config.nxc) (hl : Given s.regs.a2 s.regs.a3) (hc : Given s.regs.a4 s.regs.a5)
    (hk : s.regs.a3.toNat + s.regs.a5.toNat ≤ 250) : meInitGate j s = xcFreshGate j s := by
  have hr : kdfRejects 32 s.regs.a3.toNat s.regs.a5.toNat = false :=
    kdfRejects_eq_false.mpr ⟨by decide, by decide, hk⟩
  rw [meInitGate, xcSlotGate_go.mpr hj, nullWithLength_eq_false.mpr hl, nullWithLength_eq_false.mpr hc, hr]
  rfl

/-- Settles O18: the argument checks pass, and the check of the slot that follows them refuses. -/
theorem initOfAReadySlotIsRefused : Obligations.InitOfAReadySlotIsRefused := by
  refine ⟨fun c s hc hr => ?_, fun j s hj hr => ?_⟩
  · have hslot : (bcSlotGate c).andThen (bcFreshGate c s) = .refuse .contextAlreadyReady := by
      rw [bcSlotGate_go.mpr hc, Gate.go_andThen, bcFreshGate_refuse hr]
    refine ⟨fun h0 => exec_of_gate_refuse ?_, exec_of_gate_refuse hslot, exec_of_gate_refuse hslot⟩
    rw [gateOf, bcInitKeyGate_eq, if_neg (not_or.mpr ⟨Nat.not_le_of_lt hc, h0⟩), bcFreshGate_refuse hr]
  · refine ⟨fun h0 h1 => exec_of_gate_refuse ?_, fun hl hc hk => exec_of_gate_refuse ?_⟩
    · rw [gateOf, xtsInitGate_eq, if_neg (not_or.mpr ⟨Nat.not_le_of_lt hj, not_or.mpr ⟨h0, h1⟩⟩), xcFreshGate_refuse hr]
    · rw [gateOf, meInitGate_of_args hj hl hc hk, xcFreshGate_refuse hr]

/-- Settles O19: the first checks of these commands raise INVALID_ARGS. -/
theorem lifecycleRejectsBadArguments : Obligations.LifecycleRejectsBadArguments := by
  refine ⟨fun c s hc => ?_, fun j s hj => ?_, fun c s h0 => ?_, fun j s h0 => ?_⟩
  · have hslot (g : Gate) : (bcSlotGate c).andThen g = .raise .invalidArgs := by rw [bcSlotGate_raise hc, Gate.raise_andThen]
    exact ⟨exec_of_gate_raise (hslot _), exec_of_gate_raise (hslot _), exec_of_gate_raise (bcSlotGate_raise hc),
      exec_of_gate_raise (hslot _)⟩
  · have hslot (g : Gate) : (xcSlotGate j).andThen g = .raise .invalidArgs := by rw [xcSlotGate_raise hj, Gate.raise_andThen]
    exact ⟨exec_of_gate_raise (hslot _), exec_of_gate_raise (xcSlotGate_raise hj), exec_of_gate_raise (hslot _)⟩
  · exact exec_of_gate_raise ((bcInitKeyGate_eq c s).trans (if_pos (Or.inr h0)))
  · exact exec_of_gate_raise ((xtsInitGate_eq j s).trans (if_pos (Or.inr h0)))

/-! ## One slot written -/

/-- From `s` to `t` block cipher slot `c` became `v`, and of the rest STATUS and the oracle's draws alone moved. -/
structure WritesBc (s t : State) (c : Nat) (v : BlockCtx) : Prop where
  target : t.ctxAt (.bc c) = v
  others : ∀ k, k ≠ c → t.ctxAt (.bc k) = s.ctxAt (.bc k)
  frame : OnlyBc s t
  hidden : t.hidden = s.hidden

/-- The same of XTS slot `j`. -/
structure WritesXc (s t : State) (j : Nat) (v : XtsCtx) : Prop where
  data : t.ctxAt (.xcData j) = v.data
  tweak : t.ctxAt (.xcTweak j) = v.tweak
  others : ∀ k, k ≠ j → t.ctxAt (.xcData k) = s.ctxAt (.xcData k) ∧ t.ctxAt (.xcTweak k) = s.ctxAt (.xcTweak k)
  frame : OnlyXc s t
  hidden : t.hidden = s.hidden

theorem writesBc_setCtx (hc : c < Config.nbc) (s : State) (f : List Bool) (n : Nat) (v : BlockCtx) (e : Status) :
    WritesBc s ((({ s with primFaults := f, primCalls := n } : State).setCtx (.bc c) v).exit e) c v where
  target := (State.ctxAt_exit _ e _).trans (State.ctxAt_setCtx_self _ (l := .bc c) hc v)
  others k hk := (State.ctxAt_exit _ e _).trans (State.ctxAt_setCtx_other _ (l' := .bc k) (by simpa using hk) v)
  frame := ⟨rfl, rfl, rfl, rfl, rfl, rfl, rfl, rfl⟩
  hidden := rfl

theorem writesXc_setXc (hj : j < Config.nxc) (s : State) (f : List Bool) (n : Nat) (v : XtsCtx) (e : Status) :
    WritesXc s ((({ s with primFaults := f, primCalls := n } : State).setXc j v).exit e) j v where
  data := (State.ctxAt_exit _ e _).trans ((State.ctxAt_setXc_data _ hj v j).trans (if_pos rfl))
  tweak := (State.ctxAt_exit _ e _).trans ((State.ctxAt_setXc_tweak _ hj v j).trans (if_pos rfl))
  others k hk := ⟨(State.ctxAt_exit _ e _).trans ((State.ctxAt_setXc_data _ hj v k).trans (if_neg hk)),
    (State.ctxAt_exit _ e _).trans ((State.ctxAt_setXc_tweak _ hj v k).trans (if_neg hk))⟩
  frame := ⟨rfl, rfl, rfl, rfl, rfl, rfl, rfl, rfl⟩
  hidden := rfl

/-! ## Block cipher slots -/

/-- BC_INIT_KEY reads its key and calls the primitive once (R120, R115). -/
theorem bcInitKeyWork_run (h : s.AdmitsAll (accessesOf (.bcInitKey c) s.regs)) :
    bcInitKeyWork c s.regs s = bcLoad (.bc c) (blockOfBytes (s.mem.read s.regs.a0.toNat 16)) s :=
  bind_run_ok (memRead_ok h (by simp [accessesOf, readAt]) rfl)

/-- A command whose work is one load of slot `c` with `v`: the slot holds `v`, or is cleaned when the call fails (R115, R116). -/
theorem exec_loads_slot (hc : c < Config.nbc) (hg : gateOf i s = .go) (hs : s.InSpace i) (ho : outRange i s.regs = none)
    (v : BlockCtx)
    (hw : workOf i s.regs s = if s.nextFault then .error (.raise .failure) (s.drawFault.setCtx (.bc c) .clear)
      else .ok () (s.drawFault.setCtx (.bc c) v)) :
    ∃ t, exec i s = .next t ∧
      (s.nextFault = false → t.status = Status.ok.word ∧ t.ctxAt (.bc c) = v) ∧
      (s.nextFault = true → t.status = Status.failure.word ∧ t.ctxAt (.bc c) = .clear) ∧
      (∀ k, k ≠ c → t.ctxAt (.bc k) = s.ctxAt (.bc k)) ∧
      OnlyBc s t ∧ t.hidden = s.hidden ∧ t.primCalls = s.primCalls + 1 := by
  have writes (v : BlockCtx) (e : Status) : WritesBc s ((s.drawFault.setCtx (.bc c) v).exit e) c v :=
    writesBc_setCtx hc s _ _ v e
  cases hf : s.nextFault with
  | false =>
    rw [hf] at hw
    have h := writes v .ok
    exact ⟨_, exec_of_work_ok hg hs hw, fun _ => ⟨rfl, h.target⟩, nofun, h.others, h.frame, h.hidden, rfl⟩
  | true =>
    rw [hf] at hw
    have h := writes .clear .failure
    exact ⟨_, exec_of_work_failure hg hs ho hw, nofun, fun _ => ⟨rfl, h.target⟩, h.others, h.frame, h.hidden, rfl⟩

/-- Settles O11: the checks pass, the key is read, and the load decides. -/
theorem bcInitKeyLoadsTheKey : Obligations.BcInitKeyLoadsTheKey := by
  intro c s hc h0 ⟨hs, ha⟩ hu
  have hp : s.Passes (.bcInitKey c) := ⟨hc, h0, hu⟩
  exact exec_loads_slot hc hp.gateOf_eq_go hs rfl _ (bcInitKeyWork_run ha)

/-- A command with no operand range lies inside the address space. -/
theorem State.inSpace_of_no_ranges (h : operandRanges i s.regs = []) : s.InSpace i := by
  intro q hq
  rw [h] at hq
  cases hq

/-- Settles O12: the work is the load itself, and the key of a device context is `DEVKEY`. -/
theorem bcInitDevkeySelectsTheDeviceKey : Obligations.BcInitDevkeySelectsTheDeviceKey := by
  intro c s hc hu
  have hp : s.Passes (.bcInitDevkey c) := ⟨hc, hu⟩
  obtain ⟨t, he, hok, hfail, hothers, hframe, hrest⟩ :=
    exec_loads_slot hc hp.gateOf_eq_go (State.inSpace_of_no_ranges rfl) rfl ⟨.ready, .device, 0⟩ rfl
  refine ⟨t, he, fun hf => ?_, hfail, hothers, hframe, hrest⟩
  obtain ⟨hst, hctx⟩ := hok hf
  obtain ⟨-, -, -, -, hdev, -⟩ := hframe
  exact ⟨hst, hctx, by rw [hctx, State.keyOf_device, hdev]⟩

/-- Settles O13: the work cleans the slot and calls no primitive. -/
theorem bcCleanupCleansTheSlot : Obligations.BcCleanupCleansTheSlot := by
  intro c s hc
  have h : WritesBc s ((s.setCtx (.bc c) .clear).exit .ok) c .clear := writesBc_setCtx hc s s.primFaults s.primCalls .clear .ok
  exact ⟨_, exec_of_work_ok (bcSlotGate_go.mpr hc) (State.inSpace_of_no_ranges rfl) rfl, rfl, h.target, h.others, h.frame,
    h.hidden, rfl⟩

/-- Settles O14: the equation of BC_IS_INIT, an index in range and out of it. -/
theorem bcIsInitReportsTheFlag : Obligations.BcIsInitReportsTheFlag := by
  refine ⟨fun _ => ⟨rfl, rfl⟩, fun c s hc => ?_, fun c s hc => ?_⟩
  · rw [exec_bcIsInit, if_pos hc]
    simp only [State.exit, State.setResult, State.bcReady, BlockCtx.isReady_iff]
  · rw [exec_bcIsInit, if_neg (Nat.not_lt_of_le hc)]
    rfl

/-! ## XTS slots -/

/-- XTS_INIT reads its two keys and loads them (R124). -/
theorem xtsInitWork_run (h : s.AdmitsAll (accessesOf (.xtsInit j) s.regs)) :
    xtsInitWork j s.regs s =
      xtsLoad j (blockOfBytes (s.mem.read s.regs.a0.toNat 16)) (blockOfBytes (s.mem.read s.regs.a1.toNat 16)) s :=
  (bind_run_ok (memRead_ok h (by simp [accessesOf, readAt]) rfl)).trans
    (bind_run_ok (memRead_ok h (by simp [accessesOf, readAt]) rfl))

/-- Settles O15: after the checks and the two reads, `XTS_Load` loads both keys or, when one of its calls fails, cleans both
inner contexts. -/
theorem xtsInitLoadsBothKeysOrNeither : Obligations.XtsInitLoadsBothKeysOrNeither := by
  intro j s hj h0 h1 ⟨hs, ha⟩ hd hw
  have hp : s.Passes (.xtsInit j) := ⟨hj, h0, h1, hd, hw⟩
  have hwork := xtsInitWork_run ha
  by_cases hf : s.nextFault = true ∨ s.drawFault.nextFault = true
  · obtain ⟨f, n, hload⟩ := xtsLoad_failure j (blockOfBytes (s.mem.read s.regs.a0.toNat 16))
      (blockOfBytes (s.mem.read s.regs.a1.toNat 16)) hf
    have h := writesXc_setXc hj s f n .clear .failure
    refine ⟨_, exec_of_work_failure hp.gateOf_eq_go hs rfl (hwork.trans hload), fun hf1 hf2 => ?_,
      fun _ => ⟨rfl, h.data, h.tweak⟩, h.others, h.frame, h.hidden⟩
    simp [hf1, hf2] at hf
  · obtain ⟨hf1, hf2⟩ : s.nextFault = false ∧ s.drawFault.nextFault = false := by simpa using hf
    have h : WritesXc s _ j _ := writesXc_setXc hj s s.drawFault.drawFault.primFaults s.drawFault.drawFault.primCalls
      ⟨⟨.ready, .loaded, blockOfBytes (s.mem.read s.regs.a0.toNat 16)⟩,
       ⟨.ready, .loaded, blockOfBytes (s.mem.read s.regs.a1.toNat 16)⟩⟩ .ok
    exact ⟨_, exec_of_work_ok hp.gateOf_eq_go hs (hwork.trans (xtsLoad_ok j _ _ hf1 hf2)),
      fun _ _ => ⟨rfl, h.data, h.tweak, rfl⟩, fun h' => absurd h' hf, h.others, h.frame, h.hidden⟩

/-- Settles O16: the work cleans both inner contexts and calls no primitive; a bad index ends at the first check. -/
theorem xtsCleanupCleansBothContexts : Obligations.XtsCleanupCleansBothContexts := by
  refine ⟨fun _ => ⟨rfl, rfl, rfl⟩, fun j s hj => ?_, fun j s hj => exec_of_gate_raise (xcSlotGate_raise hj)⟩
  have hwork : workOf (.xtsCleanup j) s.regs s = .ok () (s.setXc j .clear) :=
    congrArg (EStateM.Result.ok ()) (State.xcClean_eq j s)
  have h : WritesXc s ((s.setXc j .clear).exit .ok) j .clear := writesXc_setXc hj s s.primFaults s.primCalls .clear .ok
  exact ⟨_, exec_of_work_ok (xcSlotGate_go.mpr hj) (State.inSpace_of_no_ranges rfl) hwork, rfl, h.data, h.tweak, h.others,
    h.frame, h.hidden, rfl⟩

/-- Settles O17: the equation of XTS_IS_INIT, an index in range and out of it. -/
theorem xtsIsInitReportsBothFlags : Obligations.XtsIsInitReportsBothFlags := by
  refine ⟨fun _ => ⟨rfl, rfl⟩, fun j s hj => ?_, fun j s hj => ?_⟩
  · rw [exec_xtsIsInit, if_pos hj]
    simp only [State.exit, State.setResult, State.xcReady_iff]
  · rw [exec_xtsIsInit, if_neg (Nat.not_lt_of_le hj)]
    rfl

/-! ## The two inner contexts of an XTS slot -/

/-- The two inner contexts of every XTS slot are both READY or both UNINIT (10_state.md R28). -/
def State.InnerAgree (s : State) : Prop := ∀ j, (s.ctxAt (.xcData j)).state = (s.ctxAt (.xcTweak j)).state

theorem State.innerAgree_resetEvent (s : State) : s.resetEvent.InnerAgree := fun j => by
  rw [State.ctxAt_resetEvent, State.ctxAt_resetEvent]

/-- A rejected command writes no context, and the work of any other keeps the agreement (`Effect.agree`). -/
theorem exec_innerAgree (h : exec i s = .next t) (hs : s.InnerAgree) : t.InnerAgree := by
  rcases exec_next_cases h with ⟨c, -, rfl⟩ | ⟨-, u, c, he, rfl⟩
  · exact hs
  · intro j
    rw [ctxAt_ended, ctxAt_ended]
    exact he.agree hs j

theorem launchWord_innerAgree {w : Word} (h : launchWord w s = .next t) (hs : s.InnerAgree) : t.InnerAgree := by
  rcases launchWord_next h with ⟨rfl, -⟩ | ⟨i, -, he⟩
  · exact hs
  · exact exec_innerAgree he hs

theorem hostAccess_innerAgree {h : HostAccess} (ht : hostAccess h s = .next t) (hs : s.InnerAgree) : t.InnerAgree := by
  by_cases hr : h = .reset
  · subst hr
    cases ht
    exact s.innerAgree_resetEvent
  by_cases hc : ∀ w, h ≠ .writeReg .cmd w ∧ h ≠ .cmdReset w
  · obtain ⟨q, d, m, rfl, -⟩ := hostAccess_other hc hr ht
    exact hs
  · simp only [not_forall, ← or_iff_not_and_not] at hc
    obtain ⟨w, rfl | rfl⟩ := hc
    · exact launchWord_innerAgree ht hs
    · rcases abortByReset_next ht with rfl | ⟨i, u, -, rfl⟩ <;> exact State.innerAgree_resetEvent _

/-- Settles O53: all contexts are clear after reset, and a step is idle or one access of the host. -/
theorem xtsInnerContextsAgree : Obligations.XtsInnerContextsAgree := by
  refine ⟨fun j => by rw [State.ctxAt_reset, State.ctxAt_reset], fun s t hs h => ?_, fun _ _ => State.xcReady_iff⟩
  cases hb : s.bus with
  | nil =>
    rw [step, hb] at h
    cases h
    exact hs
  | cons a rest =>
    rw [step_cons hb] at h
    exact hostAccess_innerAgree (s := { s with bus := rest }) h hs

/-! ## The device key through a slot and through the wrapper -/

/-- The work of CMAC_DEVKEY when no call fails: the tag under `DEVKEY` at `A2` (41_cmac.md R148). -/
theorem cmacDevkeyWork_ok (P : Params) (r : OperandRegs) (ha : s.AdmitsAll [readAt r.a0 r.a1.toNat, writeAt r.a2 16])
    (hf : s.NoFault (1 + cmacCalls r.a1.toNat)) :
    ∃ x, cmacDevkeyWork P r s = .ok () { s.drawFaults (1 + cmacCalls r.a1.toNat) with
      mem := s.mem.write r.a2.toNat (bytesOfBlock (cmacTag (P.enc s.devKey) (s.mem.read r.a0.toNat r.a1.toNat)))
      hidden := s.hidden.afterTransient x } := by
  obtain ⟨x, h⟩ := cmacDev_ok P (s.mem.read r.a0.toNat r.a1.toNat) (by rw [Memory.length_read]; exact hf)
  rw [Memory.length_read] at h
  exact ⟨x, (bind_run_ok (memRead_ok ha (by simp [readAt]) rfl)).trans ((bind_run_ok h).trans
    (memWrite_ok ha (n := 16) (by simp [writeAt]) (by simp) (by rfl)))⟩

/-- CMAC on a ready slot whose accesses are admitted and whose calls do not fail: the tag under the slot's key at `A2`, and
STATUS OK (R146). -/
theorem exec_cmac_ok (hp : s.Passes (.cmac c)) (ha : s.Admits (.cmac c)) (hf : s.NoFault (cmacCalls s.regs.a1.toNat)) :
    ∃ t, exec (.cmac c) s = .next t ∧ t.status = Status.ok.word ∧
      t.mem = s.mem.write s.regs.a2.toNat (bytesOfBlock (cmacTag (s.encUnder (.bc c)) s.message)) := by
  have hgate := hp.gateOf_eq_go
  obtain ⟨-, -, hr, -⟩ := hp
  obtain ⟨x, hw⟩ := tagWork_ok Config.params (.bc c) s.regs hr ha.2 hf
  exact ⟨_, exec_of_work_ok hgate ha.1 hw, rfl, rfl⟩

/-- The same of CMAC_DEVKEY, under `DEVKEY` (R148). -/
theorem exec_cmacDevkey_ok (hp : s.Passes .cmacDevkey) (ha : s.Admits .cmacDevkey)
    (hf : s.NoFault (1 + cmacCalls s.regs.a1.toNat)) :
    ∃ t, exec .cmacDevkey s = .next t ∧ t.status = Status.ok.word ∧
      t.mem = s.mem.write s.regs.a2.toNat (bytesOfBlock (cmacTag s.encDev s.message)) := by
  obtain ⟨x, hw⟩ := cmacDevkeyWork_ok Config.params s.regs ha.2 hf
  exact ⟨_, exec_of_work_ok hp.gateOf_eq_go ha.1 hw, rfl, rfl⟩

/-- Settles O28: BC_INIT_DEVKEY leaves a slot whose key is `DEVKEY`, with memory and operands as they were, so CMAC on the
slot writes the tag that CMAC_DEVKEY writes. -/
theorem devkeySlotTagIsTheWrappersTag : Obligations.DevkeySlotTagIsTheWrappersTag := by
  intro c s hc hu h2 hgiven ha hf
  obtain ⟨v, hv, hvst, hvmem⟩ := exec_cmacDevkey_ok ⟨h2, hgiven⟩ ha hf
  set t : State := (s.drawFault.setCtx (.bc c) ⟨.ready, .device, 0⟩).exit .ok with ht
  have hinit : exec (.bcInitDevkey c) s = .next t := by
    have hp : s.Passes (.bcInitDevkey c) := ⟨hc, hu⟩
    exact exec_of_work_ok hp.gateOf_eq_go (State.inSpace_of_no_ranges rfl) (bcLoadDev_ok _ (hf.head (by simp [callsOf])))
  have hslot : t.ctxAt (.bc c) = ⟨.ready, .device, 0⟩ := (writesBc_setCtx hc s _ _ ⟨.ready, .device, 0⟩ .ok).target
  have hcalls : t.NoFault (cmacCalls t.regs.a1.toNat) := hf.tail (k := 1) (by simp [ht]) (by simp [callsOf, ht])
  obtain ⟨u, hcmac, hust, humem⟩ := exec_cmac_ok (s := t) ⟨hc, h2, by rw [hslot], hgiven⟩ ha hcalls
  have henc : t.encUnder (.bc c) = s.encDev := by rw [State.encUnder, hslot]; rfl
  refine ⟨t, u, v, hinit, hcmac, hv, ?_, hust.trans hvst.symm⟩
  rw [humem, hvmem, henc]
  rfl

end Sys2Proof.Machine
end

section
/-! SUPPORT. The doubling `dbl_be` (41_cmac.md R141): the bytes of a block as its bits, and of the doubled block. -/

namespace Sys2Proof.Machine

/-! ## The bytes of a block -/

/-- `LE_n(v)[i]` (00_scope.md R10). -/
theorem getElem_leBytes (n v i : Nat) (hi : i < (leBytes n v).length) :
    (leBytes n v)[i] = BitVec.ofNat 8 (v / 256 ^ i) := by
  induction n generalizing v i with
  | zero => simp at hi
  | succ n ih =>
    cases i with
    | zero => simp [leBytes]
    | succ i => simp only [leBytes, List.getElem_cons_succ, ih, Nat.div_div_eq_div_mul, Nat.pow_succ']

/-- Byte `i` of a block: byte 0 holds bits 127 to 120 (log 22). -/
theorem getD_bytesOfBlock (x : Block) {i : Nat} (hi : i < 16) :
    (bytesOfBlock x).getD i 0 = x.extractLsb' (8 * (15 - i)) 8 := by
  rw [List.getD_eq_getElem _ _ (by simpa using hi)]
  apply BitVec.eq_of_toNat_eq
  simp only [bytesOfBlock, beBytes, List.getElem_reverse, length_leBytes, getElem_leBytes, BitVec.toNat_ofNat,
    BitVec.extractLsb'_toNat, Nat.shiftRight_eq_div_pow, Nat.pow_mul]

/-- The big-endian integer of the sixteen bytes is the block's number. -/
theorem intBE_bytesOfBlock (x : Block) : intBE (bytesOfBlock x) = x.toNat := by
  rw [intBE, bytesOfBlock, beBytes, List.reverse_reverse, intLE_leBytes]
  exact Nat.mod_eq_of_lt x.isLt

/-! ## The doubling -/

/-- The doubling is a shift and an XOR. -/
theorem dblBE_eq (x : Block) : dblBE x = x <<< 1 ^^^ (if x.msb then rb else 0) := by
  unfold dblBE
  split_ifs <;> simp

/-- `dbl_be` of the number. -/
theorem toNat_dblBE (x : Block) :
    (dblBE x).toNat = Nat.xor (2 * x.toNat % 2 ^ 128) (if 2 ^ 127 ≤ x.toNat then 0x87 else 0) := by
  have hshift : (x <<< 1).toNat = 2 * x.toNat % 2 ^ 128 := by
    rw [BitVec.toNat_shiftLeft, Nat.shiftLeft_eq, pow_one, Nat.mul_comm]
  have hcarry : (if x.msb then rb else 0).toNat = if 2 ^ 127 ≤ x.toNat then 0x87 else 0 := by
    rw [BitVec.msb_eq_decide]
    simp only [decide_eq_true_eq]
    split_ifs <;> rfl
  rw [dblBE_eq, BitVec.toNat_xor, hshift, hcarry]
  rfl

/-- A byte above the lowest takes the top bit of the byte below it. -/
theorem extractLsb'_shiftLeft_one (x : Block) {k : Nat} (hk : k + 16 ≤ 128) :
    (x <<< 1).extractLsb' (k + 8) 8 = x.extractLsb' (k + 8) 8 <<< 1 ||| x.extractLsb' k 8 >>> 7 := by
  ext j hj
  have hbit : k + 8 + j < 128 := by omega
  simp only [BitVec.getElem_or, BitVec.getElem_extractLsb', BitVec.getLsbD_shiftLeft, BitVec.getElem_shiftLeft,
    BitVec.getElem_ushiftRight, BitVec.getLsbD_extractLsb', hbit]
  cases j <;> simp [← Nat.add_assoc]

/-- The lowest byte takes a zero. -/
theorem extractLsb'_zero_shiftLeft_one (x : Block) : (x <<< 1).extractLsb' 0 8 = x.extractLsb' 0 8 <<< 1 := by
  ext j hj
  have hbit : 0 + j < 128 := by omega
  simp only [BitVec.getElem_extractLsb', BitVec.getLsbD_shiftLeft, BitVec.getElem_shiftLeft, hbit]
  cases j <;> simp

/-- `RB` lies in the lowest byte. -/
theorem extractLsb'_rb {k : Nat} (hk : 8 ≤ k) : rb.extractLsb' k 8 = 0#8 := by
  apply BitVec.eq_of_toNat_eq
  have : (0x87 : Nat) < 2 ^ k := (by decide : 0x87 < 2 ^ 8).trans_le (Nat.pow_le_pow_right (by decide) hk)
  simp [rb, Nat.shiftRight_eq_div_pow, Nat.div_eq_of_lt this]

/-- The top bit of byte 0 is the block's. -/
theorem msb_extractLsb'_top (x : Block) : (x.extractLsb' 120 8).msb = x.msb := by
  simp [BitVec.msb_eq_getLsbD_last]

/-- Bytes 0 to 14 of the doubled block (R141). -/
theorem getD_dblBE_of_le (x : Block) {i : Nat} (hi : i ≤ 14) :
    (bytesOfBlock (dblBE x)).getD i 0 =
      (bytesOfBlock x).getD i 0 <<< 1 ||| (bytesOfBlock x).getD (i + 1) 0 >>> 7 := by
  have hpos : 8 * (15 - i) = 8 * (15 - (i + 1)) + 8 := by omega
  have hcarry : (if x.msb then rb else 0).extractLsb' (8 * (15 - i)) 8 = 0#8 := by
    split_ifs
    · exact extractLsb'_rb (by omega)
    · simp
  rw [getD_bytesOfBlock _ (by omega), getD_bytesOfBlock _ (by omega), getD_bytesOfBlock _ (by omega), dblBE_eq,
    BitVec.extractLsb'_xor, hcarry, BitVec.xor_zero, hpos, extractLsb'_shiftLeft_one x (by omega)]

/-- Byte 15 of the doubled block (R141). -/
theorem getD_dblBE_last (x : Block) :
    (bytesOfBlock (dblBE x)).getD 15 0 =
      (bytesOfBlock x).getD 15 0 <<< 1 ^^^ (if ((bytesOfBlock x).getD 0 0).msb then 0x87 else 0) := by
  have hcarry : (if x.msb then rb else 0).extractLsb' 0 8 = if x.msb then 0x87 else 0 := by split_ifs <;> rfl
  rw [getD_bytesOfBlock _ (by decide), getD_bytesOfBlock _ (by decide), getD_bytesOfBlock _ (by decide), dblBE_eq,
    BitVec.extractLsb'_xor, msb_extractLsb'_top, ← hcarry, ← extractLsb'_zero_shiftLeft_one]

/-- Settles O20: the number and the bytes of the doubled block; the two doublings differ where the carry goes. -/
theorem dblBeDoublesBigEndian : Obligations.DblBeDoublesBigEndian := by
  refine ⟨fun x => ⟨?_, fun i hi => getD_dblBE_of_le x hi, getD_dblBE_last x⟩, fun h => ?_⟩
  · rw [intBE_bytesOfBlock, ← toNat_dblBE, bytesOfBlock]
  · exact absurd (congrFun h 0x80000000000000000000000000000000) (by decide)

end Sys2Proof.Machine
end

section
/-! SUPPORT. The CMAC commands (41_cmac.md): the tag of the two shortest paths, the commands that end with a tag at `A2`, and
the checks of the commands on a message as one condition each. -/

namespace Sys2Proof.Machine

open Spec

variable {i : Instr} {s : State}

/-! ## A command whose work ends with a tag -/

/-- A command that ends with the block `y` at `A2` alone and `n` primitive calls made: OK, the tag in place and the rest of
memory, the slots, RESULT and the registers as they were (R146, 20_memory.md R65). -/
theorem exec_writes_tag (hg : gateOf i s = .go) (hs : s.InSpace i) (ho : outRange i s.regs = some (s.regs.a2.toNat, 16))
    (hm : s.mem.wf = true) {n : Nat} {y : Block} {h : Hidden}
    (hw : workOf i s.regs s =
      .ok () { s.drawFaults n with mem := s.mem.write s.regs.a2.toNat (bytesOfBlock y), hidden := h }) :
    ∃ t, exec i s = .next t ∧ t.status = Status.ok.word ∧ t.mem.read s.regs.a2.toNat 16 = bytesOfBlock y ∧
      OnlyMem s t s.regs.a2.toNat 16 ∧ t.hidden = h ∧ t.primCalls = s.primCalls + n := by
  have hlen : (bytesOfBlock y).length = 16 := length_bytesOfBlock y
  have hread := Memory.read_write_self hm s.regs.a2.toNat (bytesOfBlock y) (by rw [hlen]; exact hs.tag ho)
  rw [hlen] at hread
  have hbut (p : Nat) (hp : p < s.regs.a2.toNat ∨ s.regs.a2.toNat + 16 ≤ p) :=
    Memory.get_write_other s.mem s.regs.a2.toNat (bytesOfBlock y) (hlen.symm ▸ hp)
  exact ⟨_, exec_of_work_ok hg hs hw, rfl, hread, ⟨hbut, ⟨rfl, rfl⟩, rfl, rfl, rfl, rfl, rfl, rfl⟩, rfl, rfl⟩

/-- Settles O22: CMAC and DA_COMPUTE have the same checks, accesses, calls and work, and the work is `tagWork` on the slot. -/
theorem cmacWritesTheTag : Obligations.CmacWritesTheTag := by
  intro c i s hi hc hr h2 hgiven ⟨hs, ha⟩ hf hm
  have hgate : gateOf i s = .go := by rcases hi with rfl | rfl <;> exact ctxMsgGate_go.mpr ⟨hc, h2, hr, hgiven⟩
  have hout : outRange i s.regs = some (s.regs.a2.toNat, 16) := by rcases hi with rfl | rfl <;> rfl
  have hcalls : callsOf i s.regs = cmacCalls s.regs.a1.toNat := by rcases hi with rfl | rfl <;> rfl
  have hacc : accessesOf i s.regs = [readAt s.regs.a0 s.regs.a1.toNat, writeAt s.regs.a2 16] := by
    rcases hi with rfl | rfl <;> rfl
  have hwork : workOf i s.regs = tagWork Config.params (.bc c) s.regs := by rcases hi with rfl | rfl <;> rfl
  rw [hcalls] at hf ⊢
  obtain ⟨x, hw⟩ := tagWork_ok Config.params (.bc c) s.regs hr (hacc ▸ ha) hf
  obtain ⟨t, ht⟩ := exec_writes_tag hgate hs hout hm (hwork ▸ hw)
  exact ⟨t, x, ht⟩

/-! ## The two subkey paths -/

/-- A message of at most one block is its last block: nothing is chained before it (R143). -/
theorem cmacTag_of_length_le (E : Block → Block) {m : List Byte} (h : m.length ≤ 16) :
    cmacTag E m = E (lastBlock E m) := by
  have hchained : chained m.length = 0 := by unfold chained; omega
  rw [cmacTag, hchained]
  exact congrArg E BitVec.zero_xor

/-- The tag of the empty message: `K2` and the padding (R144, R149 (c)). -/
theorem cmacTag_nil (E : Block → Block) :
    cmacTag E [] = E (dblBE (dblBE (E 0)) ^^^ 0x80000000000000000000000000000000) := by
  have hpad : padBlock [] = 0x80000000000000000000000000000000 := by decide
  rw [cmacTag_of_length_le E (Nat.zero_le _), lastBlock, if_neg (by decide), hpad, BitVec.xor_comm]
  rfl

/-- The tag of a message of sixteen bytes: `K1` (R144, R149 (d)). -/
theorem cmacTag_of_length_eq (E : Block → Block) {m : List Byte} (h : m.length = 16) :
    cmacTag E m = E (blockOfBytes m ^^^ dblBE (E 0)) := by
  rw [cmacTag_of_length_le E h.le, lastBlock, if_pos h, subkey1]

/-- Settles O23: either length takes two calls, and CMAC writes the tag of a message of that length. -/
theorem cmacOfEmptyAndFullBlock : Obligations.CmacOfEmptyAndFullBlock := by
  intro c s hc hr h2 hadm hf hm
  have tag (hgiven : Given s.regs.a0 s.regs.a1) (hcalls : callsOf (.cmac c) s.regs = 2) :
      ∃ t, exec (.cmac c) s = .next t ∧
        blockOfBytes (t.mem.read s.regs.a2.toNat 16) = cmacTag (s.encUnder (.bc c)) s.message := by
    obtain ⟨t, -, ht, -, hread, -⟩ := cmacWritesTheTag c _ s (.inl rfl) hc hr h2 hgiven hadm (hcalls ▸ hf) hm
    exact ⟨t, ht, by rw [hread, blockOfBytes_bytesOfBlock]⟩
  refine ⟨fun h1 => ?_, fun h1 h0 => ?_⟩
  · have hmsg : s.message = [] := by rw [State.message, h1]; rfl
    have htag := tag (.inl h1) (by rw [callsOf, h1]; rfl)
    rwa [hmsg, cmacTag_nil] at htag
  · have hmsg : s.message = s.mem.read s.regs.a0.toNat 16 := by rw [State.message, h1]; rfl
    have htag := tag (.inr h0) (by rw [callsOf, h1]; rfl)
    rwa [hmsg, cmacTag_of_length_eq _ (Memory.length_read ..)] at htag

/-! ## The commands with a transient context -/

/-- The work of CMAC_KEY when no call fails: the tag under the key at `A3`, `TBC0` cleaned (R147). -/
theorem cmacKeyWork_ok (P : Params) (r : OperandRegs)
    (ha : s.AdmitsAll [readAt r.a3 16, readAt r.a0 r.a1.toNat, writeAt r.a2 16]) (hf : s.NoFault (1 + cmacCalls r.a1.toNat)) :
    ∃ x, cmacKeyWork P r s = .ok () { s.drawFaults (1 + cmacCalls r.a1.toNat) with
      mem := s.mem.write r.a2.toNat (bytesOfBlock
        (cmacTag (P.enc (blockOfBytes (s.mem.read r.a3.toNat 16))) (s.mem.read r.a0.toNat r.a1.toNat)))
      hidden := s.hidden.afterTransient x } := by
  let u : State := s.drawFault.setCtx .tbc0 ⟨.ready, .loaded, blockOfBytes (s.mem.read r.a3.toNat 16)⟩
  have hau : u.AdmitsAll [readAt r.a0 r.a1.toNat, writeAt r.a2 16] := fun a hmem => ha a (List.mem_cons_of_mem _ hmem)
  have hfu : u.NoFault (cmacCalls r.a1.toNat) := hf.tail (k := 1) (by simp [u]) (by omega)
  have hload : bcLoad .tbc0 (blockOfBytes (s.mem.read r.a3.toNat 16)) s = .ok () u := bcLoad_ok _ _ (hf.head (by omega))
  obtain ⟨x, hw⟩ := tagWork_ok P .tbc0 r (s := u) rfl hau hfu
  refine ⟨x, (onExit_run_ok ((bind_run_ok (memRead_ok ha (by simp [readAt]) rfl)).trans
    ((bind_run_ok hload).trans hw))).trans ?_⟩
  have hdraws : s.drawFault.drawFaults (cmacCalls r.a1.toNat) = s.drawFaults (1 + cmacCalls r.a1.toNat) := by
    rw [State.drawFault_eq, State.drawFaults_add]
  rw [← hdraws]
  rfl

/-- Settles O24: the checks pass, and the work loads the key at `A3` and computes the tag under it. -/
theorem cmacKeyWritesTheTag : Obligations.CmacKeyWritesTheTag := by
  intro s h3 h2 hgiven ⟨hs, ha⟩ hf hm
  obtain ⟨x, hw⟩ := cmacKeyWork_ok Config.params s.regs ha hf
  obtain ⟨t, ht⟩ := exec_writes_tag (i := .cmacKey) (cmacKeyGate_go.mpr ⟨h3, h2, hgiven⟩) hs rfl hm hw
  exact ⟨t, x, ht⟩

/-- Settles O25: the checks pass, and the work computes the tag under `DEVKEY`. -/
theorem cmacDevkeyWritesTheTag : Obligations.CmacDevkeyWritesTheTag := by
  intro s h2 hgiven ⟨hs, ha⟩ hf hm
  obtain ⟨x, hw⟩ := cmacDevkeyWork_ok Config.params s.regs ha hf
  obtain ⟨t, ht⟩ := exec_writes_tag (i := .cmacDevkey) (msgGate_go.mpr ⟨h2, hgiven⟩) hs rfl hm hw
  exact ⟨t, x, ht⟩

/-! ## The checks in their order -/

/-- CMAC, DA_COMPUTE and DA_VERIFY test the index and the tag pointer, then the slot, then the data pointer (R146, R244). -/
theorem ctxMsgGate_eq (c : Nat) (s : State) :
    ctxMsgGate c s =
      if Config.nbc ≤ c ∨ s.regs.a2 = 0 then .raise .invalidArgs
      else if (s.ctxAt (.bc c)).state = .uninit then .raise .ctxNotInitialized
      else if s.regs.a0 = 0 ∧ s.regs.a1 ≠ 0 then .raise .invalidArgs else .go := by
  simp only [ctxMsgGate, State.bcReady, Bool.or_eq_true, decide_eq_true_eq, isNull_iff, Bool.not_eq_true',
    BlockCtx.isReady_false, nullWithLength_iff]

/-- CMAC_DEVKEY and the EASY commands test the two pointers (R148). -/
theorem msgGate_eq (s : State) :
    msgGate s = if s.regs.a2 = 0 ∨ s.regs.a0 = 0 ∧ s.regs.a1 ≠ 0 then .raise .invalidArgs else .go := by
  simp only [msgGate, isNull_iff, nullWithLength_iff, ite_or]

/-- CMAC_KEY tests the key pointer too (R147). -/
theorem cmacKeyGate_eq (s : State) :
    cmacKeyGate s =
      if s.regs.a3 = 0 ∨ s.regs.a2 = 0 ∨ s.regs.a0 = 0 ∧ s.regs.a1 ≠ 0 then .raise .invalidArgs else .go := by
  simp only [cmacKeyGate, Bool.or_eq_true, isNull_iff, nullWithLength_iff, ite_or]

/-- Settles O26: the three commands share `ctxMsgGate`, and each clause is the first of its tests that fails. -/
theorem cmacChecksInOrder : Obligations.CmacChecksInOrder := by
  intro c i s hi
  have hgate : gateOf i s = ctxMsgGate c s := by rcases hi with rfl | rfl | rfl <;> rfl
  rw [ctxMsgGate_eq] at hgate
  refine ⟨fun h => exec_of_gate_raise ?_, fun hc h2 hu => exec_of_gate_raise ?_,
    fun hc h2 hr h0 h1 => exec_of_gate_raise ?_⟩
  · rw [hgate, if_pos h]
  · rw [hgate, if_neg (not_or.mpr ⟨hc.not_ge, h2⟩), if_pos hu]
  · rw [hgate, if_neg (not_or.mpr ⟨hc.not_ge, h2⟩), if_neg (by rw [hr]; nofun), if_pos ⟨h0, h1⟩]

/-- Settles O27: each null pointer is among the tests of the command's checks, which raise one code. -/
theorem transientCommandsRejectNullPointers : Obligations.TransientCommandsRejectNullPointers := by
  intro i s hi hnull
  have hmsg (hkey : i ≠ .cmacKey) : msgGate s = .raise .invalidArgs :=
    (msgGate_eq s).trans (if_pos (hnull.imp_right fun h => h.resolve_right fun hk => hkey hk.1))
  apply exec_of_gate_raise
  rcases hi with rfl | rfl | rfl | rfl
  · refine (cmacKeyGate_eq s).trans (if_pos ?_)
    rcases hnull with h2 | h01 | ⟨-, h3⟩
    exacts [.inr (.inl h2), .inr (.inr h01), .inl h3]
  all_goals exact hmsg nofun

end Sys2Proof.Machine
end

section
/-! SUPPORT. The key derivation command (42_kdf.md): what KDF_DERIVE leaves when no call fails, and the checks of KDF_DERIVE
and ME_INIT as one condition each. -/

namespace Sys2Proof.Machine

open Spec

variable {i : Instr} {s : State}

/-! ## The derived bytes -/

/-- A command that ends with the string `bs` in its output range alone and `n` primitive calls made: OK, the string in place and
the rest of memory, the slots, RESULT and the registers as they were (20_memory.md R65). -/
theorem exec_writes_bytes (hg : gateOf i s = .go) (hs : s.InSpace i) {a n : Nat} {bs : List Byte} {h : Hidden}
    (ho : outRange i s.regs = some (a, bs.length)) (hb : bs.length ≠ 0) (hm : s.mem.wf = true)
    (hw : workOf i s.regs s = .ok () { s.drawFaults n with mem := s.mem.write a bs, hidden := h }) :
    ∃ t, exec i s = .next t ∧ t.status = Status.ok.word ∧ t.mem.read a bs.length = bs ∧ OnlyMem s t a bs.length ∧
      t.hidden = h ∧ t.primCalls = s.primCalls + n := by
  have hread := Memory.read_write_self hm a bs ((hs.out ho).resolve_left hb)
  have hbut (p : Nat) (hp : p < a ∨ a + bs.length ≤ p) := Memory.get_write_other s.mem a bs hp
  exact ⟨_, exec_of_work_ok hg hs hw, rfl, hread, ⟨hbut, ⟨rfl, rfl⟩, rfl, rfl, rfl, rfl, rfl, rfl⟩, rfl, rfl⟩

/-- A hidden state that a derivation reaches without a failure, and that keeps `DKEY`, is the one `Hidden.afterKdf` names. -/
theorem Hidden.eq_afterKdf {g h : Hidden} (hd : h.dkey = g.dkey) (h1 : h.tbc1 = g.tbc1) (ht : h.t = g.t)
    (htag : h.tagBuf = g.tagBuf) (hc : h.Calm) (hk : h.kbuf = zeroBytes Config.kdfBufCap) : h = g.afterKdf h.x := by
  obtain ⟨h0, hk0, hk1, hk2⟩ := hc
  cases h
  simp_all [Hidden.afterKdf, Hidden.afterTransient, Hidden.afterCmac]

/-- The work of KDF_DERIVE when no call fails: the derived bytes at `A0`, `KBUF` and `TBC0` wiped (R163 to R166). -/
theorem kdfDeriveWork_ok (P : Params) (r : OperandRegs) (hr : kdfRejects r.a1.toNat r.a3.toNat r.a5.toNat = false)
    (ha : s.AdmitsAll (readAt r.a2 r.a3.toNat :: readAt r.a4 r.a5.toNat :: kdfSegments r.a0 r.a1.toNat))
    (hf : s.NoFault (kdfCalls r.a1.toNat r.a3.toNat r.a5.toNat)) :
    ∃ x, kdfDeriveWork P r s = .ok () { s.drawFaults (kdfCalls r.a1.toNat r.a3.toNat r.a5.toNat) with
      mem := s.mem.write r.a0.toNat (kdfBytes (P.enc s.devKey) r.a1.toNat
        (s.mem.read r.a2.toNat r.a3.toNat) (s.mem.read r.a4.toNat r.a5.toNat))
      hidden := s.hidden.afterKdf x } := by
  have hseg (k : Nat) (hk : k < (r.a1.toNat + 15) / 16) :
      min 16 (r.a1.toNat - 16 * k) = 0 ∨
        (⟨r.a0.toNat + 16 * k, min 16 (r.a1.toNat - 16 * k), .write⟩ : Access) ∉ s.denied :=
    ha _ (List.mem_cons_of_mem _ (List.mem_cons_of_mem _ (List.mem_map.mpr ⟨k, List.mem_range.mpr hk, rfl⟩)))
  obtain ⟨h, hrun, hd, h1, ht, htag, hc, hk⟩ := kdfRun_ok P r.a1.toNat (s.mem.read r.a2.toNat r.a3.toNat)
    (s.mem.read r.a4.toNat r.a5.toNat) (memSink_acts r.a0.toNat) (s := s) (by simpa only [Memory.length_read]) trivial hseg
    (by simpa only [Memory.length_read])
  rw [Memory.length_read, Memory.length_read, Hidden.eq_afterKdf hd h1 ht htag hc hk] at hrun
  exact ⟨h.x, (bind_run_ok (memRead_ok ha (by simp [readAt]) rfl)).trans
    ((bind_run_ok (memRead_ok ha (by simp [readAt]) rfl)).trans hrun)⟩

/-- Settles O29: the checks pass, and the work stores the derived bytes segment by segment. -/
theorem kdfDeriveWritesTheDerivedBytes : Obligations.KdfDeriveWritesTheDerivedBytes := by
  intro s h0 hl hc hmin hmax hcap ⟨hs, ha⟩ hf hm
  have hr : kdfRejects s.regs.a1.toNat s.regs.a3.toNat s.regs.a5.toNat = false :=
    kdfRejects_eq_false.mpr ⟨hmin, hmax, hcap⟩
  have hlen : (kdfBytes s.encDev s.regs.a1.toNat s.label s.context).length = s.regs.a1.toNat := length_kdfBytes ..
  obtain ⟨x, hw⟩ := kdfDeriveWork_ok Config.params s.regs hr ha hf
  obtain ⟨t, ht⟩ := exec_writes_bytes (i := .kdfDerive) (bs := kdfBytes s.encDev s.regs.a1.toNat s.label s.context)
    (kdfDeriveGate_go.mpr ⟨h0, hl, hc, hr⟩) hs (by rw [hlen]; rfl) (by omega) hm hw
  rw [hlen] at ht
  exact ⟨t, x, ht⟩

/-! ## The checks -/

/-- `KDF_Check` fails exactly outside the bounds of R161. -/
theorem kdfRejects_iff {keyLen labelLen contextLen : Nat} :
    kdfRejects keyLen labelLen contextLen = true ↔
      keyLen < 16 ∨ 4096 < keyLen ∨ 256 < 1 + labelLen + 1 + contextLen + 4 := by
  simp only [kdfRejects, Bool.or_eq_true, decide_eq_true_eq, or_assoc]

/-- KDF_DERIVE tests the three pointers, then `KDF_Check` (R166). -/
theorem kdfDeriveGate_eq (s : State) :
    kdfDeriveGate s =
      if s.regs.a0 = 0 ∨ (s.regs.a2 = 0 ∧ s.regs.a3 ≠ 0) ∨ (s.regs.a4 = 0 ∧ s.regs.a5 ≠ 0) ∨
          kdfRejects s.regs.a1.toNat s.regs.a3.toNat s.regs.a5.toNat = true then .raise .invalidArgs
      else .go := by
  simp only [kdfDeriveGate, isNull_iff, nullWithLength_iff, ite_or]

/-- ME_INIT tests the slot index, the two pointers and `KDF_Check`, then the slot (45_mem_encrypt.md R221, R127, log 12). -/
theorem meInitGate_eq (j : Nat) (s : State) :
    meInitGate j s =
      if Config.nxc ≤ j ∨ (s.regs.a2 = 0 ∧ s.regs.a3 ≠ 0) ∨ (s.regs.a4 = 0 ∧ s.regs.a5 ≠ 0) ∨
          kdfRejects 32 s.regs.a3.toNat s.regs.a5.toNat = true then .raise .invalidArgs
      else xcFreshGate j s := by
  simp only [meInitGate, xcSlotGate, nullWithLength_iff, ← ite_or, Gate.check_andThen]

/-- Settles O30: each condition is among the tests that the two commands make before all others, and they raise one code. -/
theorem kdfCheckRejects : Obligations.KdfCheckRejects := by
  refine ⟨fun _ _ _ => kdfRejects_iff, fun s h => exec_of_gate_raise ?_, fun j s h => exec_of_gate_raise ?_⟩
  · rw [← kdfRejects_iff] at h
    exact (kdfDeriveGate_eq s).trans (if_pos h)
  · exact (meInitGate_eq j s).trans
      (if_pos (.inr (h.imp_right (.imp_right fun hcap => kdfRejects_iff.mpr (.inr (.inr hcap))))))

end Sys2Proof.Machine
end

section
/-! SUPPORT. The doubling `dbl_le` (43_xts.md R181): it is `dbl_be` of the mirrored block, whose laws it takes over byte by
byte. -/

namespace Sys2Proof.Machine

/-! ## The mirrored block -/

/-- The block whose bytes are those of `x` in reverse. -/
def mirror (x : Block) : Block := blockOfBytes (bytesOfBlock x).reverse

theorem bytesOfBlock_mirror (x : Block) : bytesOfBlock (mirror x) = (bytesOfBlock x).reverse :=
  bytesOfBlock_blockOfBytes (by simp)

/-- The number of the mirrored block is the little-endian integer of the bytes. -/
theorem mirror_eq (x : Block) : mirror x = BitVec.ofNat 128 (intLE (bytesOfBlock x)) := by
  rw [mirror, blockOfBytes, intBE, List.reverse_reverse]

/-- Byte `i` of the mirrored block is byte `15 - i` of the block. -/
theorem getD_bytesOfBlock_mirror (x : Block) {i : Nat} (hi : i < 16) :
    (bytesOfBlock (mirror x)).getD i 0 = (bytesOfBlock x).getD (15 - i) 0 := by
  rw [bytesOfBlock_mirror, List.getD_reverse _ (by simpa using hi), length_bytesOfBlock]

/-! ## The doubling -/

/-- Doubling little-endian is doubling big-endian between two byte reversals (R181). -/
theorem dblLE_eq_mirror (x : Block) : dblLE x = mirror (dblBE (mirror x)) := by
  have hbytes (y : Block) : leBytes 16 y.toNat = (bytesOfBlock y).reverse := (List.reverse_reverse _).symm
  rw [mirror_eq x, mirror, ← hbytes]
  rfl

theorem bytesOfBlock_dblLE (x : Block) : bytesOfBlock (dblLE x) = (bytesOfBlock (dblBE (mirror x))).reverse := by
  rw [dblLE_eq_mirror, bytesOfBlock_mirror]

/-- Byte `i` of the doubled block is byte `15 - i` of the mirrored block's double. -/
theorem getD_bytesOfBlock_dblLE (x : Block) {i : Nat} (hi : i < 16) :
    (bytesOfBlock (dblLE x)).getD i 0 = (bytesOfBlock (dblBE (mirror x))).getD (15 - i) 0 := by
  rw [dblLE_eq_mirror, getD_bytesOfBlock_mirror _ hi]

/-- Bytes 1 to 15 of the doubled block (R181). -/
theorem getD_dblLE_of_le (x : Block) {i : Nat} (h1 : 1 ≤ i) (hi : i ≤ 15) :
    (bytesOfBlock (dblLE x)).getD i 0 =
      (bytesOfBlock x).getD i 0 <<< 1 ||| (bytesOfBlock x).getD (i - 1) 0 >>> 7 := by
  have hself : 15 - (15 - i) = i := by omega
  have hbelow : 15 - (15 - i + 1) = i - 1 := by omega
  rw [getD_bytesOfBlock_dblLE x (by omega), getD_dblBE_of_le _ (by omega), getD_bytesOfBlock_mirror x (by omega),
    getD_bytesOfBlock_mirror x (by omega), hself, hbelow]

/-- Byte 0 of the doubled block (R181). -/
theorem getD_dblLE_first (x : Block) :
    (bytesOfBlock (dblLE x)).getD 0 0 =
      (bytesOfBlock x).getD 0 0 <<< 1 ^^^ (if ((bytesOfBlock x).getD 15 0).msb then 0x87 else 0) := by
  rw [getD_bytesOfBlock_dblLE x (by decide), getD_dblBE_last, getD_bytesOfBlock_mirror x (by decide),
    getD_bytesOfBlock_mirror x (by decide)]

/-- The bytes of the doubled block are those of the little-endian integer, doubled and reduced (R181). -/
theorem bytesOfBlock_dblLE_eq_leBytes (x : Block) :
    bytesOfBlock (dblLE x) = leBytes 16 (Nat.xor (2 * intLE (bytesOfBlock x) % 2 ^ 128)
      (if 2 ^ 127 ≤ intLE (bytesOfBlock x) then 0x87 else 0)) := by
  have hint : (mirror x).toNat = intLE (bytesOfBlock x) := by
    rw [← intBE_bytesOfBlock, bytesOfBlock_mirror, intBE, List.reverse_reverse]
  rw [bytesOfBlock_dblLE, bytesOfBlock, beBytes, List.reverse_reverse, toNat_dblBE, hint]

/-- Settles O21: the double of the mirrored block, mirrored; the two doublings differ where the carry goes. -/
theorem dblLeDoublesLittleEndian : Obligations.DblLeDoublesLittleEndian :=
  ⟨fun x => ⟨bytesOfBlock_dblLE_eq_leBytes x, getD_dblLE_first x, fun _ h1 hi => getD_dblLE_of_le x h1 hi,
    bytesOfBlock_dblLE x⟩, by decide⟩

end Sys2Proof.Machine
end

section
/-! SUPPORT. The XTS commands (43_xts.md): what each leaves, its checks as one condition each, and a span cut in two. -/

namespace Sys2Proof.Machine

open Spec

variable {d : Direction} {i : Instr} {s t : State} {j k : Nat}

/-! ## The output -/

/-- An XTS command that meets no failure ends OK with its output in its range alone, `T` wiped, and its calls made (R185, R187,
R188, R282). -/
theorem Direction.IsCommand.exec_writes_output (hi : d.IsCommand j i) (hg : xtsGate j s = .go) (ha : s.Admits i)
    (hf : s.NoFault (callsOf i s.regs)) (hm : s.mem.wf = true) :
    ∃ t, exec i s = .next t ∧ t.status = Status.ok.word ∧
      t.mem.read s.regs.a2.toNat s.regs.a1.toNat = s.xtsOutput d j ∧
      OnlyMem s t s.regs.a2.toNat s.regs.a1.toNat ∧ t.hidden = { s.hidden with t := 0 } ∧
      t.primCalls = s.primCalls + callsOf i s.regs := by
  obtain ⟨-, hargs, -⟩ := xtsGate_go.mp hg
  have hbut : SameBut s (s.afterXts d j i) s.regs.a2.toNat s.regs.a1.toNat := fun p hp =>
    Memory.get_write_other s.mem _ _ (by rwa [State.length_xtsOutput hargs])
  exact ⟨_, hi.exec_ok hg ha hf, rfl, State.afterXts_read hm hargs (hi.out_le hargs ha.1) d j i,
    ⟨hbut, ⟨rfl, rfl⟩, rfl, rfl, rfl, rfl, rfl, rfl⟩, rfl, rfl⟩

/-- Settles O31: XTS_ENC and ME_ENC are the commands of the encrypting direction. -/
theorem xtsEncWritesTheCiphertext : Obligations.XtsEncWritesTheCiphertext :=
  fun _ _ _ hi hj hargs hdata htweak =>
    Direction.IsCommand.exec_writes_output (d := .enc) hi (xtsGate_go.mpr ⟨hj, hargs, hdata, htweak⟩)

/-- Settles O32: XTS_DEC and ME_DEC are the commands of the decrypting direction, whose tweak is the encrypting one's. -/
theorem xtsDecWritesThePlaintext : Obligations.XtsDecWritesThePlaintext :=
  fun _ _ _ hi hj hargs hdata htweak =>
    Direction.IsCommand.exec_writes_output (d := .dec) hi (xtsGate_go.mpr ⟨hj, hargs, hdata, htweak⟩)

/-! ## The checks in their order -/

/-- `XTS_Check` tests the index and the operands, then the slot (R184). -/
theorem xtsCheck_eq (j : Nat) (s : State) :
    xtsCheck j s =
      if Config.nxc ≤ j ∨ s.regs.a0 = 0 ∨ s.regs.a2 = 0 ∨ s.regs.a1 = 0 ∨ s.regs.a3.toNat % 16 ≠ 0 ∨
          s.regs.a1.toNat % 16 ≠ 0 then .raise .invalidArgs
      else if (s.ctxAt (.xcData j)).state = .uninit ∨ (s.ctxAt (.xcTweak j)).state = .uninit then .raise .ctxNotInitialized
      else .go := by
  simp only [xtsCheck, State.xcReady, Bool.or_eq_true, Bool.not_eq_true', Bool.and_eq_false_iff, isNull_iff,
    BlockCtx.isReady_false, beq_iff_eq, bne_iff_ne, ite_or]

/-- On a slot and operands that `XTS_Check` passes, the span is tested, then the buffers (93 U3, U1, log 13). -/
theorem xtsGate_eq_xtsDomain (hj : j < Config.nxc) (ha : s.XtsOperands) (hdata : (s.ctxAt (.xcData j)).state = .ready)
    (htweak : (s.ctxAt (.xcTweak j)).state = .ready) : xtsGate j s = xtsDomain s := by
  rw [xtsGate, xtsCheck_go.mpr ⟨hj, ha, hdata, htweak⟩, Gate.go_andThen]

theorem partlyOverlap_iff {a b n : Nat} : partlyOverlap a b n = true ↔ a ≠ b ∧ a < b + n ∧ b < a + n := by
  simp only [partlyOverlap, Bool.and_eq_true, decide_eq_true_eq, and_assoc]

/-- Settles O33: the four commands share `xtsGate`, and each clause is the first of its tests that fails. -/
theorem xtsChecksInOrder : Obligations.XtsChecksInOrder := by
  intro j i s hi
  have hgate : gateOf i s = xtsGate j s := by rcases hi with rfl | rfl | rfl | rfl <;> rfl
  have raises {e : Status} (h : xtsCheck j s = .raise e) : exec i s = .next (s.exit e) :=
    exec_of_gate_raise (by rw [hgate, xtsGate, h, Gate.raise_andThen])
  refine ⟨fun h => raises ?_, fun hj h0 h2 h1 h3 hsize => ⟨fun hu => raises ?_, fun hdata htweak => ?_⟩⟩
  · rw [xtsCheck_eq, if_pos h]
  · have hpass : ¬ (Config.nxc ≤ j ∨ s.regs.a0 = 0 ∨ s.regs.a2 = 0 ∨ s.regs.a1 = 0 ∨ s.regs.a3.toNat % 16 ≠ 0 ∨
        s.regs.a1.toNat % 16 ≠ 0) := by
      simp only [not_or, not_le, ne_eq, not_not]
      exact ⟨hj, h0, h2, h1, h3, hsize⟩
    rw [xtsCheck_eq, if_neg hpass, if_pos hu]
  · rw [xtsGate_eq_xtsDomain hj ⟨h0, h2, h1, h3, hsize⟩ hdata htweak] at hgate
    refine ⟨fun htop => exec_of_gate_refuse ?_, fun htop hne hlt hgt => exec_of_gate_refuse ?_⟩
    · rw [hgate, xtsDomain, if_pos htop]
    · have hover := partlyOverlap_iff.mpr ⟨fun h => hne (BitVec.eq_of_toNat_eq h), hlt, hgt⟩
      rw [hgate, xtsDomain, if_neg (Nat.not_lt_of_le htop), if_pos hover]

/-! ## A piece of a span -/

/-- The operands `q` name a nonempty piece of the span of `r`, `k` bytes into it: the buffers and the address moved on. -/
structure IsPiece (r q : OperandRegs) (k : Nat) : Prop where
  inp : q.a0.toNat = r.a0.toNat + k
  out : q.a2.toNat = r.a2.toNat + k
  address : q.a3.toNat = r.a3.toNat + k
  le : k + q.a1.toNat ≤ r.a1.toNat
  nonempty : q.a1 ≠ 0
  aligned : k % 16 = 0
  blocks : q.a1.toNat % 16 = 0

theorem ne_zero_iff_toNat {p : Word} : p ≠ 0 ↔ p.toNat ≠ 0 := (BitVec.toNat_inj (y := 0)).not.symm

/-- A piece of valid operands is valid: buffers that are equal or disjoint stay so. -/
theorem IsPiece.xtsArgs (hp : IsPiece s.regs t.regs k) (ha : s.XtsArgs) : t.XtsArgs := by
  obtain ⟨hinp, hout, hadr, hle, hne, hk, hsize⟩ := hp
  obtain ⟨h0, h2, -, h3, -, htop, hsep⟩ := ha
  rw [ne_zero_iff_toNat] at h0 h2
  rw [← BitVec.toNat_inj] at hsep
  refine ⟨ne_zero_iff_toNat.mpr (by omega), ne_zero_iff_toNat.mpr (by omega), hne, by omega, hsize, by omega, ?_⟩
  rw [← BitVec.toNat_inj]
  omega

/-- The accesses of a piece are accesses of the span. -/
theorem IsPiece.xtsAccesses_subset {r q : OperandRegs} (hp : IsPiece r q k) :
    xtsAccesses q.a0 q.a2 q.a1.toNat ⊆ xtsAccesses r.a0 r.a2 r.a1.toNat := by
  obtain ⟨hinp, hout, -, hle, -, hk, -⟩ := hp
  intro a ha
  obtain ⟨b, hb, hab⟩ := List.mem_flatMap.mp ha
  rw [List.mem_range] at hb
  have hread : q.a0.toNat + 16 * b = r.a0.toNat + 16 * (k / 16 + b) := by omega
  have hwrite : q.a2.toNat + 16 * b = r.a2.toNat + 16 * (k / 16 + b) := by omega
  rw [hread, hwrite] at hab
  exact List.mem_flatMap.mpr ⟨k / 16 + b, List.mem_range.mpr (by omega), hab⟩

theorem Direction.IsCommand.operandRanges_eq (hi : d.IsCommand j i) (r : OperandRegs) :
    operandRanges i r = [(r.a0.toNat, r.a1.toNat), (r.a2.toNat, r.a1.toNat)] := by
  cases d <;> rcases hi with rfl | rfl <;> rfl

theorem Direction.IsCommand.inSpace_iff (hi : d.IsCommand j i) :
    s.InSpace i ↔ (s.regs.a1.toNat = 0 ∨ s.regs.a0.toNat + s.regs.a1.toNat ≤ Config.space) ∧
      (s.regs.a1.toNat = 0 ∨ s.regs.a2.toNat + s.regs.a1.toNat ≤ Config.space) := by
  simp [State.InSpace, hi.operandRanges_eq]

/-- A piece of a span whose accesses are admitted is admitted. -/
theorem IsPiece.admits (hp : IsPiece s.regs t.regs k) (hi : d.IsCommand j i) (ha : s.Admits i) (hd : t.denied = s.denied) :
    t.Admits i := by
  obtain ⟨hs, hall⟩ := ha
  refine ⟨?_, fun a h => ?_⟩
  · obtain ⟨hinp, hout, -, hle, -⟩ := hp
    rw [hi.inSpace_iff] at hs ⊢
    omega
  · rw [hi.accessesOf_eq] at h
    exact hd ▸ hall a (hi.accessesOf_eq s.regs ▸ hp.xtsAccesses_subset h)

/-- An encryption or decryption of a piece under the same contexts, where no call fails. -/
theorem IsPiece.exec_ok (hp : IsPiece s.regs t.regs k) (hi : d.IsCommand j i) (hg : xtsGate j s = .go) (ha : s.Admits i)
    (hctx : ∀ l, t.ctxAt l = s.ctxAt l) (hd : t.denied = s.denied) (hf : t.NoFault (callsOf i t.regs)) :
    exec i t = .next (t.afterXts d j i) := by
  obtain ⟨hj, hargs, hdata, htweak⟩ := xtsGate_go.mp hg
  exact hi.exec_ok (xtsGate_go.mpr ⟨hj, hp.xtsArgs hargs, hctx _ ▸ hdata, hctx _ ▸ htweak⟩) (hp.admits hi ha hd) hf

/-! ## A span cut in two -/

theorem xtsFrom_add (F E2 : Block → Block) (address : Nat) (blk : Nat → Block) (n m i : Nat) :
    xtsFrom F E2 address blk (n + m) i = xtsFrom F E2 address blk n i ++ xtsFrom F E2 address blk m (i + n) := by
  induction n generalizing i with
  | zero => rw [Nat.zero_add]; rfl
  | succ n ih =>
    have hnext : i + 1 + n = i + (n + 1) := by omega
    rw [Nat.succ_add, xtsFrom, ih, xtsFrom, List.append_assoc, hnext]

/-- Blocks counted from block `p` on are blocks counted from the start at the address of block `p` (R183: the tweak depends on
the address alone). -/
theorem xtsFrom_shift (F E2 : Block → Block) (address : Nat) (blk : Nat → Block) (n p : Nat) :
    xtsFrom F E2 address blk n p = xtsFrom F E2 (address + 16 * p) (fun i => blk (p + i)) n 0 := by
  simp only [xtsFrom_eq, Nat.zero_add, Nat.mul_add, Nat.add_assoc]

/-- The output of a span is that of its two pieces, one after the other (R186). -/
theorem xtsBytes_read_add (F E2 : Block → Block) (address : Nat) (m : Memory) (inp : Nat) {k n : Nat} (hk : k % 16 = 0)
    (hn : n % 16 = 0) :
    xtsBytes F E2 address (m.read inp (k + n)) =
      xtsBytes F E2 address (m.read inp k) ++ xtsBytes F E2 (address + k) (m.read (inp + k) n) := by
  have hblocks : (k + n) / 16 = k / 16 + n / 16 := by omega
  have hoff : 16 * (k / 16) = k := by omega
  rw [← xtsFrom_zero _ _ _ _ _ _ (show (k + n) % 16 = 0 by omega), ← xtsFrom_zero _ _ _ _ _ _ hk,
    ← xtsFrom_zero _ _ _ _ _ _ hn, hblocks, xtsFrom_add, Nat.zero_add, xtsFrom_shift _ _ _ _ _ (k / 16), hoff]
  simp only [Nat.mul_add, hoff, Nat.add_assoc]

/-- The seeds of two adjacent pieces are at most one more than those of the span: the data unit of the cut (R282). -/
theorem unitsTouched_add_le (address n m : Nat) :
    unitsTouched address n + unitsTouched (address + n) m ≤ unitsTouched address (n + m) + 1 := by
  simp only [unitsTouched, Config.du]
  omega

/-- The output of a command in a state with the contexts and the device key of `s`. -/
theorem State.xtsOutput_of_ctxAt (hctx : ∀ l, t.ctxAt l = s.ctxAt l) (hdev : t.devKey = s.devKey) (d : Direction) (j : Nat) :
    t.xtsOutput d j = xtsBytes (d.fn Config.params (s.keyOf (s.ctxAt (.xcData j)))) (s.encUnder (.xcTweak j))
      t.regs.a3.toNat (t.mem.read t.regs.a0.toNat t.regs.a1.toNat) := by
  simp only [xtsOutput, encUnder, hctx, keyOf_congr hdev]

/-- The state in which the first `n` bytes of the span of `s` are named. -/
def State.firstPiece (s : State) (n : Word) : State := { s with regs := { s.regs with a1 := n } }

/-- The state `u` with the `m` bytes of the span of `s` named that follow its first `n`. -/
def State.restPiece (s u : State) (n m : Word) : State :=
  { u with regs := { s.regs with a0 := s.regs.a0 + n, a1 := m, a2 := s.regs.a2 + n, a3 := s.regs.a3 + n } }

@[simp] theorem State.ctxAt_firstPiece (s : State) (n : Word) (l : CtxLoc) : (s.firstPiece n).ctxAt l = s.ctxAt l :=
  State.ctxAt_congr rfl rfl rfl rfl l

@[simp] theorem State.ctxAt_restPiece (s u : State) (n m : Word) (l : CtxLoc) : (s.restPiece u n m).ctxAt l = u.ctxAt l :=
  State.ctxAt_congr rfl rfl rfl rfl l

section
variable {n m : Word} (hlen : s.regs.a1.toNat = n.toNat + m.toNat)
include hlen

theorem isPiece_firstPiece (hn : n ≠ 0) (hcut : n.toNat % 16 = 0) : IsPiece s.regs (s.firstPiece n).regs 0 :=
  ⟨rfl, rfl, rfl, by simp only [State.firstPiece]; omega, hn, rfl, hcut⟩

/-- Neither the buffers nor the address wrap around before the other piece: the span lies inside `2^XLEN`. -/
theorem isPiece_restPiece (hi : d.IsCommand j i) (hs : s.InSpace i) (ha : s.XtsArgs) (u : State) (hm : m ≠ 0)
    (hcut : n.toNat % 16 = 0) (hsize : m.toNat % 16 = 0) : IsPiece s.regs (s.restPiece u n m).regs n.toNat := by
  obtain ⟨hinp, hout⟩ := hi.inSpace_iff.mp hs
  obtain ⟨-, -, -, -, -, htop, -⟩ := ha
  have hm0 : m.toNat ≠ 0 := ne_zero_iff_toNat.mp hm
  simp only [Config.space] at hinp hout htop
  exact ⟨BitVec.toNat_add_of_lt (by omega), BitVec.toNat_add_of_lt (by omega), BitVec.toNat_add_of_lt (by omega), hlen.ge, hm,
    hcut, hsize⟩

/-- The input of the other piece is unchanged after the first one: where the buffers are equal the first output is the first
piece's own input, and where they are disjoint it meets no input. -/
theorem read_rest_afterXts_firstPiece (ha : s.XtsArgs) (h1 : (s.firstPiece n).XtsArgs) :
    ((s.firstPiece n).afterXts d j i).mem.read (s.regs.a0.toNat + n.toNat) m.toNat =
      s.mem.read (s.regs.a0.toNat + n.toNat) m.toNat := by
  obtain ⟨-, -, -, -, -, -, hsep⟩ := ha
  rw [← BitVec.toNat_inj] at hsep
  refine Memory.read_write_other _ _ _ _ _ ?_
  rw [State.length_xtsOutput h1]
  simp only [State.firstPiece]
  omega

/-- The two pieces make at most one call more than the span. -/
theorem Direction.IsCommand.callsOf_pieces_le (hi : d.IsCommand j i) {u : State}
    (hp : IsPiece s.regs (s.restPiece u n m).regs n.toNat) :
    callsOf i (s.firstPiece n).regs + callsOf i (s.restPiece u n m).regs ≤ callsOf i s.regs + 1 := by
  have hadr := hp.address
  have hcut := hp.aligned
  have hunits := unitsTouched_add_le s.regs.a3.toNat n.toNat m.toNat
  rw [hi.callsOf_eq, hi.callsOf_eq, hi.callsOf_eq, hadr, hlen]
  simp only [State.firstPiece, State.restPiece]
  omega

/-- The output of the span is the outputs of its pieces, where the second reads what the span reads there (R186). -/
theorem State.xtsOutput_pieces {u : State} (hp : IsPiece s.regs (s.restPiece u n m).regs n.toNat)
    (hctx : ∀ l, u.ctxAt l = s.ctxAt l) (hdev : u.devKey = s.devKey)
    (hread : u.mem.read (s.regs.a0.toNat + n.toNat) m.toNat = s.mem.read (s.regs.a0.toNat + n.toNat) m.toNat) :
    s.xtsOutput d j = (s.firstPiece n).xtsOutput d j ++ (s.restPiece u n m).xtsOutput d j := by
  have hrest : ∀ l, (s.restPiece u n m).ctxAt l = s.ctxAt l := fun l => (s.ctxAt_restPiece u n m l).trans (hctx l)
  have hblocks : m.toNat % 16 = 0 := hp.blocks
  rw [State.xtsOutput_of_ctxAt (s.ctxAt_firstPiece n) rfl, State.xtsOutput_of_ctxAt hrest hdev, hp.inp, hp.address,
    State.xtsOutput, hlen, xtsBytes_read_add _ _ _ _ _ hp.aligned hblocks, ← hread]
  rfl

/-- Two runs over the pieces leave the memory of one run over the span (R186). -/
theorem mem_afterXts_pieces (ha : s.XtsArgs) (h1 : (s.firstPiece n).XtsArgs)
    (hp : IsPiece s.regs (s.restPiece ((s.firstPiece n).afterXts d j i) n m).regs n.toNat) :
    (s.afterXts d j i).mem = ((s.restPiece ((s.firstPiece n).afterXts d j i) n m).afterXts d j i).mem := by
  have hspan : s.xtsOutput d j = _ :=
    State.xtsOutput_pieces hlen hp (by simp) rfl (read_rest_afterXts_firstPiece hlen ha h1)
  have hfirst : ((s.firstPiece n).xtsOutput d j).length = n.toNat := State.length_xtsOutput h1 d j
  rw [State.afterXts_mem, State.afterXts_mem, hp.out, hspan, Memory.write_append, hfirst]
  rfl

end

/-- Settles O34: the two pieces are valid where the span is, the second reads what the whole run reads there, and the outputs
are written one after the other. -/
theorem xtsSpanSplitsAnywhere : Obligations.XtsSpanSplitsAnywhere := by
  intro j s n m hj hlen hn hm hcut hsize hargs hdata htweak hadm hf
  have hi : Direction.enc.IsCommand j (.xtsEnc j) := .inl rfl
  have hg : xtsGate j s = .go := xtsGate_go.mpr ⟨hj, hargs, hdata, htweak⟩
  have hp1 := isPiece_firstPiece hlen hn hcut
  have hp2 := isPiece_restPiece hlen hi hadm.1 hargs ((s.firstPiece n).afterXts .enc j (.xtsEnc j)) hm hcut hsize
  have hcalls := hi.callsOf_pieces_le hlen hp2
  exact ⟨_, _, _, hi.exec_ok hg hadm (hf.of_le (Nat.le_add_right _ _)),
    hp1.exec_ok hi hg hadm (by simp) rfl (hf.tail (k := 0) rfl (by omega)),
    hp2.exec_ok hi hg hadm (by simp) rfl (hf.tail ((s.firstPiece n).afterXts_primFaults .enc j _) hcalls),
    mem_afterXts_pieces hlen hargs (hp1.xtsArgs hargs) hp2⟩

end Sys2Proof.Machine
end

section
/-! SUPPORT. The data authentication facade (44_data_auth.md): what its commands leave when no call fails, the slot route and the
easy commands against each other, and the frame of the two verify commands. -/

namespace Sys2Proof.Machine

open Spec

variable {i : Instr} {s t : State} {c : Nat}

/-! ## The derived key loaded -/

/-- The state that `DA_Load` leaves when no call fails: the data authentication key in the context at `l` (R200). -/
def State.daLoaded (s : State) (l : CtxLoc) (x : Block) : State :=
  ({ s.drawFaults (kdfCalls 16 27 4 + 1) with hidden := s.hidden.afterDerive x } : State).setCtx l ⟨.ready, .loaded, s.daKey⟩

theorem daLoad_run (l : CtxLoc) (hf : s.NoFault (kdfCalls 16 27 4 + 1)) :
    ∃ x, daLoad Config.params l s = .ok () (s.daLoaded l x) := daLoad_ok Config.params l hf

/-- The calls that follow the load do not fail either. -/
theorem State.NoFault.daLoaded {n : Nat} (hf : s.NoFault (kdfCalls 16 27 4 + 1 + n)) (l : CtxLoc) (x : Block) :
    (s.daLoaded l x).NoFault n :=
  hf.tail (k := kdfCalls 16 27 4 + 1) (State.setCtx_primFaults ..) le_rfl

/-- DA_INIT on an UNINIT slot is the load (R201). -/
theorem exec_daInit_ok (hp : s.Passes (.daInit c)) (hf : s.NoFault (callsOf (.daInit c) s.regs)) :
    ∃ x, exec (.daInit c) s = .next ((s.daLoaded (.bc c) x).exit .ok) := by
  obtain ⟨x, hload⟩ := daLoad_run (.bc c) hf
  exact ⟨x, exec_of_work_ok hp.gateOf_eq_go (State.inSpace_of_no_ranges rfl) hload⟩

/-- Slot `c` holds the derived key after the load, and the other slots and the frame are as they were. -/
theorem writesBc_daLoaded (hc : c < Config.nbc) (s : State) (x : Block) (e : Status) :
    WritesBc { s with hidden := s.hidden.afterDerive x } ((s.daLoaded (.bc c) x).exit e) c ⟨.ready, .loaded, s.daKey⟩ :=
  writesBc_setCtx hc _ _ _ _ e

/-- Settles O36: the checks pass, and the work is the load of the slot. -/
theorem daInitLoadsTheDerivedKey : Obligations.DaInitLoadsTheDerivedKey := by
  intro c s hc hu hf
  obtain ⟨x, he⟩ := exec_daInit_ok ⟨hc, hu⟩ hf
  have h := writesBc_daLoaded hc s x .ok
  exact ⟨_, x, he, rfl, h.target, h.others, h.frame, h.hidden, rfl⟩

/-! ## A command whose work ends with the comparison of a tag -/

/-- A comparison's two ends leave one state, with OK or INVALID_TAG (R203, R206). -/
theorem exec_of_work_compares {p : Prop} [Decidable p] (hg : gateOf i s = .go) (hs : s.InSpace i)
    (hw : workOf i s.regs s = if p then .ok () t else .error (.raise .invalidTag) t) :
    exec i s = .next (t.exit (if p then .ok else .invalidTag)) := by
  rw [exec_eq_run, run_go hg hs, hw]
  split_ifs <;> rfl

/-- A command that compares the sixteen bytes at `A2` with the block `y`, `n` primitive calls made: STATUS says whether they are
equal, and memory, the slots, RESULT and the registers are as they were (R203, R206). -/
theorem exec_compares_tag (hg : gateOf i s = .go) (hs : s.InSpace i) {n : Nat} {y : Block} {h : Hidden}
    (hw : workOf i s.regs s = if bytesOfBlock y = s.mem.read s.regs.a2.toNat 16
      then .ok () { s.drawFaults n with hidden := h }
      else .error (.raise .invalidTag) { s.drawFaults n with hidden := h }) :
    ∃ t, exec i s = .next t ∧
      t.status = (if s.mem.read s.regs.a2.toNat 16 = bytesOfBlock y then Status.ok.word else Status.invalidTag.word) ∧
      OnlyStatus s t ∧ t.hidden = h ∧ t.primCalls = s.primCalls + n := by
  refine ⟨_, exec_of_work_compares hg hs hw, ?_, ⟨rfl, ⟨rfl, rfl⟩, rfl, rfl, rfl, rfl, rfl, rfl⟩, rfl, rfl⟩
  rw [State.exit_status, apply_ite Status.word]
  exact if_congr eq_comm rfl rfl

/-- Settles O37: the checks pass, and the work recomputes the tag under the slot's key and compares. -/
theorem daVerifyComparesTheTag : Obligations.DaVerifyComparesTheTag := by
  intro c s hc hr h2 hgiven ⟨hs, ha⟩ hf
  obtain ⟨x, hw⟩ := verifyWork_ok Config.params (.bc c) s.regs hr ha hf
  obtain ⟨t, ht⟩ := exec_compares_tag (i := .daVerify c) (ctxMsgGate_go.mpr ⟨hc, h2, hr, hgiven⟩) hs hw
  exact ⟨t, x, ht⟩

/-! ## The easy commands -/

/-- "On every exit below" of a procedure whose two ends leave one state. -/
theorem onExit_run_ite {α : Type} {f : State → State} {p : Proc α} {q : Prop} [Decidable q] {a : α} {e : Halt}
    (h : p s = if q then .ok a t else .error e t) : onExit f p s = if q then .ok a (f t) else .error e (f t) := by
  split_ifs at h ⊢
  · exact onExit_run_ok h
  · exact onExit_run_error h

/-- The tag of the message under the data authentication key (R200, R204, R205). -/
def State.daTag (s : State) : Block := cmacTag (Config.params.enc s.daKey) s.message

/-- The work of DA_COMPUTE_EASY when no call fails: the tag under the derived key at `A2`, `TBC1` cleaned (R204). -/
theorem daComputeEasyWork_ok (ha : s.AdmitsAll (accessesOf .daComputeEasy s.regs))
    (hf : s.NoFault (callsOf .daComputeEasy s.regs)) :
    ∃ x, daComputeEasyWork Config.params s.regs s = .ok () { s.drawFaults (callsOf .daComputeEasy s.regs) with
      mem := s.mem.write s.regs.a2.toNat (bytesOfBlock s.daTag), hidden := s.hidden.afterEasy x } := by
  obtain ⟨y, hload⟩ := daLoad_run .tbc1 (hf.of_le (Nat.le_add_right _ _))
  obtain ⟨x, hw⟩ := tagWork_ok Config.params .tbc1 s.regs (s := s.daLoaded .tbc1 y) rfl ha (hf.daLoaded .tbc1 y)
  refine ⟨x, (onExit_run_ok ((bind_run_ok hload).trans hw)).trans ?_⟩
  rw [callsOf, ← State.drawFaults_add]
  rfl

/-- The work of DA_VERIFY_EASY when no call fails: the comparison with the tag under the derived key, `TBC1` cleaned (R205). -/
theorem daVerifyEasyWork_ok (ha : s.AdmitsAll (accessesOf .daVerifyEasy s.regs))
    (hf : s.NoFault (callsOf .daVerifyEasy s.regs)) :
    ∃ x, daVerifyEasyWork Config.params s.regs s = if bytesOfBlock s.daTag = s.mem.read s.regs.a2.toNat 16
      then .ok () { s.drawFaults (callsOf .daVerifyEasy s.regs) with
        hidden := { s.hidden.afterEasy x with tagBuf := s.daTag } }
      else .error (.raise .invalidTag) { s.drawFaults (callsOf .daVerifyEasy s.regs) with
        hidden := { s.hidden.afterEasy x with tagBuf := s.daTag } } := by
  obtain ⟨y, hload⟩ := daLoad_run .tbc1 (hf.of_le (Nat.le_add_right _ _))
  obtain ⟨x, hw⟩ := verifyWork_ok Config.params .tbc1 s.regs (s := s.daLoaded .tbc1 y) rfl ha (hf.daLoaded .tbc1 y)
  refine ⟨x, (onExit_run_ite ((bind_run_ok hload).trans hw)).trans ?_⟩
  rw [callsOf, ← State.drawFaults_add]
  rfl

/-- Settles O38: the checks pass, and the work computes the tag under the derived key. -/
theorem daComputeEasyWritesTheTag : Obligations.DaComputeEasyWritesTheTag := by
  intro s h2 hgiven ⟨hs, ha⟩ hf hm
  obtain ⟨x, hw⟩ := daComputeEasyWork_ok ha hf
  obtain ⟨t, ht⟩ := exec_writes_tag (i := .daComputeEasy) (msgGate_go.mpr ⟨h2, hgiven⟩) hs rfl hm hw
  exact ⟨t, x, ht⟩

/-- Settles O39: the checks pass, and the work compares with the tag under the derived key. -/
theorem daVerifyEasyComparesTheTag : Obligations.DaVerifyEasyComparesTheTag := by
  intro s h2 hgiven ⟨hs, ha⟩ hf
  obtain ⟨x, hw⟩ := daVerifyEasyWork_ok ha hf
  obtain ⟨t, ht⟩ := exec_compares_tag (i := .daVerifyEasy) (msgGate_go.mpr ⟨h2, hgiven⟩) hs hw
  exact ⟨t, x, ht⟩

/-! ## The tag on a slot, as one equation -/

/-- The state that DA_COMPUTE leaves when no call fails: the tag under the slot's key at `A2`, STATUS OK (R202). -/
def State.afterDaCompute (s : State) (c : Nat) (x : Block) : State :=
  ({ s.drawFaults (callsOf (.daCompute c) s.regs) with
      mem := s.mem.write s.regs.a2.toNat (bytesOfBlock (cmacTag (s.encUnder (.bc c)) s.message))
      hidden := s.hidden.afterCmac x } : State).exit .ok

theorem exec_daCompute_ok (hp : s.Passes (.daCompute c)) (ha : s.Admits (.daCompute c))
    (hf : s.NoFault (callsOf (.daCompute c) s.regs)) : ∃ x, exec (.daCompute c) s = .next (s.afterDaCompute c x) := by
  have hgate := hp.gateOf_eq_go
  obtain ⟨-, -, hr, -⟩ := hp
  obtain ⟨hs, hall⟩ := ha
  obtain ⟨x, hw⟩ := tagWork_ok Config.params (.bc c) s.regs hr hall hf
  exact ⟨x, exec_of_work_ok hgate hs hw⟩

/-- The tag stands at `A2` after DA_COMPUTE. -/
theorem State.afterDaCompute_read (hm : s.mem.wf = true) (hs : s.InSpace (.daCompute c)) (x : Block) :
    (s.afterDaCompute c x).mem.read s.regs.a2.toNat 16 = bytesOfBlock (cmacTag (s.encUnder (.bc c)) s.message) := by
  have h := Memory.read_write_self hm s.regs.a2.toNat (bytesOfBlock (cmacTag (s.encUnder (.bc c)) s.message))
    (by rw [length_bytesOfBlock]; exact hs.tag rfl)
  rwa [length_bytesOfBlock] at h

/-- The message is as it was where the tag's range does not meet it, or where it is empty. -/
theorem State.message_afterDaCompute (hd : s.regs.a0.toNat + s.regs.a1.toNat ≤ s.regs.a2.toNat ∨
    s.regs.a2.toNat + 16 ≤ s.regs.a0.toNat ∨ s.regs.a1 = 0) (x : Block) : (s.afterDaCompute c x).message = s.message := by
  by_cases h0 : s.regs.a1 = 0
  · have hregs : (s.afterDaCompute c x).regs = s.regs := rfl
    rw [State.message, State.message, hregs, h0]
    rfl
  · refine Memory.read_write_other s.mem _ _ _ _ ?_
    rw [length_bytesOfBlock]
    tauto

/-- Settles O41: DA_VERIFY recomputes the tag of the same message under the same key and finds it at `A2`. -/
theorem daRoundTrip : Obligations.DaRoundTrip := by
  intro c s hc hr h2 hgiven hadm hadm' hd hf hm
  obtain ⟨x, hcompute⟩ := exec_daCompute_ok ⟨hc, h2, hr, hgiven⟩ hadm (hf.of_le (Nat.le_add_right _ _))
  obtain ⟨u, -, hverify, hst, -⟩ := daVerifyComparesTheTag c (s.afterDaCompute c x) hc hr h2 hgiven hadm' (hf.tail rfl le_rfl)
  have htag : (s.afterDaCompute c x).mem.read (s.afterDaCompute c x).regs.a2.toNat 16 =
      bytesOfBlock (cmacTag ((s.afterDaCompute c x).encUnder (.bc c)) (s.afterDaCompute c x).message) := by
    rw [State.message_afterDaCompute hd]
    exact State.afterDaCompute_read hm hadm.1 x
  exact ⟨_, u, hcompute, hverify, hst.trans (if_pos htag)⟩

/-! ## The slot route and the easy command -/

/-- The slots are unchanged when each block cipher slot is and no XTS slot was written. -/
theorem sameSlots_of_ctxAt (hc : t.ctxAt (.bc c) = s.ctxAt (.bc c)) (hothers : ∀ k, k ≠ c → t.ctxAt (.bc k) = s.ctxAt (.bc k))
    (hx : t.xc = s.xc) : SameSlots s t := by
  refine ⟨State.bc_eq_of_ctxAt fun k => ?_, hx⟩
  by_cases hk : k = c
  · exact hk ▸ hc
  · exact hothers k hk

/-- Settles O42: DA_INIT puts the derived key in the slot, so DA_COMPUTE writes the tag that the easy command computes, and
BC_CLEANUP leaves the slot cleaned, as it was. -/
theorem easyTagIsTheSlotsTag : Obligations.EasyTagIsTheSlotsTag := by
  intro c s hc hclear h2 hgiven ⟨hs, ha⟩ hf
  obtain ⟨y, hw⟩ := daComputeEasyWork_ok ha hf
  have heasy := exec_of_work_ok (i := .daComputeEasy) (msgGate_go.mpr ⟨h2, hgiven⟩) hs hw
  obtain ⟨x, hinit⟩ := exec_daInit_ok ⟨hc, by rw [hclear]; rfl⟩ (hf.of_le (Nat.le_add_right _ _))
  set t : State := (s.daLoaded (.bc c) x).exit .ok
  have ht := writesBc_daLoaded hc s x .ok
  obtain ⟨z, hcompute⟩ := exec_daCompute_ok (s := t) ⟨hc, h2, by rw [ht.target], hgiven⟩ ⟨hs, ha⟩ (hf.daLoaded (.bc c) x)
  obtain ⟨v, hclean, hst, hslot, hothers, ⟨hxc, hmem, -⟩, -⟩ := bcCleanupCleansTheSlot c (t.afterDaCompute c z) hc
  have henc : t.encUnder (.bc c) = Config.params.enc s.daKey := by rw [State.encUnder, ht.target]; rfl
  have htag : (t.afterDaCompute c z).mem = s.mem.write s.regs.a2.toNat (bytesOfBlock s.daTag) := by
    rw [State.afterDaCompute, henc]
    rfl
  exact ⟨t, _, v, _, hinit, hcompute, hclean, heasy, hmem.trans htag, hst,
    sameSlots_of_ctxAt (hslot.trans hclear.symm) (fun k hk => (hothers k hk).trans (ht.others k hk)) hxc, rfl, rfl⟩

/-! ## The frame of the verify commands -/

/-- A command without an output range draws nothing at its end (60_exceptions.md R247). -/
theorem ended_none (e : Status) (s : State) : ended none e s = s.exit e := by
  unfold ended
  split_ifs <;> rfl

/-- A command that has no output range, no slot to write and no RESULT to report writes STATUS alone, however it ends. -/
theorem onlyStatus_of_exec (ho : outRange i s.regs = none) (hslots : initTargets i ++ cleanTargets i = [])
    (hi : isIsInit i = false) (h : exec i s = .next t) : OnlyStatus s t := by
  rcases exec_next_cases h with ⟨e, -, rfl⟩ | ⟨-, u, e, he, rfl⟩
  · exact ⟨rfl, ⟨rfl, rfl⟩, rfl, rfl, rfl, rfl, rfl, rfl⟩
  · have hbc (k : Nat) : u.ctxAt (.bc k) = s.ctxAt (.bc k) := he.bc k (hslots ▸ List.not_mem_nil)
    have hxc (k : Nat) := he.xc k (hslots ▸ List.not_mem_nil)
    rw [ho, ended_none]
    exact ⟨he.mem.same ho, ⟨State.bc_eq_of_ctxAt hbc, State.xc_eq_of_ctxAt hxc⟩, he.result hi, he.outside⟩

/-- Settles O50: both verify commands are such commands. -/
theorem verifyCommandsWriteStatusAlone : Obligations.VerifyCommandsWriteStatusAlone := by
  rintro c i s t (rfl | rfl) h <;> exact onlyStatus_of_exec rfl rfl rfl h

end Sys2Proof.Machine
end

section
/-! SUPPORT. The memory encryption facade (45_mem_encrypt.md): what ME_INIT leaves when no call fails. -/

namespace Sys2Proof.Machine

open Spec

variable {s : State} {j : Nat}

/-- The two keys of the memory encryption facade, ready: the halves of one derivation of 32 bytes under `DEVKEY` from the label
and the context that the operands name (45_mem_encrypt.md R220). -/
def State.meCtx (s : State) : XtsCtx where
  data := ⟨.ready, .loaded, blockOfBytes ((kdfBytes s.encDev 32 s.label s.context).take 16)⟩
  tweak := ⟨.ready, .loaded, blockOfBytes ((kdfBytes s.encDev 32 s.label s.context).drop 16)⟩

/-- The state that ME_INIT's work leaves when no call fails: both keys in slot `j`, the transient state wiped (R220, R221). -/
def State.meLoaded (s : State) (j : Nat) (x : Block) : State :=
  ({ s.drawFaults (callsOf (.meInit j) s.regs) with hidden := s.hidden.afterDerive x } : State).setXc j s.meCtx

/-- ME_INIT reads the label and the context and hands them to `ME_Load` (R221). -/
theorem meInitWork_run (P : Params) (h : s.AdmitsAll (accessesOf (.meInit j) s.regs)) :
    meInitWork P j s.regs s = meLoad P j s.label s.context s :=
  (bind_run_ok (memRead_ok h (by simp [accessesOf, readAt]) rfl)).trans
    (bind_run_ok (memRead_ok h (by simp [accessesOf, readAt]) rfl))

/-- The work of ME_INIT when no call fails: the load of the keys derived from the bytes it read (R220, R221). -/
theorem meInitWork_ok (hr : kdfRejects 32 s.regs.a3.toNat s.regs.a5.toNat = false)
    (ha : s.AdmitsAll (accessesOf (.meInit j) s.regs)) (hf : s.NoFault (callsOf (.meInit j) s.regs)) :
    ∃ x, meInitWork Config.params j s.regs s = .ok () (s.meLoaded j x) := by
  have hlabel : s.label.length = s.regs.a3.toNat := Memory.length_read ..
  have hcontext : s.context.length = s.regs.a5.toNat := Memory.length_read ..
  obtain ⟨x, hload⟩ := meLoad_ok Config.params j s.label s.context (s := s) (by rwa [hlabel, hcontext])
    (by rwa [hlabel, hcontext])
  rw [hlabel, hcontext] at hload
  exact ⟨x, (meInitWork_run Config.params ha).trans hload⟩

/-- ME_INIT on an UNINIT slot is the load (R221). -/
theorem exec_meInit_ok (hp : s.Passes (.meInit j)) (ha : s.Admits (.meInit j))
    (hf : s.NoFault (callsOf (.meInit j) s.regs)) : ∃ x, exec (.meInit j) s = .next ((s.meLoaded j x).exit .ok) := by
  have hgate := hp.gateOf_eq_go
  obtain ⟨-, -, -, hcap, -⟩ := hp
  obtain ⟨hs, hall⟩ := ha
  obtain ⟨x, hw⟩ := meInitWork_ok (kdfRejects_eq_false.mpr ⟨by decide, by decide, hcap⟩) hall hf
  exact ⟨x, exec_of_work_ok hgate hs hw⟩

/-- Slot `j` holds both keys after the load, and the other slots and the frame are as they were. -/
theorem writesXc_meLoaded (hj : j < Config.nxc) (s : State) (x : Block) (e : Status) :
    WritesXc { s with hidden := s.hidden.afterDerive x } ((s.meLoaded j x).exit e) j s.meCtx :=
  writesXc_setXc hj _ _ _ _ e

/-- Settles O40: the checks pass, and the work is the load of the slot with the halves of the derived bytes. -/
theorem meInitLoadsTheDerivedKeys : Obligations.MeInitLoadsTheDerivedKeys := by
  intro j s hj hlabel hcontext hcap ha hdata htweak hf
  obtain ⟨x, he⟩ := exec_meInit_ok ⟨hj, hlabel, hcontext, hcap, hdata, htweak⟩ ha hf
  have h := writesXc_meLoaded hj s x .ok
  refine ⟨_, x, he, rfl, ?_⟩
  rw [h.data, h.tweak]
  exact ⟨rfl, rfl, State.keyOf_loaded .., State.keyOf_loaded .., rfl, rfl, h.others, h.frame, h.hidden, rfl⟩

end Sys2Proof.Machine
end

section
/-! SUPPORT. The ending codes of the commands, and what a command that ended with FAILURE leaves (60_exceptions.md R242, R246,
R247). -/

namespace Sys2Proof.Machine

variable {i : Instr} {s t : State} {c : Status} {o : Option (Nat × Nat)}

/-! ## Which command can end with which code -/

/-- A code that the checks raise and a code that a work ends with both stand in the command's row (60_exceptions.md R242). -/
theorem exec_mayEndWith (h : exec i s = .next t) : ∃ c ∈ mayEndWith i, t.status = c.word := by
  rcases exec_runs h with ⟨c, -, hc, -, rfl⟩ | ⟨-, u, c, he, rfl⟩
  · exact ⟨c, hc, rfl⟩
  · exact ⟨c, he.code, rfl⟩

/-- Settles O45: every command by its row, and an illegal word by its one outcome (30_encoding.md R85). -/
theorem commandsEndWithTheirCodes : Obligations.CommandsEndWithTheirCodes := by
  refine ⟨fun _ _ _ => exec_mayEndWith, fun w e s t hw h => ?_⟩
  rw [launchWord_error hw] at h
  cases h
  rfl

/-! ## What FAILURE leaves -/

/-- The exit sequence, draws included, leaves every byte outside the output range alone (60_exceptions.md R247). -/
theorem ended_get {p : Nat} (hp : ∀ a n, o = some (a, n) → p < a ∨ a + n ≤ p) : (ended o c s).mem.get p = s.mem.get p := by
  unfold ended
  split_ifs
  · exact s.scribble_get o p hp
  · rfl

/-- A command that ends with FAILURE got past its checks: its work raised the code. -/
theorem exec_failure (h : exec i s = .next t) (hst : t.status = Status.failure.word) :
    ∃ u, Effect i s u .failure ∧ t = ended (outRange i s.regs) .failure u := by
  rcases exec_next_cases h with ⟨c, hc, rfl⟩ | ⟨-, u, c, he, rfl⟩
  · obtain rfl : c = .failure := Status.word_inj hst
    simp at hc
  · obtain rfl : c = .failure := Status.word_inj (ended_status.symm.trans hst)
    exact ⟨u, he, rfl⟩

/-- No command that writes RESULT can end with FAILURE (R242). -/
theorem isIsInit_of_failure_mem (h : .failure ∈ mayEndWith i) : isIsInit i = false := by
  cases i with
  | bcIsInit | xtsIsInit => simp [mayEndWith] at h
  | _ => rfl

/-- No command that cleans a slot can end with FAILURE (R242). -/
theorem cleanTargets_of_failure_mem (h : .failure ∈ mayEndWith i) : cleanTargets i = [] := by
  cases i with
  | bcCleanup | xtsCleanup => simp [mayEndWith] at h
  | _ => rfl

/-- Settles O51: the work that raised FAILURE belongs to no cleanup command and to none that writes RESULT, so what it keeps
is said by its effect, and the exit sequence writes the output range alone. -/
theorem failureLeavesTheRest : Obligations.FailureLeavesTheRest := by
  intro i s t h hst
  obtain ⟨u, he, rfl⟩ := exec_failure h hst
  have hslots : initTargets i ++ cleanTargets i = initTargets i := by
    rw [cleanTargets_of_failure_mem he.code, List.append_nil]
  simp only [ctxAt_ended, ended_result]
  exact ⟨fun p hp => (ended_get hp).trans (he.mem.get p hp), he.target rfl, fun c hc => he.bc c (hslots.symm ▸ hc),
    fun j hj => he.xc j (hslots.symm ▸ hj), he.result (isIsInit_of_failure_mem he.code)⟩

end Sys2Proof.Machine
end

section
/-! SUPPORT. A reset that arrives while a command runs (70_reset_and_hazards.md R271): the memory frame of a command, and that
the range the reset draws is the command's output range at most. -/

namespace Sys2Proof.Machine

variable {i : Instr} {s t u : State}

/-- However a command ends, the memory outside its output range is as before (20_memory.md R65, 60_exceptions.md R247). -/
theorem exec_get (h : exec i s = .next t) {p : Nat} (hp : ∀ a n, outRange i s.regs = some (a, n) → p < a ∨ a + n ≤ p) :
    t.mem.get p = s.mem.get p := by
  rcases exec_next_cases h with ⟨c, -, rfl⟩ | ⟨-, u, c, he, rfl⟩
  · rfl
  · exact (ended_get hp).trans (he.mem.get p hp)

/-- What a reset during a command draws is the command's output range or nothing (log 17). -/
theorem outRange_of_touchedRange {r : OperandRegs} {st : Word} {q : Nat × Nat} (h : touchedRange i r st = some q) :
    outRange i r = some q := by
  unfold touchedRange at h
  split_ifs at h
  exact h

theorem abortByReset_ok {w : Word} (hw : decode w = .ok i) (he : exec i s = .next u) :
    abortByReset w s = .next (u.scribble (touchedRange i s.regs u.status)).resetEvent := by
  simp only [abortByReset, hw, he]

/-- Settles O59: the reset event clears contexts and hidden state, and neither the command nor the draws nor the reset event
writes `DEVKEY` or memory outside the output range. -/
theorem resetDuringACommandEndsIt : Obligations.ResetDuringACommandEndsIt := by
  intro w i s u hw he
  obtain ⟨-, hkey, -⟩ := commandsKeepOperandsAndDevkey i s u he
  refine ⟨_, abortByReset_ok hw he, State.ctxAt_resetEvent _, rfl, ?_, fun p hp => ?_⟩
  · rw [State.resetEvent_devKey, State.scribble_devKey, hkey]
  · have hdrawn := u.scribble_get (touchedRange i s.regs u.status) p fun a n ht => hp a n (outRange_of_touchedRange ht)
    rw [State.resetEvent_mem, hdrawn, exec_get he hp]

end Sys2Proof.Machine
end
